-- ==== Sys2Proof/Word.lean ====
section
/-! DEFINITION. The word types of the CORE and the two kinds of sequence it holds: bit strings (spec/00_scope R10,
spec/10_state R24) and texts (spec/10_state R29). -/

namespace Sys2Proof

/-- One item of CIN or ROUT, and one word of a BitBuffer (R8 `WORD`, R16). -/
abbrev Word := BitVec 32

/-- The content of a scalar register, of `CP` and of a hash length counter (R8 `XLEN`, `LENW`). -/
abbrev DWord := BitVec 64

/-- A bit string: position 0 is the first bit of the list, the most significant bit of the first word (R10, R26). -/
abbrev BitString := List Bool

/-- A text: a finite sequence of Unicode scalar values (R29). `Char` is exactly a scalar value, so a text register
cannot hold anything else (R23; DESIGN CHOICE, safe: log 9). -/
abbrev Text := List Char

end Sys2Proof
end

