-- ==== Sys2Proof/Config.lean ====
section
/-! DEFINITION. The two parameters the spec leaves OPEN (spec/00_scope R8, decision D6), as constants whose value no
proof can see (DESIGN CHOICE of form, safe: log 1). -/

namespace Sys2Proof.Config

/-- What picks `CAP_BITS`; nothing is known of it. -/
opaque capBitsChoice : Nat

/-- What picks `CAP_CP`; nothing is known of it. -/
opaque capCpChoice : Nat

/-- `CAP_BITS`, the largest bit length a B register can hold: some number from 512 to `2^63 - 1` (R8). -/
def capBits : Nat := capBitsChoice % (2 ^ 63 - 512) + 512

/-- `CAP_CP`, the largest number of code points a T register can hold: some number from 64 to `2^58` (R8). -/
def capCp : Nat := capCpChoice % (2 ^ 58 - 63) + 64

end Sys2Proof.Config
end

