-- ==== Sys2Proof/Machine/Bits.lean ====
section
/-! DEFINITION. Bit strings and words: the notation of spec/00_scope R9 to R11, the word form of spec/10_state R24 to
R26 with the word-level procedures of spec/41_bitbuffer R139, and the order of halves of spec/20_memory R63. -/

namespace Sys2Proof.Machine

/-- `ceil(a / n)` (R11). -/
def ceilDiv (a n : Nat) : Nat := (a + n - 1) / n

/-- `zeros(n)` (R10). -/
def zeros (n : Nat) : BitString := List.replicate n false

/-- `be(n, v)`: the `n` low bits of `v`, most significant first (R10). -/
def be : Nat → Nat → BitString
  | 0, _ => []
  | n + 1, v => v.testBit n :: be n v

/-- `val(a)`: the unsigned value, first bit most significant (R10). -/
def val (a : BitString) : Nat := a.foldl (fun acc x => 2 * acc + x.toNat) 0

/-- `a[s : e)` (R10). -/
def slice (a : BitString) (s e : Nat) : BitString := (a.drop s).take (e - s)

/-- `a XOR b` for strings of equal length (R10). -/
def xorBits (a b : BitString) : BitString := List.zipWith xor a b

/-- The first `k` groups of `n` bits, in order. -/
def chunks (n : Nat) : Nat → BitString → List BitString
  | 0, _ => []
  | k + 1, a => a.take n :: chunks n k (a.drop n)

/-- The 32 bits of a word, bit 31 first (R26, R62). -/
def wordBits (w : Word) : BitString := be 32 w.toNat

/-- A word from its bits, first bit most significant. -/
def bitsWord (a : BitString) : Word := BitVec.ofNat 32 (val a)

/-- Bits 63:32 of a 64-bit quantity, the half that travels first (R63). -/
def hiWord (v : DWord) : Word := v.extractLsb' 32 32

/-- Bits 31:0 of a 64-bit quantity. -/
def loWord (v : DWord) : Word := v.extractLsb' 0 32

/-- `hi * 2^32 + lo` (R83, R113). -/
def joinWords (hi lo : Word) : DWord := hi.setWidth 64 <<< 32 ||| lo.setWidth 64

/-- `zext_64` of a natural that fits (R9). -/
def dword (n : Nat) : DWord := BitVec.ofNat 64 n

/-- `sint64(v)`: two's complement (R9). -/
def sint64 (v : DWord) : Int := v.toInt

/-! ## The word form of a BitBuffer (R24 to R26) and its procedures (R139) -/

/-- The words of a BitBuffer, spare bits of the last one zero (R24, R26, R74). -/
def toWords (a : BitString) : List Word :=
  (chunks 32 (ceilDiv a.length 32) (a ++ zeros (32 * ceilDiv a.length 32 - a.length))).map bitsWord

/-- The bit string of the first `n` bits of some words (R115). -/
def ofWords (n : Nat) (ws : List Word) : BitString := (ws.flatMap wordBits).take n

/-- The word form `(w[0..n-1], LV)`; `lv` is the valid-bit count of the last word, and 0 only when there is none. -/
structure WordForm where
  words : List Word
  lv    : Nat
deriving DecidableEq, Repr

/-- The word form of a bit string (R24). -/
def wordForm (a : BitString) : WordForm :=
  ⟨toWords a, a.length - 32 * (ceilDiv a.length 32 - 1)⟩

/-- `32 * (n - 1) + LV`, or 0 for an empty buffer (R25). -/
def wordFormLen (f : WordForm) : Nat := 32 * (f.words.length - 1) + f.lv

/-- The carry loop of R139: every word of `b` is split at `c` bits between the open word and the next one. -/
def wordCatLoop (c : Nat) (carry : Word) : List Word → List Word × Word
  | [] => ([], carry)
  | w :: ws =>
    let r := wordCatLoop c (w <<< (32 - c)) ws
    ((carry ||| (w >>> c)) :: r.1, r.2)

/-- Word-level `concat` (R139). -/
def wordCat (a b : WordForm) : WordForm :=
  if a.words = [] then b
  else if b.words = [] then a
  else if a.lv = 32 then ⟨a.words ++ b.words, b.lv⟩
  else
    let r := wordCatLoop a.lv (a.words.getLastD 0) b.words
    if a.lv + b.lv > 32 then ⟨a.words.dropLast ++ r.1 ++ [r.2], a.lv + b.lv - 32⟩
    else ⟨a.words.dropLast ++ r.1, a.lv + b.lv⟩

/-- Every word shifted left by `r < 32` bits, the top of the next word entering at the right (R139). -/
def wordShiftLeft (r : Nat) : List Word → List Word
  | [] => []
  | w :: ws => ((w <<< r) ||| (ws.headD 0 >>> (32 - r))) :: wordShiftLeft r ws

/-- The first `n` bits of some words, as a word form: whole words beyond are dropped and the spare bits of the last
one cleared (R135, R139). -/
def wordTrunc (n : Nat) (ws : List Word) : WordForm :=
  let k := ceilDiv n 32
  let lv := n - 32 * (k - 1)
  ⟨(ws.take k).dropLast ++ ((ws.take k).drop (k - 1)).map (fun w => w &&& ~~~(BitVec.allOnes 32 >>> lv)), lv⟩

/-- Word-level `slice` (R139): drop whole words, shift the rest left, truncate. -/
def wordSlice (a : WordForm) (s e : Nat) : WordForm :=
  wordTrunc (e - s) (wordShiftLeft (s % 32) (a.words.drop (s / 32)))

end Sys2Proof.Machine
end

