-- ==== Sys2Proof/Machine/Types.lean ====
section
/-! DEFINITION. The records and named codes State and the decoder are made of: fault kinds and codes
(spec/60_exceptions R250), digest words, hash contexts and HMAC contexts (spec/10_state R30, R37). -/

namespace Sys2Proof.Machine

/-- The fault kinds of R250; `internalInvariant` is a code that no rule raises (R261). -/
inductive FaultKind where
  | invalidParameter
  | corruptInput
  | invalidUse
  | internalInvariant
  | commandFault
deriving DecidableEq, Repr

/-- The sixteen faults a command can raise (R250 to R262). They are the CORE's own events: taking one is a next state
(R266), not a stop of the model. -/
inductive FaultCode where
  | negative
  | b64Char
  | range
  | codepoint
  | keylen
  | utf8Malformed
  | notWholeBytes
  | b64Dangling
  | alreadyUpdated
  | notKeyed
  | illegalOpcode
  | reservedField
  | regIndex
  | reservedSr
  | capacity
  | lenOverflow
deriving DecidableEq, Repr

/-- Eight 32-bit words: a running digest `H[0..7]` (R30), and the working words `a` to `h` of a round (R183). -/
structure HWords where
  a : Word
  b : Word
  c : Word
  d : Word
  e : Word
  f : Word
  g : Word
  h : Word
deriving DecidableEq, Repr

/-- A hash context `(H, PEND, LEN)` (R30); `LEN` as 64 bits (DEDUCED, safe: log 8). -/
structure HashCtx where
  h    : HWords
  pend : BitString
  len  : DWord
deriving DecidableEq, Repr

/-- An HMAC context `(KEYED, UPD, IB, OB, W)` (R37). -/
structure HmacCtx where
  keyed : Bool
  upd   : Bool
  ib    : HashCtx
  ob    : HashCtx
  w     : HashCtx
deriving DecidableEq, Repr

end Sys2Proof.Machine
end

