-- ==== Sys2Proof/Machine/State.lean ====
section
/-! DEFINITION. The state of the CORE (spec/10_state R20), the same and nothing else (spec/00_scope R18), and its value
after reset (R51). -/

namespace Sys2Proof.Machine

/-- Why a step could stop the machine: there is no such reason. Every failure the spec describes is an architectural
fault that the CORE takes and goes on from (spec/60_exceptions R266, R267), so this type has no constructor (safe: no
step can end in it; DEDUCED, log 14). -/
inductive Fault
deriving DecidableEq, Repr

/-- Why an instruction could be refused. -/
inductive Refusal where
  /-- Raised only by an arm of `exec` whose instruction has no meaning yet; no arm is left that does (safe). -/
  | notModelled (mnemonic : String)
deriving DecidableEq, Repr

/-- The whole state of the CORE (R20). It holds no cells of addressable memory, since the CORE has none (spec/20_memory R60;
DEDUCED, safe: log 12). -/
structure State where
  /-- Scalar registers X0 to X15 (R21). -/
  x : Vector DWord 16
  /-- BitBuffer registers B0 to B15 (R22). -/
  b : Vector BitString 16
  /-- Text registers T0 to T3 (R23). -/
  t : Vector Text 4
  /-- Hash contexts S0 to S3 (R30). -/
  s : Vector HashCtx 4
  /-- HMAC contexts M0 and M1 (R37). -/
  m : Vector HmacCtx 2
  /-- The command pointer (R39). -/
  cp : DWord
  /-- The CORE is faulted (R42). -/
  flt : Bool
  /-- Kind code of the last fault (R43). -/
  errkind : BitVec 3
  /-- Detail code of the last fault (R43). -/
  errdet : BitVec 8
  /-- Command pointer of the last fault (R43). -/
  errcp : DWord
  /-- Constants ready (R36). -/
  krdy : Bool
  /-- Words supplied by the host and not yet consumed, oldest first (R47). -/
  cin : List Word
  /-- Words produced and not yet removed by the host, oldest first (R47). -/
  rout : List Word
deriving DecidableEq, Repr

/-- The initial hash context `(H0, empty, 0)` (R31, R187). -/
def HashCtx.initial : HashCtx := ⟨initWords, [], 0⟩

/-- An HMAC context as reset leaves it: unkeyed (R51). -/
def HmacCtx.unkeyed : HmacCtx := ⟨false, false, HashCtx.initial, HashCtx.initial, HashCtx.initial⟩

/-- The machine right after reset: every value is the spec's own (R51, R280). -/
def State.reset : State where
  x := Vector.replicate 16 0
  b := Vector.replicate 16 []
  t := Vector.replicate 4 []
  s := Vector.replicate 4 HashCtx.initial
  m := Vector.replicate 2 HmacCtx.unkeyed
  cp := 0
  flt := false
  errkind := 0
  errdet := 0
  errcp := 0
  krdy := false
  cin := []
  rout := []

end Sys2Proof.Machine
end

