-- ==== Sys2Proof/Machine/Ops.lean ====
section
/-! DEFINITION. The named operations over the state: register access (spec/10_state R21 to R23), responses
(spec/30_encoding R93), taking and leaving a fault (spec/60_exceptions R266, R268), moving past a command
(spec/30_encoding R84). Every read and write of the state by a meaning goes through these. -/

namespace Sys2Proof.Machine

/-- What an instruction answers. -/
abbrev Result := Host.Outcome State Fault Refusal

/-! ## Registers and contexts -/

/-- `X[i]`; no register is hardwired (R21). -/
def getX (s : State) (i : Fin 16) : DWord := s.x[i.val]

/-- `X[i] <- v`. -/
def setX (i : Fin 16) (v : DWord) (s : State) : State := { s with x := s.x.set i.val v }

/-- `B[i]`. -/
def getB (s : State) (i : Fin 16) : BitString := s.b[i.val]

/-- `B[i] <- v`: a copy of the bit string, not a reference (R22, R28). -/
def setB (i : Fin 16) (v : BitString) (s : State) : State := { s with b := s.b.set i.val v }

/-- `T[i]`. -/
def getT (s : State) (i : Fin 4) : Text := s.t[i.val]

/-- `T[i] <- v`. -/
def setT (i : Fin 4) (v : Text) (s : State) : State := { s with t := s.t.set i.val v }

/-- Hash context `S[i]`. -/
def getS (s : State) (i : Fin 4) : HashCtx := s.s[i.val]

/-- `S[i] <- c`. -/
def setS (i : Fin 4) (c : HashCtx) (s : State) : State := { s with s := s.s.set i.val c }

/-- HMAC context `M[i]`. -/
def getM (s : State) (i : Fin 2) : HmacCtx := s.m[i.val]

/-- `M[i] <- c`. -/
def setM (i : Fin 2) (c : HmacCtx) (s : State) : State := { s with m := s.m.set i.val c }

/-- `RespWrite`, word by word (R13, R93). -/
def respond (ws : List Word) (s : State) : State := { s with rout := s.rout ++ ws }

/-! ## Faults -/

/-- The kind of each fault (R250). -/
def faultKind : FaultCode → FaultKind
  | .negative | .b64Char | .range | .codepoint | .keylen => .invalidParameter
  | .utf8Malformed | .notWholeBytes | .b64Dangling => .corruptInput
  | .alreadyUpdated | .notKeyed => .invalidUse
  | .illegalOpcode | .reservedField | .regIndex | .reservedSr | .capacity | .lenOverflow => .commandFault

/-- The code of each kind (R250). -/
def kindCode : FaultKind → BitVec 3
  | .invalidParameter => 1
  | .corruptInput => 2
  | .invalidUse => 3
  | .internalInvariant => 4
  | .commandFault => 5

/-- The detail code of each fault within its kind (R250). -/
def detailCode : FaultCode → BitVec 8
  | .negative => 1
  | .b64Char => 2
  | .range => 3
  | .codepoint => 4
  | .keylen => 5
  | .utf8Malformed => 1
  | .notWholeBytes => 2
  | .b64Dangling => 3
  | .alreadyUpdated => 1
  | .notKeyed => 2
  | .illegalOpcode => 1
  | .reservedField => 2
  | .regIndex => 3
  | .reservedSr => 4
  | .capacity => 5
  | .lenOverflow => 6

/-- Taking a fault: the four fault registers, and nothing else (R266). The command's words are consumed by the step as
for any other command, so `cp` still is the index of the command's own word here. -/
def takeFault (f : FaultCode) (s : State) : State :=
  { s with flt := true, errkind := kindCode (faultKind f), errdet := detailCode f, errcp := s.cp }

/-- `raise`: the command ends with the fault taken, before any write of its own (R14, R266). -/
def raise (f : FaultCode) (s : State) : Result := .next (takeFault f s)

/-- Leaving the faulted state: `FLT` alone (R268, R43). -/
def clearFault (s : State) : State := { s with flt := false }

/-! ## Moving past a command -/

/-- Remove `n` words from CIN and advance `CP` by `n` (R84, R39). -/
def advance (n : Nat) (s : State) : State := { s with cin := s.cin.drop n, cp := s.cp + dword n }

/-- A command's outcome, then the move past its `n` words (R84). -/
def advanceResult (n : Nat) : Result → Result
  | .next s => .next (advance n s)
  | .fault r => .fault r
  | .refused r => .refused r

end Sys2Proof.Machine
end

