-- ==== Sys2Proof/Machine/Utf8.lean ====
section
/-! DEFINITION. The UTF-8 codec as functions: `UTF8_ENC` and `UTF8_DEC` (spec/42_codecs R161, R163). -/

namespace Sys2Proof.Machine

/-- The bytes of one code point, by its range (R161). -/
def utf8Bytes (c : Nat) : List Nat :=
  if c ≤ 0x7F then [c]
  else if c ≤ 0x7FF then [0xC0 + c / 2 ^ 6 % 2 ^ 5, 0x80 + c % 2 ^ 6]
  else if c ≤ 0xFFFF then [0xE0 + c / 2 ^ 12 % 2 ^ 4, 0x80 + c / 2 ^ 6 % 2 ^ 6, 0x80 + c % 2 ^ 6]
  else [0xF0 + c / 2 ^ 18 % 2 ^ 3, 0x80 + c / 2 ^ 12 % 2 ^ 6, 0x80 + c / 2 ^ 6 % 2 ^ 6, 0x80 + c % 2 ^ 6]

/-- A byte string as the bit string of its bytes, each most significant bit first (R62). -/
def bytesBits (ys : List Nat) : BitString := ys.flatMap (be 8)

/-- `UTF8_ENC(t)` (R161). -/
def utf8Enc (t : Text) : BitString := t.flatMap fun c => bytesBits (utf8Bytes c.toNat)

/-- What a lead byte says: how many continuation bytes follow, the bits it contributes, and the least code point that
form may encode; `none` for a byte that cannot start a sequence (R163). -/
def utf8Lead (y : Nat) : Option (Nat × Nat × Nat) :=
  if y ≤ 0x7F then some (0, y, 0)
  else if 0xC2 ≤ y ∧ y ≤ 0xDF then some (1, y - 0xC0, 0x80)
  else if 0xE0 ≤ y ∧ y ≤ 0xEF then some (2, y - 0xE0, 0x800)
  else if 0xF0 ≤ y ∧ y ≤ 0xF4 then some (3, y - 0xF0, 0x10000)
  else none

/-- The value after the continuation bytes, or `none` if one of them is not in 0x80 to 0xBF (R163). -/
def utf8Cont (c : Nat) : List Nat → Option Nat
  | [] => some c
  | y :: ys => if y < 0x80 ∨ y > 0xBF then none else utf8Cont (c * 64 + (y - 0x80)) ys

/-- The loop of `UTF8_DEC` over the bytes not yet read; the first argument bounds the passes by the number of bytes
(R163). -/
def utf8DecLoop : Nat → List Nat → Except FaultCode Text
  | _, [] => .ok []
  | 0, _ :: _ => .error .utf8Malformed
  | fuel + 1, y0 :: ys =>
    match utf8Lead y0 with
    | none => .error .utf8Malformed
    | some (k, c0, lo) =>
      if ys.length < k then .error .utf8Malformed
      else
        match utf8Cont c0 (ys.take k) with
        | none => .error .utf8Malformed
        | some c =>
          if c < lo ∨ c > 0x10FFFF ∨ (0xD800 ≤ c ∧ c ≤ 0xDFFF) then .error .utf8Malformed
          else (utf8DecLoop fuel (ys.drop k)).map (Char.ofNat c :: ·)

/-- The bytes of a bit string of whole bytes (R163). -/
def bitsBytes (a : BitString) : List Nat := (chunks 8 (a.length / 8) a).map val

/-- `UTF8_DEC(b)` (R163). -/
def utf8Dec (a : BitString) : Except FaultCode Text :=
  if a.length % 8 ≠ 0 then .error .notWholeBytes
  else utf8DecLoop (a.length / 8) (bitsBytes a)

end Sys2Proof.Machine
end

