-- ==== Sys2Proof/Syntax.lean ====
section
/-! DEFINITION. The command set as syntax: one constructor of `Instr` per row of spec/opcode_table.json
(spec/30_encoding R89), the registers its operands name (R87), and the status registers (spec/10_state R40). -/

namespace Sys2Proof

/-- A scalar register number, X0 to X15. -/
abbrev XReg := Fin 16

/-- A BitBuffer register number, B0 to B15. -/
abbrev BReg := Fin 16

/-- A text register number, T0 to T3. -/
abbrev TReg := Fin 4

/-- A hash context number, S0 to S3. -/
abbrev SCtx := Fin 4

/-- An HMAC context number, M0 or M1. -/
abbrev MCtx := Fin 2

/-- The status registers of R40; every number not listed there is reserved and has no constructor. -/
inductive SReg where
  | status
  | errkind
  | errdet
  | errcp
  | cp
  | idr
  | capbits
  | capcp
  | slen (i : SCtx)
  | splen (i : SCtx)
  | mstat (i : MCtx)
deriving DecidableEq, Repr

/-- A data operand D0 types as "BitBuffer|text": which of the two files it names (R88 flags PT, ST). -/
inductive DataReg where
  | bits (r : BReg)
  | text (r : TReg)
deriving DecidableEq, Repr

/-- The 37 command forms of R89, operands in the order of R94: destination, then `RA`, `RB`, `RC`, `RE`, then flags;
a load carries its payload (R92). -/
inductive Instr where
  | nop
  | clrerr
  | rdsr (rd : XReg) (sr : SReg)
  | xload (rd : XReg) (v : DWord)
  | xstore (ra : XReg)
  /-- `n` is the header (the bit length), `data` the data words. -/
  | bload (rd : BReg) (n : DWord) (data : List Word)
  | bstore (ra : BReg)
  /-- `n` is the header (the number of code points), `data` one word per code point. -/
  | tload (rd : TReg) (n : DWord) (data : List Word)
  | tstore (ra : TReg)
  | blen (rd : XReg) (ra : BReg)
  | bslice (rd ra : BReg) (rb rc : XReg)
  /-- `BSLICE` with flag E: to the end. -/
  | bsliceE (rd ra : BReg) (rb : XReg)
  | bext (rd : XReg) (ra : BReg) (rb rc : XReg)
  | bcat (rd ra rb : BReg)
  | btrunc (rd ra : BReg) (rb : XReg)
  /-- `shifted` is flag S. -/
  | bmkp (rd ra rb : XReg) (shifted : Bool)
  | bgvc (rd ra : XReg)
  | beq (rd : XReg) (ra rb : BReg)
  | u8enc (rd : BReg) (ra : TReg)
  | u8dec (rd : TReg) (ra : BReg)
  /-- `url` is flag U, `noPad` is flag N. -/
  | b64enc (rd : TReg) (ra : BReg) (url noPad : Bool)
  | b64dec (rd : BReg) (ra : TReg) (url : Bool)
  | sharst (rd : SCtx)
  | shaupd (rd : SCtx) (ra : BReg)
  | shaupdT (rd : SCtx) (ra : TReg)
  | shafin (rd : BReg) (ra : SCtx)
  | shaclone (rd ra : SCtx)
  | hmkey (rd : MCtx) (ra : BReg)
  | hmupd (rd : MCtx) (ra : BReg)
  | hmupdT (rd : MCtx) (ra : TReg)
  | hmdig (rd : BReg) (ra : MCtx)
  | hmmac (rd : BReg) (ra : MCtx) (rb : BReg)
  | hmmacT (rd : BReg) (ra : MCtx) (rb : TReg)
  | hmrst (rd : MCtx)
  /-- `ra` the password, `rb` the salt, `rc` the iteration count, `re` the output length in bits. -/
  | pbkdf2 (rd : BReg) (ra rb : DataReg) (rc re : XReg)
  /-- `PBKDF2` with flag DC: the default iteration count. -/
  | pbkdf2Dc (rd : BReg) (ra rb : DataReg) (re : XReg)
  | derive (rd ra rb : TReg) (rc re : XReg)
deriving DecidableEq, Repr

end Sys2Proof
end

