-- ==== Sys2Proof/Machine/Operands.lean ====
section
/-! DEFINITION. The operand forms of the command set: positions and counts read as `sint64` (spec/10_state R21), data
operands that are BitBuffers or texts converted by the UTF-8 codec (spec/42_codecs R160). A conversion of a text operand
is a temporary without a capacity limit (spec/43_sha256 R194, spec/45_pbkdf2 R235). -/

namespace Sys2Proof.Machine

/-- An X register read as a position or a count (R21, R9). -/
def position (s : State) (r : XReg) : Int := sint64 (getX s r)

/-- A text operand as data (R160, R194). -/
def textData (s : State) (r : TReg) : BitString := utf8Enc (getT s r)

/-- A data operand in either file (R235). -/
def dataOf (s : State) : DataReg → BitString
  | .bits r => getB s r
  | .text r => textData s r

end Sys2Proof.Machine
end

