-- ==== Sys2Proof/Machine/BitBuffer.lean ====
section
/-! DEFINITION. The BitBuffer commands (spec/41_bitbuffer R131 to R138). Sources are read before the destination is
written (spec/10_state R28). -/

namespace Sys2Proof.Machine

open Config

/-- `BLEN Xd, Ba` (R131). -/
def execBlen (rd : XReg) (ra : BReg) (s : State) : Result := .next (setX rd (dword (getB s ra).length) s)

/-- The slice `[st, en)` of `B[ra]` into `B[rd]`, RANGE unless `0 <= st <= en <= len` (R132). -/
def sliceInto (rd ra : BReg) (st en : Int) (s : State) : Result :=
  if 0 ≤ st ∧ st ≤ en ∧ en ≤ (getB s ra).length then .next (setB rd (slice (getB s ra) st.toNat en.toNat) s)
  else raise .range s

/-- `BSLICE Bd, Ba, Xb, Xc` (R132). -/
def execBslice (rd ra : BReg) (rb rc : XReg) (s : State) : Result :=
  sliceInto rd ra (position s rb) (position s rc) s

/-- `BSLICE.E Bd, Ba, Xb`: to the end (R132). -/
def execBsliceE (rd ra : BReg) (rb : XReg) (s : State) : Result :=
  sliceInto rd ra (position s rb) (getB s ra).length s

/-- `BEXT Xd, Ba, Xb, Xc`: at most 32 bits, right-justified (R133). -/
def execBext (rd : XReg) (ra : BReg) (rb rc : XReg) (s : State) : Result :=
  let st := position s rb
  let n := position s rc
  if 0 ≤ n ∧ n ≤ 32 ∧ 0 ≤ st ∧ st + n ≤ (getB s ra).length then
    .next (setX rd (dword (val (slice (getB s ra) st.toNat (st.toNat + n.toNat)))) s)
  else raise .range s

/-- `BCAT Bd, Ba, Bb` (R134). -/
def execBcat (rd ra rb : BReg) (s : State) : Result :=
  if (getB s ra).length + (getB s rb).length > capBits then raise .capacity s
  else .next (setB rd (getB s ra ++ getB s rb) s)

/-- `BTRUNC Bd, Ba, Xb`: never extends (R135). -/
def execBtrunc (rd ra : BReg) (rb : XReg) (s : State) : Result :=
  let n := position s rb
  if n < 0 then raise .range s
  else .next (setB rd ((getB s ra).take n.toNat) s)

/-- The payload of a packed partial word of `c` bits, or `none` when the value has a bit outside its field: not yet
shifted it is right-justified, shifted it is left-justified in 32 bits (R136). -/
def packPayload (c v : Nat) (shifted : Bool) : Option Nat :=
  if shifted then (if v ≥ 2 ^ 32 ∨ v % 2 ^ (32 - c) ≠ 0 then none else some v)
  else (if v ≥ 2 ^ c then none else some (v * 2 ^ (32 - c)))

/-- `BMKP[.S] Xd, Xa, Xb`: both operands are unsigned; a count of 32 is written as 0 (R136, R27). -/
def execBmkp (rd ra rb : XReg) (shifted : Bool) (s : State) : Result :=
  let c := (getX s ra).toNat
  if c < 1 ∨ c > 32 then raise .range s
  else
    match packPayload c (getX s rb).toNat shifted with
    | none => raise .range s
    | some p => .next (setX rd (dword (c % 32 * 2 ^ 32 + p)) s)

/-- `BGVC Xd, Xa`: the count field, 0 meaning 32; RANGE if a bit above 36 is set (R137). -/
def execBgvc (rd ra : XReg) (s : State) : Result :=
  let w := getX s ra
  if w.extractLsb' 37 27 ≠ 0 then raise .range s
  else
    let c := (w.extractLsb' 32 5).toNat
    .next (setX rd (dword (if c = 0 then 32 else c)) s)

/-- `BEQ Xd, Ba, Bb` (R138). -/
def execBeq (rd : XReg) (ra rb : BReg) (s : State) : Result :=
  .next (setX rd (if getB s ra = getB s rb then 1 else 0) s)

end Sys2Proof.Machine
end

