-- ==== Sys2Proof/Machine/Base64.lean ====
section
/-! DEFINITION. The Base64 and Base64-URL codec as functions: alphabets, `B64_ENC`, `B64_DEC` (spec/42_codecs R165, R166,
R168). -/

namespace Sys2Proof.Machine

/-- `ALPH(u)[v]`: the character of a value from 0 to 63 (R165). -/
def b64Char (url : Bool) (v : Nat) : Char :=
  if v < 26 then Char.ofNat (0x41 + v)
  else if v < 52 then Char.ofNat (0x61 + (v - 26))
  else if v < 62 then Char.ofNat (0x30 + (v - 52))
  else if v = 62 then Char.ofNat (if url then 0x2D else 0x2B)
  else Char.ofNat (if url then 0x5F else 0x2F)

/-- The value of a character of `ALPH(u)`; `none` for a character outside it (R165). -/
def b64Value (url : Bool) (c : Char) : Option Nat :=
  let n := c.toNat
  if 0x41 ≤ n ∧ n ≤ 0x5A then some (n - 0x41)
  else if 0x61 ≤ n ∧ n ≤ 0x7A then some (n - 0x61 + 26)
  else if 0x30 ≤ n ∧ n ≤ 0x39 then some (n - 0x30 + 52)
  else if n = (if url then 0x2D else 0x2B) then some 62
  else if n = (if url then 0x5F else 0x2F) then some 63
  else none

/-- The pad character `=` (R165). -/
def b64Pad : Char := Char.ofNat 0x3D

/-- The characters of the groups of six bits, before padding (R166). -/
def b64Groups (a : BitString) (url : Bool) : Text :=
  let k := ceilDiv a.length 6
  (chunks 6 k (a ++ zeros (6 * k - a.length))).map fun g => b64Char url (val g)

/-- `B64_ENC(b, u, n)` (R166): unless `noPad`, padded to a multiple of four characters. -/
def b64Enc (a : BitString) (url noPad : Bool) : Text :=
  let t := b64Groups a url
  if noPad then t else t ++ List.replicate ((4 - t.length % 4) % 4) b64Pad

/-- The characters stripped before decoding: the six whitespace code points and `=` (R168). -/
def b64Stripped (c : Char) : Bool := [0x09, 0x0A, 0x0B, 0x0C, 0x0D, 0x20, 0x3D].contains c.toNat

/-- `B64_DEC(t, u)` (R168): strip, then check every character, then check the count, then cut to whole bytes. -/
def b64Dec (t : Text) (url : Bool) : Except FaultCode BitString :=
  let q := t.filter fun c => !b64Stripped c
  match q.mapM (b64Value url) with
  | none => .error .b64Char
  | some vs =>
    if vs.length % 4 = 1 then .error .b64Dangling
    else .ok ((vs.flatMap (be 6)).take (8 * (6 * vs.length / 8)))

end Sys2Proof.Machine
end

