-- ==== Sys2Proof/Machine/Codec.lean ====
section
/-! DEFINITION. The codec commands (spec/42_codecs R162, R164, R167, R169). -/

namespace Sys2Proof.Machine

open Config

/-- A bit string into `B[rd]`, CAPACITY if it is longer than a B register holds. -/
def fitB (rd : BReg) (r : BitString) (s : State) : Result :=
  if r.length > capBits then raise .capacity s else .next (setB rd r s)

/-- A text into `T[rd]`, CAPACITY if it is longer than a T register holds. -/
def fitT (rd : TReg) (r : Text) (s : State) : Result :=
  if r.length > capCp then raise .capacity s else .next (setT rd r s)

/-- `U8ENC Bd, Ta` (R162). -/
def execU8enc (rd : BReg) (ra : TReg) (s : State) : Result := fitB rd (utf8Enc (getT s ra)) s

/-- `U8DEC Td, Ba` (R164). -/
def execU8dec (rd : TReg) (ra : BReg) (s : State) : Result :=
  match utf8Dec (getB s ra) with
  | .error f => raise f s
  | .ok r => fitT rd r s

/-- `B64ENC[.U][.N] Td, Ba` (R167). -/
def execB64enc (rd : TReg) (ra : BReg) (url noPad : Bool) (s : State) : Result :=
  fitT rd (b64Enc (getB s ra) url noPad) s

/-- `B64DEC[.U] Bd, Ta` (R169). -/
def execB64dec (rd : BReg) (ra : TReg) (url : Bool) (s : State) : Result :=
  match b64Dec (getT s ra) url with
  | .error f => raise f s
  | .ok r => fitB rd r s

end Sys2Proof.Machine
end

