-- ==== Sys2Proof/Machine/Flags.lean ====
section
/-! DEFINITION. The flag-like bits of the CORE (spec/10_state R52): `KRDY`, the `KEYED` and `UPD` bits of an HMAC context,
and the status words that show them (R42, R46). `FLT` is written by `takeFault` and `clearFault` (Machine/Ops). The CORE
has no condition codes and no arithmetic flags. -/

namespace Sys2Proof.Machine

/-- `KRDY <- 1`, done by every SHA-256, HMAC and PBKDF2 command that retires (R36). -/
def setKrdy (s : State) : State := { s with krdy := true }

/-- `STATUS`: bit 1 `KRDY`, bit 0 `FLT` (R42). -/
def statusWord (s : State) : DWord := dword (2 * s.krdy.toNat + s.flt.toNat)

/-- `MSTATi`: bit 1 `UPD`, bit 0 `KEYED` (R46). -/
def mstatWord (c : HmacCtx) : DWord := dword (2 * c.upd.toNat + c.keyed.toNat)

end Sys2Proof.Machine
end

