-- ==== Sys2Proof/Machine/Sha256.lean ====
section
/-! DEFINITION. The SHA-256 engine as pure functions: the compression (spec/43_sha256 R181 to R186) and the functions on
hash contexts (R187 to R191). All additions are modulo `2^32` (R184). -/

namespace Sys2Proof.Machine

/-! ## Block compression -/

/-- Choice (R181). -/
def ch (x y z : Word) : Word := (x &&& y) ^^^ (~~~x &&& z)

/-- Majority (R181). -/
def maj (x y z : Word) : Word := (x &&& y) ^^^ (x &&& z) ^^^ (y &&& z)

/-- Capital sigma 0 (R181). -/
def bsig0 (x : Word) : Word := x.rotateRight 2 ^^^ x.rotateRight 13 ^^^ x.rotateRight 22

/-- Capital sigma 1 (R181). -/
def bsig1 (x : Word) : Word := x.rotateRight 6 ^^^ x.rotateRight 11 ^^^ x.rotateRight 25

/-- Small sigma 0 (R181). -/
def ssig0 (x : Word) : Word := x.rotateRight 7 ^^^ x.rotateRight 18 ^^^ (x >>> 3)

/-- Small sigma 1 (R181). -/
def ssig1 (x : Word) : Word := x.rotateRight 17 ^^^ x.rotateRight 19 ^^^ (x >>> 10)

/-- The next word of the schedule from the words before it, latest first: 2, 7, 15 and 16 back (R182). -/
def nextScheduleWord (back : List Word) : Word :=
  ssig1 (back.getD 1 0) + back.getD 6 0 + ssig0 (back.getD 14 0) + back.getD 15 0

/-- `n` more words of the schedule, latest first. -/
def extendSchedule : Nat → List Word → List Word
  | 0, back => back
  | n + 1, back => extendSchedule n (nextScheduleWord back :: back)

/-- `w[0..63]` from the sixteen words of a block (R182). -/
def schedule (block : List Word) : List Word := (extendSchedule 48 block.reverse).reverse

/-- One round with round constant `k` and schedule word `w` (R183). -/
def shaRound (v : HWords) (k w : Word) : HWords :=
  let t1 := v.h + bsig1 v.e + ch v.e v.f v.g + k + w
  let t2 := bsig0 v.a + maj v.a v.b v.c
  ⟨t1 + t2, v.a, v.b, v.c, v.d + t1, v.e, v.f, v.g⟩

/-- Word by word addition modulo `2^32` (R186). -/
def addWords (p q : HWords) : HWords :=
  ⟨p.a + q.a, p.b + q.b, p.c + q.c, p.d + q.d, p.e + q.e, p.f + q.f, p.g + q.g, p.h + q.h⟩

/-- `COMPRESS(H, blk)`: 64 rounds, then the old words added (R186). -/
def compress (hw : HWords) (blk : BitString) : HWords :=
  let w := schedule ((chunks 32 16 blk).map bitsWord)
  addWords hw ((roundConstants.zip w).foldl (fun v kw => shaRound v kw.1 kw.2) hw)

/-- The compression of the first `n` blocks of a bit string, in order (R188, R189). -/
def compressBlocks (n : Nat) (hw : HWords) (a : BitString) : HWords := (chunks 512 n a).foldl compress hw

/-! ## Context functions -/

/-- `SHA_RESET()` (R187). -/
def shaReset : HashCtx := HashCtx.initial

/-- `SHA_UPDATE(ctx, data)` (R188): every full block now available is compressed and removed. -/
def shaUpdate (c : HashCtx) (data : BitString) : HashCtx :=
  let p := c.pend ++ data
  let n := p.length / 512
  ⟨compressBlocks n c.h p, p.drop (512 * n), c.len + dword data.length⟩

/-- The least `z` with `(l + z) mod 512 = 448` (R189). -/
def padZeros (l : Nat) : Nat := (960 - l % 512) % 512

/-- The padded pending buffer: a 1 bit, zeros, and the length as two words, high word first (R189). -/
def shaPadded (c : HashCtx) : BitString :=
  let p := c.pend ++ be 1 1
  p ++ zeros (padZeros p.length) ++ wordBits (hiWord c.len) ++ wordBits (loWord c.len)

/-- The 256 bits of eight words, `H[0]` first (R189, R195). -/
def digestBits (hw : HWords) : BitString :=
  wordBits hw.a ++ wordBits hw.b ++ wordBits hw.c ++ wordBits hw.d ++
  wordBits hw.e ++ wordBits hw.f ++ wordBits hw.g ++ wordBits hw.h

/-- `SHA_FINAL(ctx)`: the digest, and the initial context (R189). -/
def shaFinal (c : HashCtx) : BitString × HashCtx :=
  let p := shaPadded c
  (digestBits (compressBlocks (p.length / 512) c.h p), shaReset)

/-- `SHA_CLONE(ctx)` (R190). -/
def shaClone (c : HashCtx) : HashCtx := c

/-- `SHA256(b)`, one-shot (R191). -/
def sha256 (a : BitString) : BitString := (shaFinal (shaUpdate shaReset a)).1

/-- The update would make the 64-bit length counter reach `2^64` (R193). -/
def lenOverflows (c : HashCtx) (data : BitString) : Bool := 2 ^ 64 ≤ c.len.toNat + data.length

end Sys2Proof.Machine
end

