-- ==== Sys2Proof/Machine/HmacFn.lean ====
section
/-! DEFINITION. HMAC over SHA-256 as pure functions (spec/44_hmac R211 to R215). -/

namespace Sys2Proof.Machine

/-- `IPAD`: 64 bytes 0x36 (R211). -/
def ipad : BitString := (List.replicate 64 (be 8 0x36)).flatten

/-- `OPAD`: 64 bytes 0x5C (R211). -/
def opad : BitString := (List.replicate 64 (be 8 0x5C)).flatten

/-- `k0`: the key, hashed first if it is longer than a block, zero-extended to one block (R211). -/
def hmacKeyBlock (key : BitString) : BitString :=
  let k := if key.length > 512 then sha256 key else key
  k ++ zeros (512 - k.length)

/-- `HMAC_KEY(k)`: the inner and the outer base (R211). -/
def hmacKey (key : BitString) : HashCtx × HashCtx :=
  (shaUpdate shaReset (xorBits (hmacKeyBlock key) ipad), shaUpdate shaReset (xorBits (hmacKeyBlock key) opad))

/-- `HMAC_UPDATE(W, d)` (R212). -/
def hmacUpdate (w : HashCtx) (d : BitString) : HashCtx := shaUpdate w d

/-- `HMAC_DIGEST(IB, OB, W)`: the MAC, and the new working state (R213). -/
def hmacDigest (ib ob w : HashCtx) : BitString × HashCtx :=
  let inner := (shaFinal w).1
  ((shaFinal (shaUpdate (shaClone ob) inner)).1, shaClone ib)

/-- `HMAC_MAC(IB, OB, W, d)` (R214). -/
def hmacMac (ib ob w : HashCtx) (d : BitString) : BitString × HashCtx := hmacDigest ib ob (hmacUpdate w d)

/-- `HMAC_RESET(IB)` (R215). -/
def hmacReset (ib : HashCtx) : HashCtx := shaClone ib

end Sys2Proof.Machine
end

