-- ==== Sys2Proof/Machine/Hmac.lean ====
section
/-! DEFINITION. The HMAC commands and the state machine of an HMAC context (spec/44_hmac R216 to R223). -/

namespace Sys2Proof.Machine

/-- `HMKEY Md, Ba`: a fresh context with this key (R217). -/
def execHmkey (rd : MCtx) (ra : BReg) (s : State) : Result :=
  let bases := hmacKey (getB s ra)
  .next (setKrdy (setM rd ⟨true, false, bases.1, bases.2, shaClone bases.1⟩ s))

/-- `update` of `M[rd]` with given data (R218). -/
def hmacUpdateInto (rd : MCtx) (d : BitString) (s : State) : Result :=
  let c := getM s rd
  if c.keyed = false then raise .notKeyed s
  else if lenOverflows c.w d then raise .lenOverflow s
  else .next (setKrdy (setM rd { c with w := hmacUpdate c.w d, upd := true } s))

/-- `HMUPD Md, Ba` (R218). -/
def execHmupd (rd : MCtx) (ra : BReg) (s : State) : Result := hmacUpdateInto rd (getB s ra) s

/-- `HMUPD.T Md, Ta` (R219). -/
def execHmupdT (rd : MCtx) (ra : TReg) (s : State) : Result := hmacUpdateInto rd (textData s ra) s

/-- `HMDIG Bd, Ma` (R220). -/
def execHmdig (rd : BReg) (ra : MCtx) (s : State) : Result :=
  let c := getM s ra
  if c.keyed = false then raise .notKeyed s
  else
    let r := hmacDigest c.ib c.ob c.w
    .next (setKrdy (setM ra { c with w := r.2, upd := false } (setB rd r.1 s)))

/-- The one-shot `mac` of `M[ra]` over given data (R221). -/
def hmacMacInto (rd : BReg) (ra : MCtx) (d : BitString) (s : State) : Result :=
  let c := getM s ra
  if c.keyed = false then raise .notKeyed s
  else if c.upd = true then raise .alreadyUpdated s
  else if lenOverflows c.w d then raise .lenOverflow s
  else
    let r := hmacMac c.ib c.ob c.w d
    .next (setKrdy (setM ra { c with w := r.2, upd := false } (setB rd r.1 s)))

/-- `HMMAC Bd, Ma, Bb` (R221). -/
def execHmmac (rd : BReg) (ra : MCtx) (rb : BReg) (s : State) : Result := hmacMacInto rd ra (getB s rb) s

/-- `HMMAC.T Bd, Ma, Tb` (R222). -/
def execHmmacT (rd : BReg) (ra : MCtx) (rb : TReg) (s : State) : Result := hmacMacInto rd ra (textData s rb) s

/-- `HMRST Md`: input given since the last digest is discarded, the key is kept (R223). -/
def execHmrst (rd : MCtx) (s : State) : Result :=
  let c := getM s rd
  if c.keyed = false then raise .notKeyed s
  else .next (setKrdy (setM rd { c with w := hmacReset c.ib, upd := false } s))

end Sys2Proof.Machine
end

