-- ==== Sys2Proof/Machine/Pbkdf2Fn.lean ====
section
/-! DEFINITION. PBKDF2 over HMAC-SHA-256 as pure functions (spec/45_pbkdf2 R232, R233). The pseudorandom function is
fixed (R231). -/

namespace Sys2Proof.Machine

/-- `mac(d)` of R232: every call starts from a clone of the inner base. -/
def pbkdf2Mac (ib ob : HashCtx) (d : BitString) : BitString := (hmacMac ib ob (shaClone ib) d).1

/-- The passes of R232: each maps `U` and XORs it into the block. -/
def pbkdf2Passes (ib ob : HashCtx) : Nat → BitString → BitString → BitString
  | 0, _, block => block
  | n + 1, u, block =>
    let u' := pbkdf2Mac ib ob u
    pbkdf2Passes ib ob n u' (xorBits block u')

/-- `PBKDF2_BLOCK(IB, OB, S, c, k)`: `c - 1` passes after `U1`, none when `c` is 0 or 1 (R232). -/
def pbkdf2Block (ib ob : HashCtx) (salt : BitString) (c k : Nat) : BitString :=
  let u := pbkdf2Mac ib ob (salt ++ be 32 k)
  pbkdf2Passes ib ob (c - 1) u u

/-- The number of blocks computed: `max(1, ceil(L / 256))` (R233). -/
def pbkdf2Blocks (l : Nat) : Nat := max 1 (ceilDiv l 256)

/-- `PBKDF2_DERIVE(P, S, c, L)`: blocks 1, 2, ... in order, cut to exactly `L` bits (R233). -/
def pbkdf2Derive (p salt : BitString) (c l : Nat) : BitString :=
  let bases := hmacKey p
  ((List.range (pbkdf2Blocks l)).flatMap fun j => pbkdf2Block bases.1 bases.2 salt c (j + 1)).take l

/-- The largest output length a 32-bit block index allows, `256 * (2^32 - 1)` bits (R234). -/
def maxKeyBits : Nat := 256 * (2 ^ 32 - 1)

end Sys2Proof.Machine
end

