-- ==== Sys2Proof/Machine/Pbkdf2.lean ====
section
/-! DEFINITION. The PBKDF2 commands (spec/45_pbkdf2 R235, R236). All checks come before any hashing (R234); neither
command touches a hash or an HMAC context (spec/10_state R49). -/

namespace Sys2Proof.Machine

open Config

/-- `PBKDF2` with its count and length settled (R235). -/
def pbkdf2Into (rd : BReg) (p salt : BitString) (c l : Int) (s : State) : Result :=
  if l < 0 ∨ c < 0 then raise .negative s
  else if l > maxKeyBits then raise .keylen s
  else if l > capBits then raise .capacity s
  else .next (setKrdy (setB rd (pbkdf2Derive p salt c.toNat l.toNat) s))

/-- `PBKDF2[.PT][.ST] Bd, (Ba|Ta), (Bb|Tb), Xc, Xe` (R235). -/
def execPbkdf2 (rd : BReg) (ra rb : DataReg) (rc re : XReg) (s : State) : Result :=
  pbkdf2Into rd (dataOf s ra) (dataOf s rb) (position s rc) (position s re) s

/-- `PBKDF2[.PT][.ST].DC Bd, (Ba|Ta), (Bb|Tb), Xe`: the default count (R235). -/
def execPbkdf2Dc (rd : BReg) (ra rb : DataReg) (re : XReg) (s : State) : Result :=
  pbkdf2Into rd (dataOf s ra) (dataOf s rb) defaultCount (position s re) s

/-- `DERIVE Td, Ta, Tb, Xc, Xe`: `8 * n` bits as padded standard Base64; the products are exact (R236). -/
def execDerive (rd ra rb : TReg) (rc re : XReg) (s : State) : Result :=
  let c := position s rc
  let n := position s re
  if n < 0 ∨ c < 0 then raise .negative s
  else if 8 * n > maxKeyBits then raise .keylen s
  else if 4 * ceilDiv n.toNat 3 > capCp then raise .capacity s
  else
    let dk := pbkdf2Derive (textData s ra) (textData s rb) c.toNat (8 * n.toNat)
    .next (setKrdy (setT rd (b64Enc dk false false) s))

end Sys2Proof.Machine
end

