-- ==== Sys2Proof/Machine/Sha.lean ====
section
/-! DEFINITION. The SHA-256 commands (spec/43_sha256 R192 to R196). -/

namespace Sys2Proof.Machine

/-- `SHARST Sd` (R192). -/
def execSharst (rd : SCtx) (s : State) : Result := .next (setKrdy (setS rd shaReset s))

/-- `SHA_UPDATE` of `S[rd]`, LEN_OVERFLOW if the counter would reach `2^64` (R193). -/
def shaUpdateInto (rd : SCtx) (d : BitString) (s : State) : Result :=
  if lenOverflows (getS s rd) d then raise .lenOverflow s
  else .next (setKrdy (setS rd (shaUpdate (getS s rd) d) s))

/-- `SHAUPD Sd, Ba` (R193). -/
def execShaupd (rd : SCtx) (ra : BReg) (s : State) : Result := shaUpdateInto rd (getB s ra) s

/-- `SHAUPD.T Sd, Ta` (R194). -/
def execShaupdT (rd : SCtx) (ra : TReg) (s : State) : Result := shaUpdateInto rd (textData s ra) s

/-- `SHAFIN Bd, Sa`: the digest, and the context back to initial (R195). -/
def execShafin (rd : BReg) (ra : SCtx) (s : State) : Result :=
  let r := shaFinal (getS s ra)
  .next (setKrdy (setS ra r.2 (setB rd r.1 s)))

/-- `SHACLONE Sd, Sa` (R196). -/
def execShaclone (rd ra : SCtx) (s : State) : Result := .next (setKrdy (setS rd (shaClone (getS s ra)) s))

end Sys2Proof.Machine
end

