-- ==== Sys2Proof/Machine/System.lean ====
section
/-! DEFINITION. The system and transfer commands: `NOP`, `CLRERR`, `RDSR`, and the loads and stores of the three register
files (spec/40_system_transfer R110 to R118). -/

namespace Sys2Proof.Machine

open Config

/-- `NOP`: nothing (R110). -/
def execNop (s : State) : Result := .next s

/-- `CLRERR`: `FLT <- 0` (R111). -/
def execClrerr (s : State) : Result := .next (clearFault s)

/-- The content of a status register, zero-extended to 64 bits (R40). -/
def srValue (s : State) : SReg → DWord
  | .status => statusWord s
  | .errkind => s.errkind.setWidth 64
  | .errdet => s.errdet.setWidth 64
  | .errcp => s.errcp
  | .cp => s.cp
  | .idr => idrValue
  | .capbits => dword capBits
  | .capcp => dword capCp
  | .slen i => (getS s i).len
  | .splen i => dword (getS s i).pend.length
  | .mstat i => mstatWord (getM s i)

/-- `RDSR Xd, #sr` (R112). -/
def execRdsr (rd : XReg) (sr : SReg) (s : State) : Result := .next (setX rd (srValue s sr) s)

/-- `XLOAD Xd, #v` (R113). -/
def execXload (rd : XReg) (v : DWord) (s : State) : Result := .next (setX rd v s)

/-- `XSTORE Xa`: the high word, then the low word (R114). -/
def execXstore (ra : XReg) (s : State) : Result := .next (respond [hiWord (getX s ra), loWord (getX s ra)] s)

/-- `BLOAD Bd, N:words`: the first `N` bits of the data words; spare bits are ignored (R115). -/
def execBload (rd : BReg) (n : DWord) (data : List Word) (s : State) : Result :=
  if n.toNat > capBits then raise .capacity s
  else .next (setB rd (ofWords n.toNat data) s)

/-- The two length words of a store's response (R93). -/
def lengthWords (n : Nat) : List Word := [hiWord (dword n), loWord (dword n)]

/-- `BSTORE Ba`: the bit length, then the canonical words (R116). -/
def execBstore (ra : BReg) (s : State) : Result :=
  .next (respond (lengthWords (getB s ra).length ++ toWords (getB s ra)) s)

/-- A word that is a Unicode scalar value (R117). -/
def isScalar (w : Word) : Bool := w.toNat ≤ 0x10FFFF && !(0xD800 ≤ w.toNat && w.toNat ≤ 0xDFFF)

/-- `TLOAD Td, text` (R117). -/
def execTload (rd : TReg) (n : DWord) (data : List Word) (s : State) : Result :=
  if n.toNat > capCp then raise .capacity s
  else if data.all isScalar then .next (setT rd (data.map fun w => Char.ofNat w.toNat) s)
  else raise .codepoint s

/-- A code point, zero-extended to a word (R118). -/
def charWord (c : Char) : Word := BitVec.ofNat 32 c.toNat

/-- `TSTORE Ta`: the number of code points, then the code points (R118). -/
def execTstore (ra : TReg) (s : State) : Result :=
  .next (respond (lengthWords (getT s ra).length ++ (getT s ra).map charWord) s)

end Sys2Proof.Machine
end

