-- ==== Sys2Proof/Machine/Dispatch.lean ====
section
/-! DEFINITION. One arm per command form: the call of its meaning. -/

namespace Sys2Proof.Machine

def exec (i : Instr) (s : State) : Host.Outcome State Fault Refusal :=
  match i with
  | .nop => Sys2Proof.Machine.execNop s
  | .clrerr => Sys2Proof.Machine.execClrerr s
  | .rdsr rd sr => Sys2Proof.Machine.execRdsr rd sr s
  | .xload rd v => Sys2Proof.Machine.execXload rd v s
  | .xstore ra => Sys2Proof.Machine.execXstore ra s
  | .bload rd n data => Sys2Proof.Machine.execBload rd n data s
  | .bstore ra => Sys2Proof.Machine.execBstore ra s
  | .tload rd n data => Sys2Proof.Machine.execTload rd n data s
  | .tstore ra => Sys2Proof.Machine.execTstore ra s
  | .blen rd ra => Sys2Proof.Machine.execBlen rd ra s
  | .bslice rd ra rb rc => Sys2Proof.Machine.execBslice rd ra rb rc s
  | .bsliceE rd ra rb => Sys2Proof.Machine.execBsliceE rd ra rb s
  | .bext rd ra rb rc => Sys2Proof.Machine.execBext rd ra rb rc s
  | .bcat rd ra rb => Sys2Proof.Machine.execBcat rd ra rb s
  | .btrunc rd ra rb => Sys2Proof.Machine.execBtrunc rd ra rb s
  | .bmkp rd ra rb shifted => Sys2Proof.Machine.execBmkp rd ra rb shifted s
  | .bgvc rd ra => Sys2Proof.Machine.execBgvc rd ra s
  | .beq rd ra rb => Sys2Proof.Machine.execBeq rd ra rb s
  | .u8enc rd ra => Sys2Proof.Machine.execU8enc rd ra s
  | .u8dec rd ra => Sys2Proof.Machine.execU8dec rd ra s
  | .b64enc rd ra url noPad => Sys2Proof.Machine.execB64enc rd ra url noPad s
  | .b64dec rd ra url => Sys2Proof.Machine.execB64dec rd ra url s
  | .sharst rd => Sys2Proof.Machine.execSharst rd s
  | .shaupd rd ra => Sys2Proof.Machine.execShaupd rd ra s
  | .shaupdT rd ra => Sys2Proof.Machine.execShaupdT rd ra s
  | .shafin rd ra => Sys2Proof.Machine.execShafin rd ra s
  | .shaclone rd ra => Sys2Proof.Machine.execShaclone rd ra s
  | .hmkey rd ra => Sys2Proof.Machine.execHmkey rd ra s
  | .hmupd rd ra => Sys2Proof.Machine.execHmupd rd ra s
  | .hmupdT rd ra => Sys2Proof.Machine.execHmupdT rd ra s
  | .hmdig rd ra => Sys2Proof.Machine.execHmdig rd ra s
  | .hmmac rd ra rb => Sys2Proof.Machine.execHmmac rd ra rb s
  | .hmmacT rd ra rb => Sys2Proof.Machine.execHmmacT rd ra rb s
  | .hmrst rd => Sys2Proof.Machine.execHmrst rd s
  | .pbkdf2 rd ra rb rc re => Sys2Proof.Machine.execPbkdf2 rd ra rb rc re s
  | .pbkdf2Dc rd ra rb re => Sys2Proof.Machine.execPbkdf2Dc rd ra rb re s
  | .derive rd ra rb rc re => Sys2Proof.Machine.execDerive rd ra rb rc re s

end Sys2Proof.Machine
end

