-- ==== Sys2Proof/WellFormed.lean ====
section
/-! DEFINITION. What a well-formed instruction is. Register and status-register numbers are in range by their types;
what is left to check is that a load carries exactly the payload words its header announces (spec/30_encoding R83, R92;
log 11). -/

namespace Sys2Proof

/-- The instruction is one that some words of CIN stand for. -/
def Instr.wf : Instr → Bool
  | .bload _ n data => data.length == (n.toNat + 31) / 32
  | .tload _ n data => data.length == n.toNat
  | .nop | .clrerr | .rdsr _ _ | .xload _ _ | .xstore _ | .bstore _ | .tstore _
  | .blen _ _ | .bslice _ _ _ _ | .bsliceE _ _ _ | .bext _ _ _ _ | .bcat _ _ _ | .btrunc _ _ _
  | .bmkp _ _ _ _ | .bgvc _ _ | .beq _ _ _
  | .u8enc _ _ | .u8dec _ _ | .b64enc _ _ _ _ | .b64dec _ _ _
  | .sharst _ | .shaupd _ _ | .shaupdT _ _ | .shafin _ _ | .shaclone _ _
  | .hmkey _ _ | .hmupd _ _ | .hmupdT _ _ | .hmdig _ _ | .hmmac _ _ _ | .hmmacT _ _ _ | .hmrst _
  | .pbkdf2 _ _ _ _ _ | .pbkdf2Dc _ _ _ _ | .derive _ _ _ _ _ => true

end Sys2Proof
end

