-- ==== Sys2Proof/Decode.lean ====
section
/-! DEFINITION. From words of CIN to instructions and back: command length (spec/30_encoding R83), the three decode
checks in their order (R86), the encoder written from the same table (R89), and the table itself as match and mask. -/

namespace Sys2Proof

open Machine

/-! ## The command word (R81) -/

/-- The seven fields of a command word (R81). -/
structure Fields where
  opc : BitVec 8
  rd  : BitVec 4
  ra  : BitVec 4
  rb  : BitVec 4
  rc  : BitVec 4
  re  : BitVec 4
  fl  : BitVec 4
deriving DecidableEq, Repr

/-- The fields of a word (R81). -/
def fieldsOf (w : Word) : Fields where
  opc := w.extractLsb' 24 8
  rd := w.extractLsb' 20 4
  ra := w.extractLsb' 16 4
  rb := w.extractLsb' 12 4
  rc := w.extractLsb' 8 4
  re := w.extractLsb' 4 4
  fl := w.extractLsb' 0 4

/-- The word with given fields (R81). -/
def packFields (f : Fields) : Word :=
  f.opc.setWidth 32 <<< 24 ||| f.rd.setWidth 32 <<< 20 ||| f.ra.setWidth 32 <<< 16 ||| f.rb.setWidth 32 <<< 12 |||
  f.rc.setWidth 32 <<< 8 ||| f.re.setWidth 32 <<< 4 ||| f.fl.setWidth 32

/-- `IMM8`, the eight bits of `RA` and `RB` together (R81). -/
def imm8 (f : Fields) : BitVec 8 := f.ra.setWidth 8 <<< 4 ||| f.rb.setWidth 8

/-- The one word that acts while the CORE is faulted (R85). -/
def clrerrWord : Word := 0x01000000#32

/-! ## Command length (R83) -/

/-- The 64-bit header of a load, high word first, as a natural number (R83). -/
def headerValue (hi lo : Word) : Nat := (joinWords hi lo).toNat

/-- `cmdlen`: how many words the command at the head of the stream owns; `none` while the words it depends on are not
there. It looks at the opcode and the two header words alone (R83). -/
def cmdlen : List Word → Option Nat
  | [] => none
  | w :: rest =>
    match (fieldsOf w).opc with
    | 0x08#8 => some 3
    | 0x0A#8 =>
      match rest with
      | hi :: lo :: _ => some (3 + ceilDiv (headerValue hi lo) 32)
      | _ => none
    | 0x0C#8 =>
      match rest with
      | hi :: lo :: _ => some (3 + headerValue hi lo)
      | _ => none
    | _ => some 1

/-- The command at the head of the stream, once all its words are there: its word, its payload, and the words after it
(R84). -/
def takeCommand (ws : List Word) : Option (Word × List Word × List Word) :=
  match ws with
  | [] => none
  | w :: rest =>
    match cmdlen ws with
    | none => none
    | some n => if ws.length < n then none else some (w, rest.take (n - 1), ws.drop n)

/-! ## Registers and status registers (R87, R40) -/

/-- A field that indexes the X or the B file: all 16 values are legal (R87). -/
def reg16 (f : BitVec 4) : Fin 16 := f.toFin

/-- A field that indexes the T file or the hash contexts: 0 to 3, else REG_INDEX (R87). -/
def reg4 (f : BitVec 4) : Except FaultCode (Fin 4) :=
  if h : f.toNat < 4 then .ok ⟨f.toNat, h⟩ else .error .regIndex

/-- A field that indexes the HMAC contexts: 0 or 1, else REG_INDEX (R87). -/
def reg2 (f : BitVec 4) : Except FaultCode (Fin 2) :=
  if h : f.toNat < 2 then .ok ⟨f.toNat, h⟩ else .error .regIndex

/-- A data operand of `PBKDF2`: a T register when its flag is set, else a B register (R88). -/
def dataReg (text : Bool) (f : BitVec 4) : Except FaultCode DataReg :=
  if text then (reg4 f).map .text else .ok (.bits (reg16 f))

/-- The status register with a given number; every other number is reserved (R40). -/
def sregOf (n : BitVec 8) : Except FaultCode SReg :=
  match n with
  | 0x00#8 => .ok .status
  | 0x01#8 => .ok .errkind
  | 0x02#8 => .ok .errdet
  | 0x03#8 => .ok .errcp
  | 0x04#8 => .ok .cp
  | 0x05#8 => .ok .idr
  | 0x06#8 => .ok .capbits
  | 0x07#8 => .ok .capcp
  | 0x10#8 => .ok (.slen 0)
  | 0x11#8 => .ok (.slen 1)
  | 0x12#8 => .ok (.slen 2)
  | 0x13#8 => .ok (.slen 3)
  | 0x18#8 => .ok (.splen 0)
  | 0x19#8 => .ok (.splen 1)
  | 0x1A#8 => .ok (.splen 2)
  | 0x1B#8 => .ok (.splen 3)
  | 0x20#8 => .ok (.mstat 0)
  | 0x21#8 => .ok (.mstat 1)
  | _ => .error .reservedSr

/-- The number of a status register (R40). -/
def sregNumber : SReg → BitVec 8
  | .status => 0x00#8
  | .errkind => 0x01#8
  | .errdet => 0x02#8
  | .errcp => 0x03#8
  | .cp => 0x04#8
  | .idr => 0x05#8
  | .capbits => 0x06#8
  | .capcp => 0x07#8
  | .slen i => 0x10#8 + BitVec.ofNat 8 i.val
  | .splen i => 0x18#8 + BitVec.ofNat 8 i.val
  | .mstat i => 0x20#8 + BitVec.ofNat 8 i.val

/-! ## The decoder (R86) -/

/-- Check 2 of R86: fields that the row requires to be zero are zero, else RESERVED_FIELD. -/
def whenZero (zero : Bool) (k : Except FaultCode Instr) : Except FaultCode Instr :=
  if zero then k else .error .reservedField

/-- Check 3 of R86 for one operand: a register number outside its file (or a reserved SR) ends the decoding. -/
def withReg {α : Type} (r : Except FaultCode α) (k : α → Except FaultCode Instr) : Except FaultCode Instr :=
  match r with
  | .ok a => k a
  | .error f => .error f

/-- The two header words of a load's payload, high word first (R92). -/
def payloadHead (p : List Word) : DWord := joinWords (p.getD 0 0) (p.getD 1 0)

/-- The command word's fields and its payload to an instruction, or the first decode check that fails (R86, R89). -/
def decodeFields (f : Fields) (p : List Word) : Except FaultCode Instr :=
  match f.opc with
  | 0x00#8 => whenZero (f.rd == 0 && f.ra == 0 && f.rb == 0 && f.rc == 0 && f.re == 0 && f.fl == 0) <| .ok .nop
  | 0x01#8 => whenZero (f.rd == 0 && f.ra == 0 && f.rb == 0 && f.rc == 0 && f.re == 0 && f.fl == 0) <| .ok .clrerr
  | 0x02#8 => whenZero (f.rc == 0 && f.re == 0 && f.fl == 0) <|
      withReg (sregOf (imm8 f)) fun sr => .ok (.rdsr (reg16 f.rd) sr)
  | 0x08#8 => whenZero (f.ra == 0 && f.rb == 0 && f.rc == 0 && f.re == 0 && f.fl == 0) <|
      .ok (.xload (reg16 f.rd) (payloadHead p))
  | 0x09#8 => whenZero (f.rd == 0 && f.rb == 0 && f.rc == 0 && f.re == 0 && f.fl == 0) <|
      .ok (.xstore (reg16 f.ra))
  | 0x0A#8 => whenZero (f.ra == 0 && f.rb == 0 && f.rc == 0 && f.re == 0 && f.fl == 0) <|
      .ok (.bload (reg16 f.rd) (payloadHead p) (p.drop 2))
  | 0x0B#8 => whenZero (f.rd == 0 && f.rb == 0 && f.rc == 0 && f.re == 0 && f.fl == 0) <|
      .ok (.bstore (reg16 f.ra))
  | 0x0C#8 => whenZero (f.ra == 0 && f.rb == 0 && f.rc == 0 && f.re == 0 && f.fl == 0) <|
      withReg (reg4 f.rd) fun rd => .ok (.tload rd (payloadHead p) (p.drop 2))
  | 0x0D#8 => whenZero (f.rd == 0 && f.rb == 0 && f.rc == 0 && f.re == 0 && f.fl == 0) <|
      withReg (reg4 f.ra) fun ra => .ok (.tstore ra)
  | 0x10#8 => whenZero (f.rb == 0 && f.rc == 0 && f.re == 0 && f.fl == 0) <|
      .ok (.blen (reg16 f.rd) (reg16 f.ra))
  | 0x11#8 =>
      if f.fl == 1 then whenZero (f.rc == 0 && f.re == 0) <| .ok (.bsliceE (reg16 f.rd) (reg16 f.ra) (reg16 f.rb))
      else whenZero (f.re == 0 && f.fl == 0) <| .ok (.bslice (reg16 f.rd) (reg16 f.ra) (reg16 f.rb) (reg16 f.rc))
  | 0x12#8 => whenZero (f.re == 0 && f.fl == 0) <|
      .ok (.bext (reg16 f.rd) (reg16 f.ra) (reg16 f.rb) (reg16 f.rc))
  | 0x13#8 => whenZero (f.rc == 0 && f.re == 0 && f.fl == 0) <|
      .ok (.bcat (reg16 f.rd) (reg16 f.ra) (reg16 f.rb))
  | 0x14#8 => whenZero (f.rc == 0 && f.re == 0 && f.fl == 0) <|
      .ok (.btrunc (reg16 f.rd) (reg16 f.ra) (reg16 f.rb))
  | 0x15#8 => whenZero (f.rc == 0 && f.re == 0 && f.fl.extractLsb' 1 3 == 0) <|
      .ok (.bmkp (reg16 f.rd) (reg16 f.ra) (reg16 f.rb) (f.fl.getLsbD 0))
  | 0x16#8 => whenZero (f.rb == 0 && f.rc == 0 && f.re == 0 && f.fl == 0) <|
      .ok (.bgvc (reg16 f.rd) (reg16 f.ra))
  | 0x17#8 => whenZero (f.rc == 0 && f.re == 0 && f.fl == 0) <|
      .ok (.beq (reg16 f.rd) (reg16 f.ra) (reg16 f.rb))
  | 0x20#8 => whenZero (f.rb == 0 && f.rc == 0 && f.re == 0 && f.fl == 0) <|
      withReg (reg4 f.ra) fun ra => .ok (.u8enc (reg16 f.rd) ra)
  | 0x21#8 => whenZero (f.rb == 0 && f.rc == 0 && f.re == 0 && f.fl == 0) <|
      withReg (reg4 f.rd) fun rd => .ok (.u8dec rd (reg16 f.ra))
  | 0x22#8 => whenZero (f.rb == 0 && f.rc == 0 && f.re == 0 && f.fl.extractLsb' 2 2 == 0) <|
      withReg (reg4 f.rd) fun rd => .ok (.b64enc rd (reg16 f.ra) (f.fl.getLsbD 0) (f.fl.getLsbD 1))
  | 0x23#8 => whenZero (f.rb == 0 && f.rc == 0 && f.re == 0 && f.fl.extractLsb' 1 3 == 0) <|
      withReg (reg4 f.ra) fun ra => .ok (.b64dec (reg16 f.rd) ra (f.fl.getLsbD 0))
  | 0x30#8 => whenZero (f.ra == 0 && f.rb == 0 && f.rc == 0 && f.re == 0 && f.fl == 0) <|
      withReg (reg4 f.rd) fun rd => .ok (.sharst rd)
  | 0x31#8 =>
      if f.fl == 1 then whenZero (f.rb == 0 && f.rc == 0 && f.re == 0) <|
        withReg (reg4 f.rd) fun rd => withReg (reg4 f.ra) fun ra => .ok (.shaupdT rd ra)
      else whenZero (f.rb == 0 && f.rc == 0 && f.re == 0 && f.fl == 0) <|
        withReg (reg4 f.rd) fun rd => .ok (.shaupd rd (reg16 f.ra))
  | 0x32#8 => whenZero (f.rb == 0 && f.rc == 0 && f.re == 0 && f.fl == 0) <|
      withReg (reg4 f.ra) fun ra => .ok (.shafin (reg16 f.rd) ra)
  | 0x33#8 => whenZero (f.rb == 0 && f.rc == 0 && f.re == 0 && f.fl == 0) <|
      withReg (reg4 f.rd) fun rd => withReg (reg4 f.ra) fun ra => .ok (.shaclone rd ra)
  | 0x40#8 => whenZero (f.rb == 0 && f.rc == 0 && f.re == 0 && f.fl == 0) <|
      withReg (reg2 f.rd) fun rd => .ok (.hmkey rd (reg16 f.ra))
  | 0x41#8 =>
      if f.fl == 1 then whenZero (f.rb == 0 && f.rc == 0 && f.re == 0) <|
        withReg (reg2 f.rd) fun rd => withReg (reg4 f.ra) fun ra => .ok (.hmupdT rd ra)
      else whenZero (f.rb == 0 && f.rc == 0 && f.re == 0 && f.fl == 0) <|
        withReg (reg2 f.rd) fun rd => .ok (.hmupd rd (reg16 f.ra))
  | 0x42#8 => whenZero (f.rb == 0 && f.rc == 0 && f.re == 0 && f.fl == 0) <|
      withReg (reg2 f.ra) fun ra => .ok (.hmdig (reg16 f.rd) ra)
  | 0x43#8 =>
      if f.fl == 1 then whenZero (f.rc == 0 && f.re == 0) <|
        withReg (reg2 f.ra) fun ra => withReg (reg4 f.rb) fun rb => .ok (.hmmacT (reg16 f.rd) ra rb)
      else whenZero (f.rc == 0 && f.re == 0 && f.fl == 0) <|
        withReg (reg2 f.ra) fun ra => .ok (.hmmac (reg16 f.rd) ra (reg16 f.rb))
  | 0x44#8 => whenZero (f.ra == 0 && f.rb == 0 && f.rc == 0 && f.re == 0 && f.fl == 0) <|
      withReg (reg2 f.rd) fun rd => .ok (.hmrst rd)
  | 0x50#8 =>
      if f.fl.getLsbD 2 then whenZero (f.rc == 0 && !f.fl.getLsbD 3) <|
        withReg (dataReg (f.fl.getLsbD 0) f.ra) fun ra => withReg (dataReg (f.fl.getLsbD 1) f.rb) fun rb =>
          .ok (.pbkdf2Dc (reg16 f.rd) ra rb (reg16 f.re))
      else whenZero (!f.fl.getLsbD 3) <|
        withReg (dataReg (f.fl.getLsbD 0) f.ra) fun ra => withReg (dataReg (f.fl.getLsbD 1) f.rb) fun rb =>
          .ok (.pbkdf2 (reg16 f.rd) ra rb (reg16 f.rc) (reg16 f.re))
  | 0x51#8 => whenZero (f.fl == 0) <|
      withReg (reg4 f.rd) fun rd => withReg (reg4 f.ra) fun ra => withReg (reg4 f.rb) fun rb =>
        .ok (.derive rd ra rb (reg16 f.rc) (reg16 f.re))
  | _ => .error .illegalOpcode

/-- One command, its word and its payload, to an instruction or a decode fault (R86, R90). -/
def decodeCommand (w : Word) (payload : List Word) : Except FaultCode Instr := decodeFields (fieldsOf w) payload

/-- What the head of a word list is: an instruction, a command that a decode check refuses, or not yet a whole command.
Either of the first two comes with the words after the command. -/
inductive Decoded where
  | instr (i : Instr) (rest : List Word)
  | bad (f : FaultCode) (rest : List Word)
  | incomplete
deriving DecidableEq, Repr

/-- The decoder, total on any list of words (R90). -/
def decode (ws : List Word) : Decoded :=
  match takeCommand ws with
  | none => .incomplete
  | some (w, p, rest) =>
    match decodeCommand w p with
    | .ok i => .instr i rest
    | .error f => .bad f rest

/-! ## The encoder (R89, R92) -/

/-- A register number in its four-bit field (R81). -/
def regField {n : Nat} (r : Fin n) : BitVec 4 := BitVec.ofNat 4 r.val

/-- The register number of a data operand. -/
def dataRegField : DataReg → BitVec 4
  | .bits r => regField r
  | .text r => regField r

/-- The flag of a data operand: is it a text register (R88)? -/
def isText : DataReg → Bool
  | .bits _ => false
  | .text _ => true

/-- Four flag bits, the highest first. -/
def flagBits (f3 f2 f1 f0 : Bool) : BitVec 4 :=
  BitVec.ofNat 4 (f3.toNat * 8 + f2.toNat * 4 + f1.toNat * 2 + f0.toNat)

/-- The command word of an instruction (R89). -/
def encodeFields : Instr → Fields
  | .nop => ⟨0x00, 0, 0, 0, 0, 0, 0⟩
  | .clrerr => ⟨0x01, 0, 0, 0, 0, 0, 0⟩
  | .rdsr rd sr => ⟨0x02, regField rd, (sregNumber sr).extractLsb' 4 4, (sregNumber sr).extractLsb' 0 4, 0, 0, 0⟩
  | .xload rd _ => ⟨0x08, regField rd, 0, 0, 0, 0, 0⟩
  | .xstore ra => ⟨0x09, 0, regField ra, 0, 0, 0, 0⟩
  | .bload rd _ _ => ⟨0x0A, regField rd, 0, 0, 0, 0, 0⟩
  | .bstore ra => ⟨0x0B, 0, regField ra, 0, 0, 0, 0⟩
  | .tload rd _ _ => ⟨0x0C, regField rd, 0, 0, 0, 0, 0⟩
  | .tstore ra => ⟨0x0D, 0, regField ra, 0, 0, 0, 0⟩
  | .blen rd ra => ⟨0x10, regField rd, regField ra, 0, 0, 0, 0⟩
  | .bslice rd ra rb rc => ⟨0x11, regField rd, regField ra, regField rb, regField rc, 0, 0⟩
  | .bsliceE rd ra rb => ⟨0x11, regField rd, regField ra, regField rb, 0, 0, 1⟩
  | .bext rd ra rb rc => ⟨0x12, regField rd, regField ra, regField rb, regField rc, 0, 0⟩
  | .bcat rd ra rb => ⟨0x13, regField rd, regField ra, regField rb, 0, 0, 0⟩
  | .btrunc rd ra rb => ⟨0x14, regField rd, regField ra, regField rb, 0, 0, 0⟩
  | .bmkp rd ra rb shifted => ⟨0x15, regField rd, regField ra, regField rb, 0, 0, flagBits false false false shifted⟩
  | .bgvc rd ra => ⟨0x16, regField rd, regField ra, 0, 0, 0, 0⟩
  | .beq rd ra rb => ⟨0x17, regField rd, regField ra, regField rb, 0, 0, 0⟩
  | .u8enc rd ra => ⟨0x20, regField rd, regField ra, 0, 0, 0, 0⟩
  | .u8dec rd ra => ⟨0x21, regField rd, regField ra, 0, 0, 0, 0⟩
  | .b64enc rd ra url noPad => ⟨0x22, regField rd, regField ra, 0, 0, 0, flagBits false false noPad url⟩
  | .b64dec rd ra url => ⟨0x23, regField rd, regField ra, 0, 0, 0, flagBits false false false url⟩
  | .sharst rd => ⟨0x30, regField rd, 0, 0, 0, 0, 0⟩
  | .shaupd rd ra => ⟨0x31, regField rd, regField ra, 0, 0, 0, 0⟩
  | .shaupdT rd ra => ⟨0x31, regField rd, regField ra, 0, 0, 0, 1⟩
  | .shafin rd ra => ⟨0x32, regField rd, regField ra, 0, 0, 0, 0⟩
  | .shaclone rd ra => ⟨0x33, regField rd, regField ra, 0, 0, 0, 0⟩
  | .hmkey rd ra => ⟨0x40, regField rd, regField ra, 0, 0, 0, 0⟩
  | .hmupd rd ra => ⟨0x41, regField rd, regField ra, 0, 0, 0, 0⟩
  | .hmupdT rd ra => ⟨0x41, regField rd, regField ra, 0, 0, 0, 1⟩
  | .hmdig rd ra => ⟨0x42, regField rd, regField ra, 0, 0, 0, 0⟩
  | .hmmac rd ra rb => ⟨0x43, regField rd, regField ra, regField rb, 0, 0, 0⟩
  | .hmmacT rd ra rb => ⟨0x43, regField rd, regField ra, regField rb, 0, 0, 1⟩
  | .hmrst rd => ⟨0x44, regField rd, 0, 0, 0, 0, 0⟩
  | .pbkdf2 rd ra rb rc re =>
    ⟨0x50, regField rd, dataRegField ra, dataRegField rb, regField rc, regField re,
      flagBits false false (isText rb) (isText ra)⟩
  | .pbkdf2Dc rd ra rb re =>
    ⟨0x50, regField rd, dataRegField ra, dataRegField rb, 0, regField re, flagBits false true (isText rb) (isText ra)⟩
  | .derive rd ra rb rc re => ⟨0x51, regField rd, regField ra, regField rb, regField rc, regField re, 0⟩

/-- The payload words of an instruction: two header words and the data for a load, none otherwise (R92). -/
def encodePayload : Instr → List Word
  | .xload _ v => [hiWord v, loWord v]
  | .bload _ n data | .tload _ n data => hiWord n :: loWord n :: data
  | .nop | .clrerr | .rdsr _ _ | .xstore _ | .bstore _ | .tstore _
  | .blen _ _ | .bslice _ _ _ _ | .bsliceE _ _ _ | .bext _ _ _ _ | .bcat _ _ _ | .btrunc _ _ _
  | .bmkp _ _ _ _ | .bgvc _ _ | .beq _ _ _
  | .u8enc _ _ | .u8dec _ _ | .b64enc _ _ _ _ | .b64dec _ _ _
  | .sharst _ | .shaupd _ _ | .shaupdT _ _ | .shafin _ _ | .shaclone _ _
  | .hmkey _ _ | .hmupd _ _ | .hmupdT _ _ | .hmdig _ _ | .hmmac _ _ _ | .hmmacT _ _ _ | .hmrst _
  | .pbkdf2 _ _ _ _ _ | .pbkdf2Dc _ _ _ _ | .derive _ _ _ _ _ => []

/-- The words of an instruction, as the host writes them to CIN (R80, R89, R92). -/
def encode (i : Instr) : List Word := packFields (encodeFields i) :: encodePayload i

/-! ## The opcode table as match and mask (R89, R86) -/

/-- What a register field of a row indexes (R89); `bitsOrText k` is a B register, or a T register when flag bit `k`
is set. -/
inductive FieldUse where
  | unused
  | x
  | b
  | t
  | s
  | m
  | imm
  | bitsOrText (flag : Nat)
deriving DecidableEq, Repr

/-- One row of R89. -/
structure TableRow where
  mnemonic : String
  value    : Word
  mask     : Word
  rd       : FieldUse
  ra       : FieldUse
  rb       : FieldUse
  rc       : FieldUse
  re       : FieldUse
deriving DecidableEq, Repr

/-- The 37 rows of R89. -/
def opcodeTable : List TableRow :=
  [⟨"NOP", 0x00000000, 0xFFFFFFFF, .unused, .unused, .unused, .unused, .unused⟩,
   ⟨"CLRERR", 0x01000000, 0xFFFFFFFF, .unused, .unused, .unused, .unused, .unused⟩,
   ⟨"RDSR", 0x02000000, 0xFF000FFF, .x, .imm, .imm, .unused, .unused⟩,
   ⟨"XLOAD", 0x08000000, 0xFF0FFFFF, .x, .unused, .unused, .unused, .unused⟩,
   ⟨"XSTORE", 0x09000000, 0xFFF0FFFF, .unused, .x, .unused, .unused, .unused⟩,
   ⟨"BLOAD", 0x0A000000, 0xFF0FFFFF, .b, .unused, .unused, .unused, .unused⟩,
   ⟨"BSTORE", 0x0B000000, 0xFFF0FFFF, .unused, .b, .unused, .unused, .unused⟩,
   ⟨"TLOAD", 0x0C000000, 0xFF0FFFFF, .t, .unused, .unused, .unused, .unused⟩,
   ⟨"TSTORE", 0x0D000000, 0xFFF0FFFF, .unused, .t, .unused, .unused, .unused⟩] ++
  [⟨"BLEN", 0x10000000, 0xFF00FFFF, .x, .b, .unused, .unused, .unused⟩,
   ⟨"BSLICE", 0x11000000, 0xFF0000FF, .b, .b, .x, .x, .unused⟩,
   ⟨"BSLICE.E", 0x11000001, 0xFF000FFF, .b, .b, .x, .unused, .unused⟩,
   ⟨"BEXT", 0x12000000, 0xFF0000FF, .x, .b, .x, .x, .unused⟩,
   ⟨"BCAT", 0x13000000, 0xFF000FFF, .b, .b, .b, .unused, .unused⟩,
   ⟨"BTRUNC", 0x14000000, 0xFF000FFF, .b, .b, .x, .unused, .unused⟩,
   ⟨"BMKP", 0x15000000, 0xFF000FFE, .x, .x, .x, .unused, .unused⟩,
   ⟨"BGVC", 0x16000000, 0xFF00FFFF, .x, .x, .unused, .unused, .unused⟩,
   ⟨"BEQ", 0x17000000, 0xFF000FFF, .x, .b, .b, .unused, .unused⟩] ++
  [⟨"U8ENC", 0x20000000, 0xFF00FFFF, .b, .t, .unused, .unused, .unused⟩,
   ⟨"U8DEC", 0x21000000, 0xFF00FFFF, .t, .b, .unused, .unused, .unused⟩,
   ⟨"B64ENC", 0x22000000, 0xFF00FFFC, .t, .b, .unused, .unused, .unused⟩,
   ⟨"B64DEC", 0x23000000, 0xFF00FFFE, .b, .t, .unused, .unused, .unused⟩,
   ⟨"SHARST", 0x30000000, 0xFF0FFFFF, .s, .unused, .unused, .unused, .unused⟩,
   ⟨"SHAUPD", 0x31000000, 0xFF00FFFF, .s, .b, .unused, .unused, .unused⟩,
   ⟨"SHAUPD.T", 0x31000001, 0xFF00FFFF, .s, .t, .unused, .unused, .unused⟩,
   ⟨"SHAFIN", 0x32000000, 0xFF00FFFF, .b, .s, .unused, .unused, .unused⟩,
   ⟨"SHACLONE", 0x33000000, 0xFF00FFFF, .s, .s, .unused, .unused, .unused⟩] ++
  [⟨"HMKEY", 0x40000000, 0xFF00FFFF, .m, .b, .unused, .unused, .unused⟩,
   ⟨"HMUPD", 0x41000000, 0xFF00FFFF, .m, .b, .unused, .unused, .unused⟩,
   ⟨"HMUPD.T", 0x41000001, 0xFF00FFFF, .m, .t, .unused, .unused, .unused⟩,
   ⟨"HMDIG", 0x42000000, 0xFF00FFFF, .b, .m, .unused, .unused, .unused⟩,
   ⟨"HMMAC", 0x43000000, 0xFF000FFF, .b, .m, .b, .unused, .unused⟩,
   ⟨"HMMAC.T", 0x43000001, 0xFF000FFF, .b, .m, .t, .unused, .unused⟩,
   ⟨"HMRST", 0x44000000, 0xFF0FFFFF, .m, .unused, .unused, .unused, .unused⟩,
   ⟨"PBKDF2", 0x50000000, 0xFF00000C, .b, (.bitsOrText 0), (.bitsOrText 1), .x, .x⟩,
   ⟨"PBKDF2.DC", 0x50000004, 0xFF000F0C, .b, (.bitsOrText 0), (.bitsOrText 1), .unused, .x⟩,
   ⟨"DERIVE", 0x51000000, 0xFF00000F, .t, .t, .t, .x, .x⟩]

/-- A word selects a row of the table (R86). -/
def rowMatches (w : Word) (r : TableRow) : Bool := w &&& r.mask == r.value

/-- A register number of a field is inside the file the row gives it (R87). -/
def fieldInFile (fl : BitVec 4) (u : FieldUse) (f : BitVec 4) : Bool :=
  match u with
  | .unused | .x | .b | .imm => true
  | .t | .s => f.toNat < 4
  | .m => f.toNat < 2
  | .bitsOrText k => !fl.getLsbD k || f.toNat < 4

/-- Every register number of a word is inside its file (R87). -/
def rowInFiles (f : Fields) (r : TableRow) : Bool :=
  fieldInFile f.fl r.rd f.rd && fieldInFile f.fl r.ra f.ra && fieldInFile f.fl r.rb f.rb &&
  fieldInFile f.fl r.rc f.rc && fieldInFile f.fl r.re f.re

/-- A row whose `RA` and `RB` are one field `IMM8` (R81). -/
def rowHasImm (r : TableRow) : Bool := r.ra == .imm

/-- The three decode checks of R86 said over the table: no row has the opcode; no row matches; the matching row's
register or status-register numbers are out of range. `none` when all pass. -/
def tableFault (w : Word) : Option FaultCode :=
  let f := fieldsOf w
  if opcodeTable.all (fun r => (fieldsOf r.value).opc != f.opc) then some .illegalOpcode
  else
    match opcodeTable.find? (rowMatches w) with
    | none => some .reservedField
    | some r =>
      if !rowInFiles f r then some .regIndex
      else if rowHasImm r && (sregOf (imm8 f)).isOk == false then some .reservedSr
      else none

/-- The mnemonic of an instruction's row (R89). -/
def mnemonicOf : Instr → String
  | .nop => "NOP"
  | .clrerr => "CLRERR"
  | .rdsr _ _ => "RDSR"
  | .xload _ _ => "XLOAD"
  | .xstore _ => "XSTORE"
  | .bload _ _ _ => "BLOAD"
  | .bstore _ => "BSTORE"
  | .tload _ _ _ => "TLOAD"
  | .tstore _ => "TSTORE"
  | .blen _ _ => "BLEN"
  | .bslice _ _ _ _ => "BSLICE"
  | .bsliceE _ _ _ => "BSLICE.E"
  | .bext _ _ _ _ => "BEXT"
  | .bcat _ _ _ => "BCAT"
  | .btrunc _ _ _ => "BTRUNC"
  | .bmkp _ _ _ _ => "BMKP"
  | .bgvc _ _ => "BGVC"
  | .beq _ _ _ => "BEQ"
  | .u8enc _ _ => "U8ENC"
  | .u8dec _ _ => "U8DEC"
  | .b64enc _ _ _ _ => "B64ENC"
  | .b64dec _ _ _ => "B64DEC"
  | .sharst _ => "SHARST"
  | .shaupd _ _ => "SHAUPD"
  | .shaupdT _ _ => "SHAUPD.T"
  | .shafin _ _ => "SHAFIN"
  | .shaclone _ _ => "SHACLONE"
  | .hmkey _ _ => "HMKEY"
  | .hmupd _ _ => "HMUPD"
  | .hmupdT _ _ => "HMUPD.T"
  | .hmdig _ _ => "HMDIG"
  | .hmmac _ _ _ => "HMMAC"
  | .hmmacT _ _ _ => "HMMAC.T"
  | .hmrst _ => "HMRST"
  | .pbkdf2 _ _ _ _ _ => "PBKDF2"
  | .pbkdf2Dc _ _ _ _ => "PBKDF2.DC"
  | .derive _ _ _ _ _ => "DERIVE"

/-! ## Words numbered as spec/opcode_table.json numbers them -/

/-- The words of an instruction given as one number, bit 0 the least significant bit of the first word; what the
command owns beyond them is zero words (DESIGN CHOICE, safe: log 2). -/
def tableWords (nbits w : Nat) : List Word :=
  let given := (List.range (ceilDiv nbits 32)).map fun k => BitVec.ofNat 32 ((w % 2 ^ nbits) >>> (32 * k))
  given ++ List.replicate ((cmdlen (given ++ [0, 0])).getD 0 - given.length) 0

/-- The instruction the decoder reads from an instruction whose bits are `w`. -/
def decodeTableWord (nbits w : Nat) : Option Instr :=
  match decode (tableWords nbits w) with
  | .instr i _ => some i
  | .bad _ _ => none
  | .incomplete => none

end Sys2Proof
end

