-- ==== Sys2Proof/Machine/Fetch.lean ====
section
/-! DEFINITION. Fetching the command at the head of CIN (spec/30_encoding R84, R85). `FLT` is tested here and not in `exec`
(DESIGN CHOICE, safe: log 10). -/

namespace Sys2Proof.Machine

/-- What the step finds at the head of CIN. -/
inductive Fetched where
  /-- The command is not all there: the CORE holds (R84, R292). -/
  | hold
  /-- The CORE is faulted and the command is not the exact `CLRERR` word: its `n` words are skipped (R85). -/
  | skip (n : Nat)
  /-- A decode check fails on a command of `n` words (R86). -/
  | reject (f : FaultCode) (n : Nat)
  /-- An instruction of `n` words to perform. -/
  | run (i : Instr) (n : Nat)
deriving DecidableEq, Repr

/-- What stands at the head of CIN (R84); `n` counts the command word and its payload. -/
def fetch (s : State) : Fetched :=
  match takeCommand s.cin with
  | none => .hold
  | some (w, p, _) =>
    let n := p.length + 1
    if s.flt then (if w = clrerrWord then .run .clrerr n else .skip n)
    else
      match decodeCommand w p with
      | .ok i => .run i n
      | .error f => .reject f n

end Sys2Proof.Machine
end

