-- ==== Sys2Proof/Machine/Step.lean ====
section
/-! DEFINITION. One step of the CORE (spec/30_encoding R84), and the placing of an instruction where the step fetches. -/

namespace Sys2Proof.Machine

/-- One step of the CORE (R84). A hold is a step that changes nothing (R292; DEDUCED, safe: log 3). -/
def step (s : State) : Host.Outcome State Fault Refusal :=
  match fetch s with
  | .hold => .next s
  | .skip n => .next (advance n s)
  | .reject f n => .next (advance n (takeFault f s))
  | .run i n => advanceResult n (exec i s)

/-- The instruction whose bits are `w` at the head of CIN, before the words already there; `FLT` is cleared, since a
faulted CORE would skip it (DESIGN CHOICE, safe: log 2). -/
def State.withFetchWord (s : State) (nbits w : Nat) : State :=
  { s with cin := Sys2Proof.tableWords nbits w ++ s.cin, flt := false }

end Sys2Proof.Machine
end

