-- ==== Sys2Proof/Machine/HostMoves.lean ====
section
/-! DEFINITION. The host's moves (spec/20_memory R66), the reset event (spec/70_reset_and_hazards R280, R281) and the
side-band outputs (spec/10_state R48). They are not part of `step`, which is the CORE's own move (DEDUCED, safe for one step: log 5). -/

namespace Sys2Proof.Machine

/-- What the host can do, besides reading the side band (R66). -/
inductive HostMove where
  | append (w : Word)
  | takeResponse
  | assertReset
deriving DecidableEq, Repr

/-- The effect of a host move: CIN grows at its tail, ROUT shrinks at its head, or everything takes its reset value
(R66, R280). R66 gives the removal for the word at the head only; with ROUT empty the model lets it change nothing
(DESIGN CHOICE, unsafe: log 16). -/
def hostMove (mv : HostMove) (s : State) : State :=
  match mv with
  | .append w => { s with cin := s.cin ++ [w] }
  | .takeResponse => { s with rout := s.rout.drop 1 }
  | .assertReset => State.reset

/-- The word the host receives when it takes a response (R66); none with ROUT empty, where the spec is silent (DESIGN
CHOICE, unsafe: log 16). -/
def headResponse (s : State) : Option Word := s.rout.head?

/-- The side-band outputs (R48). -/
structure SideBand where
  fault   : Bool
  errKind : BitVec 3
  errDet  : BitVec 8
  errCp   : DWord
  busy    : Bool
deriving DecidableEq, Repr

/-- The side band as a function of the state; between two steps no command is executing, so `busy_o` is 0 (R48; DEDUCED,
safe: log 6). -/
def sideBand (s : State) : SideBand := ⟨s.flt, s.errkind, s.errdet, s.errcp, false⟩

end Sys2Proof.Machine
end

