-- ==== Sys2Proof/Machine/Pseudo.lean ====
section
/-! DEFINITION. The pseudo-instructions and their expansions (spec/30_encoding R95). They have no encoding of their own. -/

namespace Sys2Proof.Machine

/-- `LI Xd, #v`. -/
def pseudoLi (rd : XReg) (v : DWord) : List Instr := [.xload rd v]

/-- `SHA256 Bd, Ba`; clobbers `S0`. -/
def pseudoSha256 (rd ra : BReg) : List Instr := [.sharst 0, .shaupd 0 ra, .shafin rd 0]

/-- `SHA256.T Bd, Ta`; clobbers `S0`. -/
def pseudoSha256T (rd : BReg) (ra : TReg) : List Instr := [.sharst 0, .shaupdT 0 ra, .shafin rd 0]

/-- `HMAC Bd, Mi, Bk, Bm`. -/
def pseudoHmac (rd : BReg) (ri : MCtx) (rk rm : BReg) : List Instr := [.hmkey ri rk, .hmmac rd ri rm]

/-- `BCOPY Bd, Ba`, with a register `xz` the programmer keeps at 0. -/
def pseudoBcopy (rd ra : BReg) (xz : XReg) : List Instr := [.bsliceE rd ra xz]

/-- Commands performed one after another, as far as their effects on everything but CIN and `CP` go; a command that
raises a fault leaves the rest skipped (R84, R267). -/
def execSeq : List Instr → State → Result
  | [], s => .next s
  | i :: is, s =>
    match exec i s with
    | .next t => if t.flt then .next t else execSeq is t
    | .fault r => .fault r
    | .refused r => .refused r

end Sys2Proof.Machine
end

