-- ==== Sys2Proof/Safety.lean ====
section
/-! DEFINITION. What claims about the CORE are said in: what an instruction may write (spec/10_state R53), which faults it
may raise (spec/60_exceptions R250, R263), and the invariants the spec states of a state between commands (spec/10_state
R22, R23, R31, R38, R43, R46). -/

namespace Sys2Proof.Machine

open Config

/-! ## Writes and frames -/

/-- From `s` to `t`, `X[rd]` becomes `v` and nothing else changes. -/
def WritesX (rd : XReg) (v : DWord) (s t : State) : Prop :=
  getX t rd = v ∧ (∀ j, j ≠ rd → getX t j = getX s j) ∧ t = { s with x := t.x }

/-- From `s` to `t`, `B[rd]` becomes `v` and nothing else changes. -/
def WritesB (rd : BReg) (v : BitString) (s t : State) : Prop :=
  getB t rd = v ∧ (∀ j, j ≠ rd → getB t j = getB s j) ∧ t = { s with b := t.b }

/-- From `s` to `t`, `T[rd]` becomes `v` and nothing else changes. -/
def WritesT (rd : TReg) (v : Text) (s t : State) : Prop :=
  getT t rd = v ∧ (∀ j, j ≠ rd → getT t j = getT s j) ∧ t = { s with t := t.t }

/-- From `s` to `t`, `S[rd]` becomes `c` and nothing else changes. -/
def WritesS (rd : SCtx) (c : HashCtx) (s t : State) : Prop :=
  getS t rd = c ∧ (∀ j, j ≠ rd → getS t j = getS s j) ∧ t = { s with s := t.s }

/-- From `s` to `t`, `M[rd]` becomes `c` and nothing else changes. -/
def WritesM (rd : MCtx) (c : HmacCtx) (s t : State) : Prop :=
  getM t rd = c ∧ (∀ j, j ≠ rd → getM t j = getM s j) ∧ t = { s with m := t.m }

/-- From `s` to `t`, `B[rd]` becomes `v`, `M[ri]` becomes `c`, and nothing else changes. -/
def WritesBM (rd : BReg) (v : BitString) (ri : MCtx) (c : HmacCtx) (s t : State) : Prop :=
  getB t rd = v ∧ (∀ j, j ≠ rd → getB t j = getB s j) ∧ getM t ri = c ∧ (∀ j, j ≠ ri → getM t j = getM s j) ∧
  t = { s with b := t.b, m := t.m }

/-- From `s` to `t`, `B[rd]` becomes `v`, `S[ri]` becomes `c`, and nothing else changes. -/
def WritesBS (rd : BReg) (v : BitString) (ri : SCtx) (c : HashCtx) (s t : State) : Prop :=
  getB t rd = v ∧ (∀ j, j ≠ rd → getB t j = getB s j) ∧ getS t ri = c ∧ (∀ j, j ≠ ri → getS t j = getS s j) ∧
  t = { s with b := t.b, s := t.s }

/-! ## The access table of R53: the columns "w" -/

/-- The X register a command writes (R53, column X). -/
def destX : Instr → Option XReg
  | .rdsr rd _ | .xload rd _ | .blen rd _ | .bext rd _ _ _ | .bmkp rd _ _ _ | .bgvc rd _ | .beq rd _ _ => some rd
  | .nop | .clrerr | .xstore _ | .bload _ _ _ | .bstore _ | .tload _ _ _ | .tstore _
  | .bslice _ _ _ _ | .bsliceE _ _ _ | .bcat _ _ _ | .btrunc _ _ _
  | .u8enc _ _ | .u8dec _ _ | .b64enc _ _ _ _ | .b64dec _ _ _
  | .sharst _ | .shaupd _ _ | .shaupdT _ _ | .shafin _ _ | .shaclone _ _
  | .hmkey _ _ | .hmupd _ _ | .hmupdT _ _ | .hmdig _ _ | .hmmac _ _ _ | .hmmacT _ _ _ | .hmrst _
  | .pbkdf2 _ _ _ _ _ | .pbkdf2Dc _ _ _ _ | .derive _ _ _ _ _ => none

/-- The B register a command writes (R53, column B). -/
def destB : Instr → Option BReg
  | .bload rd _ _ | .bslice rd _ _ _ | .bsliceE rd _ _ | .bcat rd _ _ | .btrunc rd _ _ | .u8enc rd _ | .b64dec rd _ _
  | .shafin rd _ | .hmdig rd _ | .hmmac rd _ _ | .hmmacT rd _ _ | .pbkdf2 rd _ _ _ _ | .pbkdf2Dc rd _ _ _ => some rd
  | .nop | .clrerr | .rdsr _ _ | .xload _ _ | .xstore _ | .bstore _ | .tload _ _ _ | .tstore _
  | .blen _ _ | .bext _ _ _ _ | .bmkp _ _ _ _ | .bgvc _ _ | .beq _ _ _ | .u8dec _ _ | .b64enc _ _ _ _
  | .sharst _ | .shaupd _ _ | .shaupdT _ _ | .shaclone _ _
  | .hmkey _ _ | .hmupd _ _ | .hmupdT _ _ | .hmrst _ | .derive _ _ _ _ _ => none

/-- The T register a command writes (R53, column T). -/
def destT : Instr → Option TReg
  | .tload rd _ _ | .u8dec rd _ | .b64enc rd _ _ _ | .derive rd _ _ _ _ => some rd
  | .nop | .clrerr | .rdsr _ _ | .xload _ _ | .xstore _ | .bload _ _ _ | .bstore _ | .tstore _
  | .blen _ _ | .bslice _ _ _ _ | .bsliceE _ _ _ | .bext _ _ _ _ | .bcat _ _ _ | .btrunc _ _ _
  | .bmkp _ _ _ _ | .bgvc _ _ | .beq _ _ _ | .u8enc _ _ | .b64dec _ _ _
  | .sharst _ | .shaupd _ _ | .shaupdT _ _ | .shafin _ _ | .shaclone _ _
  | .hmkey _ _ | .hmupd _ _ | .hmupdT _ _ | .hmdig _ _ | .hmmac _ _ _ | .hmmacT _ _ _ | .hmrst _
  | .pbkdf2 _ _ _ _ _ | .pbkdf2Dc _ _ _ _ => none

/-- The hash context a command writes (R53, column S). -/
def destS : Instr → Option SCtx
  | .sharst rd | .shaupd rd _ | .shaupdT rd _ | .shafin _ rd | .shaclone rd _ => some rd
  | .nop | .clrerr | .rdsr _ _ | .xload _ _ | .xstore _ | .bload _ _ _ | .bstore _ | .tload _ _ _ | .tstore _
  | .blen _ _ | .bslice _ _ _ _ | .bsliceE _ _ _ | .bext _ _ _ _ | .bcat _ _ _ | .btrunc _ _ _
  | .bmkp _ _ _ _ | .bgvc _ _ | .beq _ _ _ | .u8enc _ _ | .u8dec _ _ | .b64enc _ _ _ _ | .b64dec _ _ _
  | .hmkey _ _ | .hmupd _ _ | .hmupdT _ _ | .hmdig _ _ | .hmmac _ _ _ | .hmmacT _ _ _ | .hmrst _
  | .pbkdf2 _ _ _ _ _ | .pbkdf2Dc _ _ _ _ | .derive _ _ _ _ _ => none

/-- The HMAC context a command writes (R53, column M). -/
def destM : Instr → Option MCtx
  | .hmkey rd _ | .hmupd rd _ | .hmupdT rd _ | .hmdig _ rd | .hmmac _ rd _ | .hmmacT _ rd _ | .hmrst rd => some rd
  | .nop | .clrerr | .rdsr _ _ | .xload _ _ | .xstore _ | .bload _ _ _ | .bstore _ | .tload _ _ _ | .tstore _
  | .blen _ _ | .bslice _ _ _ _ | .bsliceE _ _ _ | .bext _ _ _ _ | .bcat _ _ _ | .btrunc _ _ _
  | .bmkp _ _ _ _ | .bgvc _ _ | .beq _ _ _ | .u8enc _ _ | .u8dec _ _ | .b64enc _ _ _ _ | .b64dec _ _ _
  | .sharst _ | .shaupd _ _ | .shaupdT _ _ | .shafin _ _ | .shaclone _ _
  | .pbkdf2 _ _ _ _ _ | .pbkdf2Dc _ _ _ _ | .derive _ _ _ _ _ => none

/-- A command that writes ROUT (R53, column ROUT). -/
def isStore : Instr → Bool
  | .xstore _ | .bstore _ | .tstore _ => true
  | .nop | .clrerr | .rdsr _ _ | .xload _ _ | .bload _ _ _ | .tload _ _ _
  | .blen _ _ | .bslice _ _ _ _ | .bsliceE _ _ _ | .bext _ _ _ _ | .bcat _ _ _ | .btrunc _ _ _
  | .bmkp _ _ _ _ | .bgvc _ _ | .beq _ _ _ | .u8enc _ _ | .u8dec _ _ | .b64enc _ _ _ _ | .b64dec _ _ _
  | .sharst _ | .shaupd _ _ | .shaupdT _ _ | .shafin _ _ | .shaclone _ _
  | .hmkey _ _ | .hmupd _ _ | .hmupdT _ _ | .hmdig _ _ | .hmmac _ _ _ | .hmmacT _ _ _ | .hmrst _
  | .pbkdf2 _ _ _ _ _ | .pbkdf2Dc _ _ _ _ | .derive _ _ _ _ _ => false

/-- A command of the SHA-256, HMAC or PBKDF2 family, which sets `KRDY` when it retires (R36; R53, column KRDY "w"). -/
def isHashFamily : Instr → Bool
  | .sharst _ | .shaupd _ _ | .shaupdT _ _ | .shafin _ _ | .shaclone _ _
  | .hmkey _ _ | .hmupd _ _ | .hmupdT _ _ | .hmdig _ _ | .hmmac _ _ _ | .hmmacT _ _ _ | .hmrst _
  | .pbkdf2 _ _ _ _ _ | .pbkdf2Dc _ _ _ _ | .derive _ _ _ _ _ => true
  | .nop | .clrerr | .rdsr _ _ | .xload _ _ | .xstore _ | .bload _ _ _ | .bstore _ | .tload _ _ _ | .tstore _
  | .blen _ _ | .bslice _ _ _ _ | .bsliceE _ _ _ | .bext _ _ _ _ | .bcat _ _ _ | .btrunc _ _ _
  | .bmkp _ _ _ _ | .bgvc _ _ | .beq _ _ _ | .u8enc _ _ | .u8dec _ _ | .b64enc _ _ _ _ | .b64dec _ _ _ => false

/-! ## Faults -/

/-- The faults a decoded command can raise, in the order checked (R263; RESERVED_SR and REG_INDEX are raised by the
decoder). -/
def ownFaults : Instr → List FaultCode
  | .bload _ _ _ | .bcat _ _ _ | .u8enc _ _ | .b64enc _ _ _ _ => [.capacity]
  | .tload _ _ _ => [.capacity, .codepoint]
  | .bslice _ _ _ _ | .bsliceE _ _ _ | .bext _ _ _ _ | .btrunc _ _ _ | .bmkp _ _ _ _ | .bgvc _ _ => [.range]
  | .u8dec _ _ => [.notWholeBytes, .utf8Malformed, .capacity]
  | .b64dec _ _ _ => [.b64Char, .b64Dangling, .capacity]
  | .shaupd _ _ | .shaupdT _ _ => [.lenOverflow]
  | .hmupd _ _ | .hmupdT _ _ => [.notKeyed, .lenOverflow]
  | .hmdig _ _ | .hmrst _ => [.notKeyed]
  | .hmmac _ _ _ | .hmmacT _ _ _ => [.notKeyed, .alreadyUpdated, .lenOverflow]
  | .pbkdf2 _ _ _ _ _ | .pbkdf2Dc _ _ _ _ | .derive _ _ _ _ _ => [.negative, .keylen, .capacity]
  | .nop | .clrerr | .rdsr _ _ | .xload _ _ | .xstore _ | .bstore _ | .tstore _ | .blen _ _ | .beq _ _ _
  | .sharst _ | .shafin _ _ | .shaclone _ _ | .hmkey _ _ => []

/-- The `(ERRKIND, ERRDET)` pairs that can be written, as R250 lists them. -/
def faultPairs : List (BitVec 3 × BitVec 8) :=
  [(1, 1), (1, 2), (1, 3), (1, 4), (1, 5), (2, 1), (2, 2), (2, 3), (3, 1), (3, 2),
   (5, 1), (5, 2), (5, 3), (5, 4), (5, 5), (5, 6)]

/-- From `s` to `t` the command of `n` words is consumed and a fault with a listed pair is taken, and nothing else changes
(R266). -/
def TakesFault (n : Nat) (s t : State) : Prop :=
  ∃ k d, (k, d) ∈ faultPairs ∧
    t = { s with flt := true, errkind := k, errdet := d, errcp := s.cp, cin := s.cin.drop n, cp := s.cp + dword n }

/-! ## Invariants of a state between commands -/

/-- A hash context that has been given the bits of `msg`, fewer than `2^64`, since its last reset (R30, R31). -/
def Absorbed (msg : BitString) (c : HashCtx) : Prop := msg.length < 2 ^ 64 ∧ c = shaUpdate shaReset msg

/-- A keyed HMAC context with key `key` that has been given `msg` since it was last fresh (R38): fresh means nothing was
given. -/
def Keyed (key msg : BitString) (c : HmacCtx) : Prop :=
  c.keyed = true ∧ c.ib = (hmacKey key).1 ∧ c.ob = (hmacKey key).2 ∧ 512 + msg.length < 2 ^ 64 ∧
  c.w = shaUpdate c.ib msg ∧ (c.upd = false → msg = [])

/-- What the spec says of every state between two commands. -/
structure Inv (s : State) : Prop where
  /-- No B register holds more than `CAP_BITS` bits (R22). -/
  bitsFit : ∀ r, (getB s r).length ≤ capBits
  /-- No T register holds more than `CAP_CP` code points (R23). -/
  textFits : ∀ r, (getT s r).length ≤ capCp
  /-- Every hash context is what some message of fewer than `2^64` bits leaves (R31). -/
  hashes : ∀ i, ∃ msg, Absorbed msg (getS s i)
  /-- Every HMAC context is as reset leaves it, or keyed (R38). -/
  macs : ∀ i, getM s i = HmacCtx.unkeyed ∨ ∃ key msg, Keyed key msg (getM s i)
  /-- The fault registers hold a listed pair, or zeros when no fault was taken since reset, and while the CORE is faulted
  they describe a fault (R43, R250). -/
  faultCodes : (s.errkind, s.errdet) ∈ faultPairs ∨ (s.errkind = 0 ∧ s.errdet = 0 ∧ s.errcp = 0 ∧ s.flt = false)

/-! ## Standard forms the spec names -/

/-- HMAC-SHA-256 in its standard form, `SHA256((k0 XOR OPAD) ‖ SHA256((k0 XOR IPAD) ‖ d))` (R214). -/
def hmacStandard (key d : BitString) : BitString :=
  sha256 (xorBits (hmacKeyBlock key) opad ++ sha256 (xorBits (hmacKeyBlock key) ipad ++ d))

/-- `U_1, U_2, ...` of a PBKDF2 block: `U_1` is `mac(S ‖ k)`, each next one the MAC of the one before (R232). -/
def pbkdf2U (key salt : BitString) (k : Nat) : Nat → BitString
  | 0 => hmacStandard key (salt ++ be 32 k)
  | i + 1 => hmacStandard key (pbkdf2U key salt k i)

/-- Block `k` of PBKDF2: `U_1 XOR U_2 XOR … XOR U_c`, with `U_1` alone when `c` is 0 (R232). -/
def pbkdf2XorBlock (key salt : BitString) (c k : Nat) : BitString :=
  (List.range (c - 1)).foldl (fun acc i => xorBits acc (pbkdf2U key salt k (i + 1))) (pbkdf2U key salt k 0)

/-- PBKDF2-HMAC-SHA-256: the blocks 1, 2, ... in order, cut to `l` bits (R232, R233). -/
def pbkdf2Standard (key salt : BitString) (c l : Nat) : BitString :=
  ((List.range (max 1 (ceilDiv l 256))).flatMap fun j => pbkdf2XorBlock key salt c (j + 1)).take l

end Sys2Proof.Machine
end

