-- ==== Sys2Proof/Certificates/Slice0/Obligations.lean ====
section
/-! DEFINITION. What is claimed of the CORE, one `Prop` each, from the numbered rules of the spec. No statement rests on a
value the model chose: the spec gives every reset value, and the two open parameters stand as `capBits` and `capCp`. -/

open Sys2Proof Sys2Proof.Machine Sys2Proof.Config

/-! ## Encoding and decoding (spec/30_encoding) -/

/-- R80 to R92: decoding the encoding of any well-formed instruction gives it back, with the words after it. -/
def Obligations.DecodeOfEncode : Prop :=
  ∀ (i : Instr) (rest : List Word), i.wf = true → decode (encode i ++ rest) = .instr i rest

/-- R80 to R92: whatever decodes to an instruction is that instruction's encoding; no bit of it is ignored. -/
def Obligations.EncodeOfDecode : Prop :=
  ∀ (ws : List Word) (i : Instr) (rest : List Word), decode ws = .instr i rest → i.wf = true ∧ encode i ++ rest = ws

/-- R86: the decoder reports exactly the first of the three checks that fails over the table of R89. -/
def Obligations.DecodeFaultsFollowTable : Prop :=
  ∀ (w : Word) (p : List Word) (f : FaultCode), decodeCommand w p = .error f ↔ tableFault w = some f

/-- R86, R89: at most one row matches a word, and a decoded instruction's own row does. -/
def Obligations.DecodedRowIsUnique : Prop :=
  (∀ (w : Word), ∀ r ∈ opcodeTable, ∀ r' ∈ opcodeTable, rowMatches w r = true → rowMatches w r' = true → r = r') ∧
  (∀ (w : Word) (p : List Word) (i : Instr), decodeCommand w p = .ok i →
    ∃ r ∈ opcodeTable, rowMatches w r = true ∧ r.mnemonic = mnemonicOf i)

/-- R90: the illegal opcodes are exactly the listed ranges, one word long; an assigned opcode that matches no row is
RESERVED_FIELD; only the word 0 is a no-op. -/
def Obligations.ReservedEncodings : Prop :=
  ∀ (w : Word) (p : List Word),
    let o := w.toNat / 2 ^ 24
    let unassigned := (0x03 ≤ o ∧ o ≤ 0x07) ∨ o = 0x0E ∨ o = 0x0F ∨ (0x18 ≤ o ∧ o ≤ 0x1F) ∨ (0x24 ≤ o ∧ o ≤ 0x2F) ∨
      (0x34 ≤ o ∧ o ≤ 0x3F) ∨ (0x45 ≤ o ∧ o ≤ 0x4F) ∨ 0x52 ≤ o
    (decodeCommand w p = .error .illegalOpcode ↔ unassigned) ∧
    (unassigned → ∀ rest, cmdlen (w :: rest) = some 1) ∧
    (decodeCommand w p = .error .reservedField ↔ ¬unassigned ∧ ∀ r ∈ opcodeTable, rowMatches w r = false) ∧
    (decodeCommand w p = .ok .nop ↔ w = 0)

/-- R83: the length of a command in words, from its opcode and, for two loads, its header. -/
def Obligations.CommandLength : Prop :=
  ∀ (w hi lo : Word) (rest : List Word),
    let o := w.toNat / 2 ^ 24
    let n := hi.toNat * 2 ^ 32 + lo.toNat
    (o = 0x08 → cmdlen (w :: rest) = some 3) ∧
    (o = 0x0A → cmdlen (w :: hi :: lo :: rest) = some (3 + (n + 31) / 32) ∧
      cmdlen [w] = none ∧ cmdlen [w, hi] = none) ∧
    (o = 0x0C → cmdlen (w :: hi :: lo :: rest) = some (3 + n) ∧ cmdlen [w] = none ∧ cmdlen [w, hi] = none) ∧
    (o ≠ 0x08 → o ≠ 0x0A → o ≠ 0x0C → cmdlen (w :: rest) = some 1)

/-- R89: words written out from the table decode to what they stand for. -/
def Obligations.SampleWordsDecode : Prop :=
  decode [0x02305000] = .instr (.rdsr 3 .idr) [] ∧
  decode [0x11012300] = .instr (.bslice 0 1 2 3) [] ∧
  decode [0x22000003] = .instr (.b64enc 0 0 true true) [] ∧
  decode [0x31120001] = .instr (.shaupdT 1 2) [] ∧
  decode [0x43201000] = .instr (.hmmac 2 0 1) [] ∧
  decode [0x50301057, 0] = .instr (.pbkdf2Dc 3 (.text 0) (.text 1) 5) [0] ∧
  decode [0x0A000000, 0, 0x18, 0x616263FF] = .instr (.bload 0 24 [0x616263FF]) []

/-! ## The step (spec/30_encoding R84, spec/60_exceptions) -/

/-- R84: not faulted, the step performs the decoded instruction, then moves past its words. -/
def Obligations.StepRunsDecoded : Prop :=
  ∀ (s : State) (i : Instr) (rest : List Word), s.flt = false → decode s.cin = .instr i rest →
    step s = advanceResult (s.cin.length - rest.length) (exec i s) ∧
    ∀ t, exec i s = .next t →
      step s = .next { t with cin := rest, cp := s.cp + dword (s.cin.length - rest.length) }

/-- R85, R267, R269: while faulted, a whole command is consumed and nothing else changes, but for `FLT` at the exact word
0x01000000. -/
def Obligations.FaultedStepSkips : Prop :=
  ∀ (s : State) (w : Word) (p rest : List Word), s.flt = true → takeCommand s.cin = some (w, p, rest) →
    step s = .next { s with flt := decide (w ≠ 0x01000000), cin := rest, cp := s.cp + dword (p.length + 1) }

/-- R84, R292, R294: while the words of the command at the head are not all in CIN, the CORE holds and nothing changes. -/
def Obligations.IncompleteHolds : Prop :=
  (∀ ws, decode ws = .incomplete ↔ ∀ n, cmdlen ws = some n → ws.length < n) ∧
  ∀ s : State, decode s.cin = .incomplete → step s = .next s

/-- R266, R267, 93 ("Nothing in the CORE is unpredictable"): every command and every step, from any state, has a next
state. -/
def Obligations.NothingStops : Prop :=
  (∀ (i : Instr) (s : State), ∃ t, exec i s = .next t) ∧ ∀ s : State, ∃ t, step s = .next t

/-- R39, R84: a step either holds and changes nothing, or consumes the command's `cmdlen` words and adds that number to
`CP`; there is no other way to change `CP`. -/
def Obligations.StepMovesPointer : Prop :=
  ∀ s t : State, step s = .next t →
    (decode s.cin = .incomplete ∧ t = s) ∨
    ∃ n, 1 ≤ n ∧ cmdlen s.cin = some n ∧ n ≤ s.cin.length ∧ t.cin = s.cin.drop n ∧ t.cp = s.cp + dword n

/-- R69, R72: a step depends on the words of its own command only; words the host appends behind it change nothing but
what is left in CIN. -/
def Obligations.LaterWordsDoNotMatter : Prop :=
  ∀ (s : State) (extra : List Word), decode s.cin ≠ .incomplete →
    ∃ t, step s = .next t ∧ step { s with cin := s.cin ++ extra } = .next { t with cin := t.cin ++ extra }

/-- R266, R43: a fault, found by the decoder or by the command itself, writes the four fault registers with a listed pair and
the command's own index, consumes the command, and changes nothing else; a step that takes no fault leaves `ERRKIND`,
`ERRDET` and `ERRCP` as they are. -/
def Obligations.FaultEntry : Prop :=
  (∀ (s : State) (f : FaultCode) (rest : List Word), s.flt = false → decode s.cin = .bad f rest →
    step s = .next { takeFault f s with cin := rest, cp := s.cp + dword (s.cin.length - rest.length) }) ∧
  (∀ s t : State, s.flt = false → step s = .next t → t.flt = true →
    ∃ n, cmdlen s.cin = some n ∧ TakesFault n s t) ∧
  ∀ s t : State, step s = .next t → (s.flt = true ∨ t.flt = false) →
    t.errkind = s.errkind ∧ t.errdet = s.errdet ∧ t.errcp = s.errcp

/-- R263: a decoded command that faults takes one of its own row's faults. -/
def Obligations.OwnFaultsOnly : Prop :=
  ∀ (i : Instr) (s t : State), s.flt = false → exec i s = .next t → t.flt = true →
    ∃ f ∈ ownFaults i, t = takeFault f s

/-- R36: `KRDY` is set by the retiring of a hash, HMAC or PBKDF2 command and by nothing else, and no step clears it. -/
def Obligations.KrdyRecordsFirstUse : Prop :=
  ∀ s t : State, step s = .next t →
    (s.krdy = true → t.krdy = true) ∧
    (s.krdy = false → (t.krdy = true ↔ s.flt = false ∧ t.flt = false ∧
      ∃ i rest, decode s.cin = .instr i rest ∧ isHashFamily i = true))

/-- R36, R283: no result of any command depends on `KRDY`, `RDSR` of `STATUS` apart. -/
def Obligations.NothingDependsOnKrdy : Prop :=
  ∀ (s t : State) (k : Bool), step s = .next t →
    (∀ rd rest, decode s.cin ≠ .instr (.rdsr rd .status) rest) →
    ∃ k', step { s with krdy := k } = .next { t with krdy := k' }

/-- R53, R28, R49, R287: the frame of every command. Each register and context but the one its row marks "w" is unchanged,
ROUT but for the stores, `KRDY` but for the hash families, CIN and `CP` by all, and the fault registers but for a fault of
the command's own and `CLRERR`. -/
def Obligations.OnlyListedStateIsWritten : Prop :=
  ∀ (i : Instr) (s t : State), exec i s = .next t →
    (∀ j, destX i ≠ some j → getX t j = getX s j) ∧
    (∀ j, destB i ≠ some j → getB t j = getB s j) ∧
    (∀ j, destT i ≠ some j → getT t j = getT s j) ∧
    (∀ j, destS i ≠ some j → getS t j = getS s j) ∧
    (∀ j, destM i ≠ some j → getM t j = getM s j) ∧
    (isStore i = false → t.rout = s.rout) ∧
    (isHashFamily i = false → t.krdy = s.krdy) ∧
    t.cp = s.cp ∧ t.cin = s.cin ∧
    ((∃ f ∈ ownFaults i, t = takeFault f s) ∨
      (t.errkind = s.errkind ∧ t.errdet = s.errdet ∧ t.errcp = s.errcp ∧ (i ≠ .clrerr → t.flt = s.flt)))

/-- R49, R230: the PBKDF2 commands neither read nor write a hash or an HMAC context. -/
def Obligations.Pbkdf2UsesNoContext : Prop :=
  ∀ (i : Instr) (s t : State) (hs : Vector HashCtx 4) (ms : Vector HmacCtx 2),
    (mnemonicOf i = "PBKDF2" ∨ mnemonicOf i = "PBKDF2.DC" ∨ mnemonicOf i = "DERIVE") → exec i s = .next t →
    exec i { s with s := hs, m := ms } = .next { t with s := hs, m := ms } ∧ t.s = s.s ∧ t.m = s.m

/-- R69, R93, R275: ROUT is only appended to, and only by a store command that retires; a fault or a skipped command writes
nothing. -/
def Obligations.ResponsesOnlyGrow : Prop :=
  ∀ s t : State, step s = .next t →
    ∃ ws, t.rout = s.rout ++ ws ∧
      (ws ≠ [] → s.flt = false ∧ t.flt = false ∧ ∃ i rest, decode s.cin = .instr i rest ∧ isStore i = true)

/-! ## Reset, invariants, the host (spec/10_state, spec/20_memory, spec/70_reset_and_hazards) -/

/-- R51, R280: every piece of state after reset, and the constant status registers. -/
def Obligations.ResetValues : Prop :=
  (∀ j, getX State.reset j = 0) ∧ (∀ j, getB State.reset j = []) ∧ (∀ j, getT State.reset j = []) ∧
  (∀ j, getS State.reset j = ⟨⟨0x6a09e667, 0xbb67ae85, 0x3c6ef372, 0xa54ff53a,
    0x510e527f, 0x9b05688c, 0x1f83d9ab, 0x5be0cd19⟩, [], 0⟩) ∧
  (∀ j, (getM State.reset j).keyed = false ∧ (getM State.reset j).upd = false ∧
    (getM State.reset j).ib = getS State.reset 0 ∧ (getM State.reset j).ob = getS State.reset 0 ∧
    (getM State.reset j).w = getS State.reset 0) ∧
  State.reset.cp = 0 ∧ State.reset.flt = false ∧ State.reset.errkind = 0 ∧ State.reset.errdet = 0 ∧
  State.reset.errcp = 0 ∧ State.reset.krdy = false ∧ State.reset.cin = [] ∧ State.reset.rout = [] ∧
  srValue State.reset .idr = 0x5348413250424B32 ∧ (srValue State.reset .capbits).toNat = capBits ∧
  (srValue State.reset .capcp).toNat = capCp

/-- The state after reset meets the invariant. -/
def Obligations.ResetMeetsInvariant : Prop := Inv State.reset

/-- R22, R23, R31, R38, R43: every step, from any state that meets the invariant, leaves one that meets it. -/
def Obligations.StepKeepsInvariant : Prop :=
  ∀ s t : State, Inv s → step s = .next t → Inv t

/-- R66, R280, R48: what each move of the host does, and that it keeps the invariant; the side band follows the state. That a
removal from an empty ROUT changes nothing is the model's choice (log 16), and so is its reading of `busy_o` (log 6). -/
def Obligations.HostMovesAreAsListed : Prop :=
  (∀ (w : Word) (s : State), hostMove (.append w) s = { s with cin := s.cin ++ [w] }) ∧
  (∀ (s : State), hostMove .takeResponse s = { s with rout := s.rout.tail }) ∧
  (∀ (s : State), hostMove .assertReset s = State.reset) ∧
  (∀ (mv : HostMove) (s : State), Inv s → Inv (hostMove mv s)) ∧
  (∀ (s : State), sideBand s = ⟨s.flt, s.errkind, s.errdet, s.errcp, false⟩)

/-- R31, R38, R46: what the invariant says of the contexts in the spec's own words. -/
def Obligations.InvariantGivesContextRules : Prop :=
  ∀ s : State, Inv s →
    (∀ i, (getS s i).pend.length < 512 ∧ (getS s i).pend.length = (getS s i).len.toNat % 512) ∧
    (∀ i, (getM s i).keyed = true →
      (getM s i).ib.pend = [] ∧ (getM s i).ib.len = 512 ∧ (getM s i).ob.pend = [] ∧ (getM s i).ob.len = 512 ∧
      ((getM s i).upd = false → (getM s i).w = (getM s i).ib)) ∧
    (∀ i, (getM s i).keyed = false → getM s i = HmacCtx.unkeyed) ∧
    (∀ i, mstatWord (getM s i) ≠ 2)

/-! ## System and transfer commands (spec/40_system_transfer) -/

/-- R110 to R112, R40 to R46: `NOP` does nothing; `CLRERR` clears `FLT` and keeps the fault registers; `RDSR` writes the
value of the status register and nothing else. -/
def Obligations.SystemCommands : Prop :=
  (∀ s : State, exec .nop s = .next s ∧ exec .clrerr s = .next { s with flt := false }) ∧
  ∀ (rd : XReg) (sr : SReg) (s : State), ∃ t v, exec (.rdsr rd sr) s = .next t ∧ WritesX rd v s t ∧
    match sr with
    | .status => v.toNat = 2 * s.krdy.toNat + s.flt.toNat
    | .errkind => v.toNat = s.errkind.toNat
    | .errdet => v.toNat = s.errdet.toNat
    | .errcp => v = s.errcp
    | .cp => v = s.cp
    | .idr => v = 0x5348413250424B32
    | .capbits => v.toNat = capBits
    | .capcp => v.toNat = capCp
    | .slen i => v = (getS s i).len
    | .splen i => (getS s i).pend.length < 2 ^ 64 → v.toNat = (getS s i).pend.length
    | .mstat i => v.toNat = 2 * (getM s i).upd.toNat + (getM s i).keyed.toNat

/-- R113, R114: `XLOAD` writes its payload; `XSTORE` appends the high word, then the low word. -/
def Obligations.ScalarTransfers : Prop :=
  (∀ (rd : XReg) (v : DWord) (s : State), ∃ t, exec (.xload rd v) s = .next t ∧ WritesX rd v s t) ∧
  (∀ (ra : XReg) (s : State), ∃ hi lo, exec (.xstore ra) s = .next { s with rout := s.rout ++ [hi, lo] } ∧
    hi.toNat = (getX s ra).toNat / 2 ^ 32 ∧ lo.toNat = (getX s ra).toNat % 2 ^ 32)

/-- R115, R26: `BLOAD` faults CAPACITY above `CAP_BITS`, else bit `i` of the register is bit `31 - i mod 32` of data word
`i div 32`. -/
def Obligations.BitBufferLoad : Prop :=
  ∀ (rd : BReg) (n : DWord) (data : List Word) (s : State), (Instr.bload rd n data).wf = true →
    (capBits < n.toNat → exec (.bload rd n data) s = .next (takeFault .capacity s)) ∧
    (n.toNat ≤ capBits → ∃ t b, exec (.bload rd n data) s = .next t ∧ WritesB rd b s t ∧ b.length = n.toNat ∧
      ∀ i, i < n.toNat → b.getD i false = (data.getD (i / 32) 0).getLsbD (31 - i % 32))

/-- R116: `BSTORE` appends the bit length and the words of the word form. -/
def Obligations.BitBufferStore : Prop :=
  ∀ (ra : BReg) (s : State), ∃ hi lo,
    exec (.bstore ra) s = .next { s with rout := s.rout ++ (hi :: lo :: (wordForm (getB s ra)).words) } ∧
    ((getB s ra).length < 2 ^ 64 → hi.toNat * 2 ^ 32 + lo.toNat = (getB s ra).length)

/-- R117, R118: `TLOAD` faults CAPACITY, then CODEPOINT, else holds one code point per word; `TSTORE` appends the count and
the code points. -/
def Obligations.TextTransfers : Prop :=
  (∀ (rd : TReg) (n : DWord) (data : List Word) (s : State), (Instr.tload rd n data).wf = true →
    (capCp < n.toNat → exec (.tload rd n data) s = .next (takeFault .capacity s)) ∧
    (n.toNat ≤ capCp → (∃ w ∈ data, w.toNat > 0x10FFFF ∨ (0xD800 ≤ w.toNat ∧ w.toNat ≤ 0xDFFF)) →
      exec (.tload rd n data) s = .next (takeFault .codepoint s)) ∧
    (n.toNat ≤ capCp → (∀ w ∈ data, w.toNat ≤ 0x10FFFF ∧ ¬(0xD800 ≤ w.toNat ∧ w.toNat ≤ 0xDFFF)) →
      ∃ t x, exec (.tload rd n data) s = .next t ∧ WritesT rd x s t ∧ x.map Char.toNat = data.map BitVec.toNat)) ∧
  (∀ (ra : TReg) (s : State), ∃ hi lo ws,
    exec (.tstore ra) s = .next { s with rout := s.rout ++ (hi :: lo :: ws) } ∧
    ws.map BitVec.toNat = (getT s ra).map Char.toNat ∧
    ((getT s ra).length < 2 ^ 64 → hi.toNat * 2 ^ 32 + lo.toNat = (getT s ra).length))

/-- R74: what a load took, a store of the same register returns: the same header, the data words with the spare bits of the
last one cleared, the same code points. -/
def Obligations.StoreReturnsLoad : Prop :=
  (∀ (rd : BReg) (n : DWord) (data : List Word) (s : State), (Instr.bload rd n data).wf = true → n.toNat ≤ capBits →
    ∃ t u, exec (.bload rd n data) s = .next t ∧ exec (.bstore rd) t = .next u ∧
      u.rout = s.rout ++ (hiWord n :: loWord n :: (wordTrunc n.toNat data).words)) ∧
  (∀ (rd : TReg) (n : DWord) (data : List Word) (s : State), (Instr.tload rd n data).wf = true → n.toNat ≤ capCp →
    data.all isScalar = true →
    ∃ t u, exec (.tload rd n data) s = .next t ∧ exec (.tstore rd) t = .next u ∧
      u.rout = s.rout ++ (hiWord n :: loWord n :: data))

/-! ## BitBuffer commands (spec/41_bitbuffer, spec/10_state R24 to R27) -/

/-- R24 to R26: the word form has `ceil(len / 32)` words, a last count from 1 to 32, the length of R25, the position mapping
and zero spare bits of R26; two bit strings are equal exactly when their word forms are. -/
def Obligations.WordFormIsCanonical : Prop :=
  ∀ a b : BitString,
    (wordForm a).words.length = (a.length + 31) / 32 ∧
    (a ≠ [] → 1 ≤ (wordForm a).lv ∧ (wordForm a).lv ≤ 32) ∧
    wordFormLen (wordForm a) = a.length ∧
    (∀ i, i < a.length → ((wordForm a).words.getD (i / 32) 0).getLsbD (31 - i % 32) = a.getD i false) ∧
    (∀ j, j < 32 - (wordForm a).lv → ((wordForm a).words.getLastD 0).getLsbD j = false) ∧
    (wordForm a = wordForm b ↔ a = b)

/-- R139: the word-level `concat` with its carry is the bit-level one. -/
def Obligations.WordConcatIsConcat : Prop :=
  ∀ a b : BitString, wordCat (wordForm a) (wordForm b) = wordForm (a ++ b)

/-- R139: the word-level `slice` is the bit-level one. -/
def Obligations.WordSliceIsSlice : Prop :=
  ∀ (a : BitString) (s e : Nat), s ≤ e → e ≤ a.length → wordSlice (wordForm a) s e = wordForm (slice a s e)

/-- R131, R138: `BLEN` and `BEQ`. -/
def Obligations.LengthAndEquality : Prop :=
  (∀ (rd : XReg) (ra : BReg) (s : State), ∃ t v, exec (.blen rd ra) s = .next t ∧ WritesX rd v s t ∧
    ((getB s ra).length < 2 ^ 64 → v.toNat = (getB s ra).length)) ∧
  (∀ (rd : XReg) (ra rb : BReg) (s : State), ∃ t v, exec (.beq rd ra rb) s = .next t ∧ WritesX rd v s t ∧
    (v = 1 ↔ (getB s ra).length = (getB s rb).length ∧ ∀ i, (getB s ra).getD i false = (getB s rb).getD i false) ∧
    (v = 0 ∨ v = 1))

/-- R132: `BSLICE` and `BSLICE.E` fault RANGE unless `0 <= start <= end <= len`, else bit `i` of the result is bit
`start + i` of the source. -/
def Obligations.SliceCommands : Prop :=
  ∀ (rd ra : BReg) (rb rc : XReg) (s : State),
    let st := (getX s rb).toInt
    let en := (getX s rc).toInt
    let len : Int := (getB s ra).length
    (¬(0 ≤ st ∧ st ≤ en ∧ en ≤ len) → exec (.bslice rd ra rb rc) s = .next (takeFault .range s)) ∧
    (0 ≤ st ∧ st ≤ en ∧ en ≤ len → ∃ t b, exec (.bslice rd ra rb rc) s = .next t ∧ WritesB rd b s t ∧
      (b.length : Int) = en - st ∧ ∀ i, i < b.length → b.getD i false = (getB s ra).getD (st.toNat + i) false) ∧
    (¬(0 ≤ st ∧ st ≤ len) → exec (.bsliceE rd ra rb) s = .next (takeFault .range s)) ∧
    (0 ≤ st ∧ st ≤ len → ∃ t b, exec (.bsliceE rd ra rb) s = .next t ∧ WritesB rd b s t ∧
      (b.length : Int) = len - st ∧ ∀ i, i < b.length → b.getD i false = (getB s ra).getD (st.toNat + i) false)

/-- R133: `BEXT` faults RANGE outside its domain, else bit `i` of the result is the bit `n - 1 - i` places into the span,
and the bits from `n` on are zero. -/
def Obligations.ExtractCommand : Prop :=
  ∀ (rd : XReg) (ra : BReg) (rb rc : XReg) (s : State),
    let st := (getX s rb).toInt
    let n := (getX s rc).toInt
    let ok := 0 ≤ n ∧ n ≤ 32 ∧ 0 ≤ st ∧ st + n ≤ ((getB s ra).length : Int)
    (¬ok → exec (.bext rd ra rb rc) s = .next (takeFault .range s)) ∧
    (ok → ∃ t v, exec (.bext rd ra rb rc) s = .next t ∧ WritesX rd v s t ∧
      (∀ i, i < n.toNat → v.getLsbD i = (getB s ra).getD (st.toNat + (n.toNat - 1 - i)) false) ∧
      (∀ i, n.toNat ≤ i → v.getLsbD i = false))

/-- R134, R135: `BCAT` faults CAPACITY or appends; `BTRUNC` faults RANGE on a negative length, or keeps the first `n` bits and
never extends. -/
def Obligations.ConcatAndTruncate : Prop :=
  (∀ (rd ra rb : BReg) (s : State),
    (capBits < (getB s ra).length + (getB s rb).length → exec (.bcat rd ra rb) s = .next (takeFault .capacity s)) ∧
    ((getB s ra).length + (getB s rb).length ≤ capBits →
      ∃ t, exec (.bcat rd ra rb) s = .next t ∧ WritesB rd (getB s ra ++ getB s rb) s t)) ∧
  (∀ (rd ra : BReg) (rb : XReg) (s : State),
    ((getX s rb).toInt < 0 → exec (.btrunc rd ra rb) s = .next (takeFault .range s)) ∧
    (0 ≤ (getX s rb).toInt → ∃ t b, exec (.btrunc rd ra rb) s = .next t ∧ WritesB rd b s t ∧
      (((getB s ra).length : Int) ≤ (getX s rb).toInt → b = getB s ra) ∧
      ((getX s rb).toInt < (getB s ra).length → b = slice (getB s ra) 0 (getX s rb).toInt.toNat)))

/-- R136, R27: `BMKP` faults RANGE on a bad count or a value with a bit outside its field, else packs payload and count. -/
def Obligations.MakePartial : Prop :=
  ∀ (rd ra rb : XReg) (shifted : Bool) (s : State),
    let c := (getX s ra).toNat
    let v := (getX s rb).toNat
    let ok := 1 ≤ c ∧ c ≤ 32 ∧
      if shifted then v < 2 ^ 32 ∧ ∀ i, i < 32 - c → v.testBit i = false else v < 2 ^ c
    (¬ok → exec (.bmkp rd ra rb shifted) s = .next (takeFault .range s)) ∧
    (ok → ∃ t x, exec (.bmkp rd ra rb shifted) s = .next t ∧ WritesX rd x s t ∧
      (x.extractLsb' 0 32).toNat = (if shifted then v else v * 2 ^ (32 - c)) ∧
      (x.extractLsb' 32 5).toNat = c % 32 ∧ x.extractLsb' 37 27 = 0)

/-- R137: `BGVC` faults RANGE when a bit above 36 is set, else gives the count field with 0 read as 32; of a `BMKP` result it
gives the count `BMKP` was given. -/
def Obligations.ValidCount : Prop :=
  (∀ (rd ra : XReg) (s : State),
    (2 ^ 37 ≤ (getX s ra).toNat → exec (.bgvc rd ra) s = .next (takeFault .range s)) ∧
    ((getX s ra).toNat < 2 ^ 37 → ∃ t v, exec (.bgvc rd ra) s = .next t ∧ WritesX rd v s t ∧
      v.toNat = if (getX s ra).toNat / 2 ^ 32 = 0 then 32 else (getX s ra).toNat / 2 ^ 32)) ∧
  (∀ (rd ra rb re : XReg) (shifted : Bool) (s t : State), s.flt = false →
    exec (.bmkp rd ra rb shifted) s = .next t → t.flt = false →
    ∃ u, exec (.bgvc re rd) t = .next u ∧ getX u re = getX s ra)

/-! ## Codecs (spec/42_codecs) -/

/-- R161, R163: the encoder writes each code point in the byte layout of its range, bit for bit, one after the other; the
decoder accepts exactly the image of the encoder: NOT_WHOLE_BYTES for a length that is no multiple of 8, UTF8_MALFORMED for
whole bytes that encode no text, and otherwise the text that encodes to them. -/
def Obligations.Utf8DecoderIsExact : Prop :=
  (utf8Enc [] = [] ∧ ∀ (c : Char) (x : Text), utf8Enc (c :: x) =
    (let n := c.toNat
     let more := fun k => [true, false] ++ be 6 (n / 2 ^ (6 * k))
     if n ≤ 0x7F then [false] ++ be 7 n
     else if n ≤ 0x7FF then [true, true, false] ++ be 5 (n / 2 ^ 6) ++ more 0
     else if n ≤ 0xFFFF then [true, true, true, false] ++ be 4 (n / 2 ^ 12) ++ more 1 ++ more 0
     else [true, true, true, true, false] ++ be 3 (n / 2 ^ 18) ++ more 2 ++ more 1 ++ more 0) ++ utf8Enc x) ∧
  ∀ b : BitString,
    (utf8Dec b = .error .notWholeBytes ↔ b.length % 8 ≠ 0) ∧
    (utf8Dec b = .error .utf8Malformed ↔ b.length % 8 = 0 ∧ ∀ t, utf8Enc t ≠ b) ∧
    ∀ t, utf8Dec b = .ok t ↔ utf8Enc t = b

/-- R165: the character of each value in each alphabet, the pad character, and that a character has the value `v` exactly
when `v` is below 64 and it is the character of `v`. -/
def Obligations.Base64Alphabet : Prop :=
  (∀ (u : Bool) (v : Nat), (b64Char u v).toNat =
    if v < 26 then 0x41 + v else if v < 52 then 0x61 + (v - 26) else if v < 62 then 0x30 + (v - 52)
    else if v = 62 then (if u then 0x2D else 0x2B) else (if u then 0x5F else 0x2F)) ∧
  b64Pad.toNat = 0x3D ∧
  ∀ (u : Bool) (c : Char) (v : Nat), b64Value u c = some v ↔ v < 64 ∧ b64Char u v = c

/-- R170: decoding what the encoder made gives the bits back when they are whole bytes, and for every other length what R170
says, by the length modulo 24. -/
def Obligations.Base64RoundTrip : Prop :=
  ∀ (b : BitString) (u n : Bool),
    let r := b.length % 24
    (b.length % 8 = 0 → b64Dec (b64Enc b u n) u = .ok b) ∧
    (1 ≤ r ∧ r ≤ 6 → b64Dec (b64Enc b u n) u = .error .b64Dangling) ∧
    ((9 ≤ r ∧ r ≤ 12) ∨ (17 ≤ r ∧ r ≤ 18) → b64Dec (b64Enc b u n) u = .ok (b.take (8 * (b.length / 8)))) ∧
    (r = 7 ∨ (13 ≤ r ∧ r ≤ 15) ∨ (19 ≤ r ∧ r ≤ 23) →
      b64Dec (b64Enc b u n) u = .ok (b ++ zeros (8 * ((b.length + 7) / 8) - b.length)))

/-- R162, R164, R167, R169: the codec commands, their faults in the order checked. -/
def Obligations.CodecCommands : Prop :=
  (∀ (rd : BReg) (ra : TReg) (s : State),
    (capBits < (utf8Enc (getT s ra)).length → exec (.u8enc rd ra) s = .next (takeFault .capacity s)) ∧
    ((utf8Enc (getT s ra)).length ≤ capBits →
      ∃ t, exec (.u8enc rd ra) s = .next t ∧ WritesB rd (utf8Enc (getT s ra)) s t)) ∧
  (∀ (rd : TReg) (ra : BReg) (s : State),
    (∀ f, utf8Dec (getB s ra) = .error f → exec (.u8dec rd ra) s = .next (takeFault f s)) ∧
    (∀ x, utf8Dec (getB s ra) = .ok x → capCp < x.length → exec (.u8dec rd ra) s = .next (takeFault .capacity s)) ∧
    (∀ x, utf8Dec (getB s ra) = .ok x → x.length ≤ capCp →
      ∃ t, exec (.u8dec rd ra) s = .next t ∧ WritesT rd x s t)) ∧
  (∀ (rd : TReg) (ra : BReg) (u n : Bool) (s : State),
    let k := ((getB s ra).length + 5) / 6
    let l := if n then k else 4 * ((k + 3) / 4)
    (capCp < l → exec (.b64enc rd ra u n) s = .next (takeFault .capacity s)) ∧
    (l ≤ capCp → ∃ t, exec (.b64enc rd ra u n) s = .next t ∧ WritesT rd (b64Enc (getB s ra) u n) s t ∧
      (getT t rd).length = l)) ∧
  (∀ (rd : BReg) (ra : TReg) (u : Bool) (s : State),
    let q := (getT s ra).filter fun c => !b64Stripped c
    ((∃ c ∈ q, b64Value u c = none) → exec (.b64dec rd ra u) s = .next (takeFault .b64Char s)) ∧
    ((∀ c ∈ q, b64Value u c ≠ none) → q.length % 4 = 1 →
      exec (.b64dec rd ra u) s = .next (takeFault .b64Dangling s)) ∧
    ((∀ c ∈ q, b64Value u c ≠ none) → q.length % 4 ≠ 1 → capBits < 8 * (6 * q.length / 8) →
      exec (.b64dec rd ra u) s = .next (takeFault .capacity s)) ∧
    ((∀ c ∈ q, b64Value u c ≠ none) → q.length % 4 ≠ 1 → 8 * (6 * q.length / 8) ≤ capBits →
      ∃ t b, exec (.b64dec rd ra u) s = .next t ∧ WritesB rd b s t ∧ b64Dec (getT s ra) u = .ok b ∧
        b.length = 8 * (6 * q.length / 8)))

/-! ## SHA-256 (spec/43_sha256, spec/10_state R33 to R35) -/

/-- R33 to R35: the tables are the first 32 fractional bits of the square and cube roots of the first 64 primes. -/
def Obligations.ConstantsAreRoots : Prop :=
  roundConstants.length = 64 ∧ firstPrimes.length = 64 ∧ (∀ p ∈ firstPrimes, Nat.Prime p) ∧
  firstPrimes.Pairwise (· < ·) ∧ (∀ q, Nat.Prime q → q ≤ 311 → q ∈ firstPrimes) ∧
  (∀ i, i < 64 → ∃ q, let r := q * 2 ^ 32 + (roundConstants.getD i 0).toNat
    r ^ 3 ≤ firstPrimes.getD i 0 * 2 ^ 96 ∧ firstPrimes.getD i 0 * 2 ^ 96 < (r + 1) ^ 3) ∧
  (∀ i, i < 8 → ∃ q,
    let h := [initWords.a, initWords.b, initWords.c, initWords.d, initWords.e, initWords.f, initWords.g, initWords.h]
    let r := q * 2 ^ 32 + (h.getD i 0).toNat
    r ^ 2 ≤ firstPrimes.getD i 0 * 2 ^ 64 ∧ firstPrimes.getD i 0 * 2 ^ 64 < (r + 1) ^ 2)

/-- R182: the message schedule, the sixteen words of the block and then the recurrence 2, 7, 15 and 16 back. -/
def Obligations.MessageSchedule : Prop :=
  ∀ blk : BitString, blk.length = 512 →
    let w := schedule ((chunks 32 16 blk).map bitsWord)
    w.length = 64 ∧
    (∀ t, t < 16 → (w.getD t 0).toNat = val (slice blk (32 * t) (32 * t + 32))) ∧
    (∀ t, 16 ≤ t → t < 64 →
      w.getD t 0 = ssig1 (w.getD (t - 2) 0) + w.getD (t - 7) 0 + ssig0 (w.getD (t - 15) 0) + w.getD (t - 16) 0)

/-- R189: the padded buffer `P` is the pending bits, a 1 bit, the least number of zeros that reaches 448 modulo 512, and the
length as two words, high word first; it is one block up to 447 pending bits, else two; the digest is the eight words after
compressing them in order, `H[0]` first; the context becomes initial. -/
def Obligations.FinalRule : Prop :=
  ∀ c : HashCtx, c.pend.length < 512 → ∃ z,
    let p := c.pend ++ [true] ++ zeros z ++ be 32 (c.len.toNat / 2 ^ 32) ++ be 32 (c.len.toNat % 2 ^ 32)
    let hw := if c.pend.length ≤ 447 then compress c.h p else compress (compress c.h (p.take 512)) (p.drop 512)
    (c.pend.length + 1 + z) % 512 = 448 ∧ (∀ z', z' < z → (c.pend.length + 1 + z') % 512 ≠ 448) ∧
    p.length = (if c.pend.length ≤ 447 then 512 else 1024) ∧
    (shaFinal c).1 = [hw.a, hw.b, hw.c, hw.d, hw.e, hw.f, hw.g, hw.h].flatMap (fun w => be 32 w.toNat) ∧
    (shaFinal c).1.length = 256 ∧ (shaFinal c).2 = HashCtx.initial

/-- R197, R188: an update in two pieces, cut anywhere, is the update with their concatenation. -/
def Obligations.UpdateSplits : Prop :=
  (∀ (c : HashCtx) (x y : BitString), shaUpdate (shaUpdate c x) y = shaUpdate c (x ++ y)) ∧
  (∀ x y z : BitString, (shaFinal (shaUpdate (shaUpdate (shaUpdate shaReset x) y) z)).1 = sha256 (x ++ y ++ z))

/-- R192 to R196: the SHA-256 commands, and what they make of the message a context has absorbed. -/
def Obligations.ShaCommands : Prop :=
  (∀ (rd : SCtx) (s : State), ∃ t, exec (.sharst rd) s = .next t ∧ WritesS rd HashCtx.initial (setKrdy s) t) ∧
  (∀ (rd : SCtx) (i : Instr) (d : BitString) (s : State),
    ((∃ ra, i = .shaupd rd ra ∧ d = getB s ra) ∨ (∃ ra, i = .shaupdT rd ra ∧ d = utf8Enc (getT s ra))) →
    (2 ^ 64 ≤ (getS s rd).len.toNat + d.length → exec i s = .next (takeFault .lenOverflow s)) ∧
    ((getS s rd).len.toNat + d.length < 2 ^ 64 → ∃ t, exec i s = .next t ∧
      WritesS rd (shaUpdate (getS s rd) d) (setKrdy s) t ∧
      (getS t rd).len.toNat = (getS s rd).len.toNat + d.length ∧
      ∀ msg, Absorbed msg (getS s rd) → Absorbed (msg ++ d) (getS t rd))) ∧
  (∀ (rd : BReg) (ra : SCtx) (s : State), ∃ t, exec (.shafin rd ra) s = .next t ∧
    WritesBS rd (shaFinal (getS s ra)).1 ra HashCtx.initial (setKrdy s) t ∧
    ∀ msg, Absorbed msg (getS s ra) → getB t rd = sha256 msg) ∧
  (∀ (rd ra : SCtx) (s : State), ∃ t, exec (.shaclone rd ra) s = .next t ∧ WritesS rd (getS s ra) (setKrdy s) t)

/-! ## HMAC (spec/44_hmac) -/

/-- R214: the MAC of a fresh context is the standard HMAC-SHA-256 of the data under the key. -/
def Obligations.MacIsStandard : Prop :=
  ∀ key d : BitString, (hmacMac (hmacKey key).1 (hmacKey key).2 (hmacKey key).1 d).1 = hmacStandard key d

/-- R217, R211, R38: `HMKEY` leaves a fresh context keyed with the register's bits; both bases have consumed one block. -/
def Obligations.HmacKeyCommand : Prop :=
  ∀ (rd : MCtx) (ra : BReg) (s : State), ∃ t c, exec (.hmkey rd ra) s = .next t ∧ WritesM rd c (setKrdy s) t ∧
    c.upd = false ∧ Keyed (getB s ra) [] c ∧ c.w = c.ib ∧
    c.ib.pend = [] ∧ c.ib.len = 512 ∧ c.ob.pend = [] ∧ c.ob.len = 512

/-- R218, R219: `HMUPD` and `HMUPD.T` fault NOT_KEYED, then LEN_OVERFLOW; else the working context absorbs the data, `UPD` is
set and the bases stay. -/
def Obligations.HmacUpdateCommands : Prop :=
  ∀ (rd : MCtx) (i : Instr) (d : BitString) (s : State),
    ((∃ ra, i = .hmupd rd ra ∧ d = getB s ra) ∨ (∃ ra, i = .hmupdT rd ra ∧ d = utf8Enc (getT s ra))) →
    ((getM s rd).keyed = false → exec i s = .next (takeFault .notKeyed s)) ∧
    ((getM s rd).keyed = true → 2 ^ 64 ≤ (getM s rd).w.len.toNat + d.length →
      exec i s = .next (takeFault .lenOverflow s)) ∧
    ((getM s rd).keyed = true → (getM s rd).w.len.toNat + d.length < 2 ^ 64 →
      ∃ t, exec i s = .next t ∧
        WritesM rd { getM s rd with w := shaUpdate (getM s rd).w d, upd := true } (setKrdy s) t ∧
        ∀ key msg, Keyed key msg (getM s rd) → Keyed key (msg ++ d) (getM t rd))

/-- R220, R223: `HMDIG` gives the MAC of everything absorbed, `HMRST` discards it; both fault NOT_KEYED, and both leave the
context fresh with the same key. -/
def Obligations.HmacDigestAndReset : Prop :=
  (∀ (rd : BReg) (ra : MCtx) (s : State),
    ((getM s ra).keyed = false → exec (.hmdig rd ra) s = .next (takeFault .notKeyed s)) ∧
    ((getM s ra).keyed = true → ∃ t mac, exec (.hmdig rd ra) s = .next t ∧
      WritesBM rd mac ra { getM s ra with w := (getM s ra).ib, upd := false } (setKrdy s) t ∧ mac.length = 256 ∧
      ∀ key msg, Keyed key msg (getM s ra) → mac = hmacStandard key msg ∧ Keyed key [] (getM t ra))) ∧
  (∀ (rd : MCtx) (s : State),
    ((getM s rd).keyed = false → exec (.hmrst rd) s = .next (takeFault .notKeyed s)) ∧
    ((getM s rd).keyed = true → ∃ t, exec (.hmrst rd) s = .next t ∧
      WritesM rd { getM s rd with w := (getM s rd).ib, upd := false } (setKrdy s) t ∧
      ∀ key msg, Keyed key msg (getM s rd) → Keyed key [] (getM t rd)))

/-- R221, R222: `HMMAC` and `HMMAC.T` fault NOT_KEYED, ALREADY_UPDATED, LEN_OVERFLOW in this order; else the MAC of the data
under the key, and the context stays fresh. -/
def Obligations.HmacOneShotCommands : Prop :=
  ∀ (rd : BReg) (ra : MCtx) (i : Instr) (d : BitString) (s : State),
    ((∃ rb, i = .hmmac rd ra rb ∧ d = getB s rb) ∨ (∃ rb, i = .hmmacT rd ra rb ∧ d = utf8Enc (getT s rb))) →
    ((getM s ra).keyed = false → exec i s = .next (takeFault .notKeyed s)) ∧
    ((getM s ra).keyed = true → (getM s ra).upd = true → exec i s = .next (takeFault .alreadyUpdated s)) ∧
    ((getM s ra).keyed = true → (getM s ra).upd = false → 2 ^ 64 ≤ (getM s ra).w.len.toNat + d.length →
      exec i s = .next (takeFault .lenOverflow s)) ∧
    ((getM s ra).keyed = true → (getM s ra).upd = false → (getM s ra).w.len.toNat + d.length < 2 ^ 64 →
      ∃ t mac, exec i s = .next t ∧
        WritesBM rd mac ra { getM s ra with w := (getM s ra).ib, upd := false } (setKrdy s) t ∧ mac.length = 256 ∧
        ∀ key msg, Keyed key msg (getM s ra) → mac = hmacStandard key d ∧ Keyed key [] (getM t ra))

/-- R224: on a fresh keyed context, two updates and a digest do exactly what the one-shot command does with the
concatenation. -/
def Obligations.UpdatesThenDigestIsOneShot : Prop :=
  ∀ (s : State) (i : MCtx) (rd ra rb rc : BReg), s.flt = false →
    (getM s i).keyed = true → (getM s i).upd = false → (getM s i).w = (getM s i).ib →
    getB s rc = getB s ra ++ getB s rb → (getM s i).w.len.toNat + (getB s rc).length < 2 ^ 64 →
    ∃ t, execSeq [.hmupd i ra, .hmupd i rb, .hmdig rd i] s = .next t ∧ exec (.hmmac rd i rc) s = .next t

/-! ## PBKDF2 (spec/45_pbkdf2) -/

/-- R232, R233: the derivation is the concatenation of the XOR blocks over standard HMACs, cut to exactly `L` bits; a count
of 0 runs like 1, which is R232's own sentence (log 15). -/
def Obligations.DerivationIsStandard : Prop :=
  ∀ (p salt : BitString) (c l : Nat),
    pbkdf2Derive p salt c l = pbkdf2Standard p salt c l ∧ (pbkdf2Derive p salt c l).length = l

/-- R237: a shorter derivation is the start of a longer one. -/
def Obligations.DerivationPrefixLaw : Prop :=
  ∀ (p salt : BitString) (c l l' : Nat), l ≤ l' → pbkdf2Derive p salt c l = (pbkdf2Derive p salt c l').take l

/-- R234, R235: `PBKDF2` and `PBKDF2.DC` fault NEGATIVE, KEYLEN, CAPACITY in this order; else the derived key of exactly the
asked length. -/
def Obligations.Pbkdf2Commands : Prop :=
  ∀ (rd : BReg) (ra rb : DataReg) (i : Instr) (re : XReg) (c : Int) (s : State),
    ((∃ rc, i = .pbkdf2 rd ra rb rc re ∧ c = (getX s rc).toInt) ∨ (i = .pbkdf2Dc rd ra rb re ∧ c = 1000)) →
    let p := match ra with | .bits r => getB s r | .text r => utf8Enc (getT s r)
    let salt := match rb with | .bits r => getB s r | .text r => utf8Enc (getT s r)
    let l := (getX s re).toInt
    (l < 0 ∨ c < 0 → exec i s = .next (takeFault .negative s)) ∧
    (0 ≤ l → 0 ≤ c → 256 * (2 ^ 32 - 1) < l → exec i s = .next (takeFault .keylen s)) ∧
    (0 ≤ l → 0 ≤ c → l ≤ 256 * (2 ^ 32 - 1) → (capBits : Int) < l → exec i s = .next (takeFault .capacity s)) ∧
    (0 ≤ l → 0 ≤ c → l ≤ 256 * (2 ^ 32 - 1) → l ≤ (capBits : Int) →
      ∃ t, exec i s = .next t ∧ WritesB rd (pbkdf2Standard p salt c.toNat l.toNat) (setKrdy s) t ∧
        ((getB t rd).length : Int) = l)

/-- R236: `DERIVE` faults NEGATIVE, KEYLEN, CAPACITY in this order, with exact products; else the padded standard Base64 of
`8 * n` derived bits, `4 * ceil(n / 3)` characters. -/
def Obligations.DeriveCommand : Prop :=
  ∀ (rd ra rb : TReg) (rc re : XReg) (s : State),
    let c := (getX s rc).toInt
    let n := (getX s re).toInt
    let i := Instr.derive rd ra rb rc re
    (n < 0 ∨ c < 0 → exec i s = .next (takeFault .negative s)) ∧
    (0 ≤ n → 0 ≤ c → 256 * (2 ^ 32 - 1) < 8 * n → exec i s = .next (takeFault .keylen s)) ∧
    (0 ≤ n → 0 ≤ c → 8 * n ≤ 256 * (2 ^ 32 - 1) → capCp < 4 * ((n.toNat + 2) / 3) →
      exec i s = .next (takeFault .capacity s)) ∧
    (0 ≤ n → 0 ≤ c → 8 * n ≤ 256 * (2 ^ 32 - 1) → 4 * ((n.toNat + 2) / 3) ≤ capCp →
      ∃ t, exec i s = .next t ∧
        WritesT rd (b64Enc (pbkdf2Standard (utf8Enc (getT s ra)) (utf8Enc (getT s rb)) c.toNat (8 * n.toNat)) false false)
          (setKrdy s) t ∧
        (getT t rd).length = 4 * ((n.toNat + 2) / 3))

/-! ## Pseudo-instructions (spec/30_encoding R95) -/

/-- R95: the expansions of `SHA256`, `SHA256.T` and `HMAC` leave the digest or the MAC in the destination, and clobber `S0`
(left initial) or `M[i]` (left keyed and fresh) and nothing else. -/
def Obligations.PseudoInstructions : Prop :=
  ∀ (s : State), s.flt = false →
    (∀ rd ra : BReg, (getB s ra).length < 2 ^ 64 →
      ∃ t, execSeq (pseudoSha256 rd ra) s = .next t ∧
        WritesBS rd (sha256 (getB s ra)) 0 HashCtx.initial (setKrdy s) t) ∧
    (∀ (rd : BReg) (ra : TReg), (utf8Enc (getT s ra)).length < 2 ^ 64 →
      ∃ t, execSeq (pseudoSha256T rd ra) s = .next t ∧
        WritesBS rd (sha256 (utf8Enc (getT s ra))) 0 HashCtx.initial (setKrdy s) t) ∧
    (∀ (rd : BReg) (ri : MCtx) (rk rm : BReg), 512 + (getB s rm).length < 2 ^ 64 →
      ∃ t c, execSeq (pseudoHmac rd ri rk rm) s = .next t ∧
        WritesBM rd (hmacStandard (getB s rk) (getB s rm)) ri c (setKrdy s) t ∧
        Keyed (getB s rk) [] c ∧ c.upd = false)
end

