-- ==== Sys2Proof/Laws/Bits.lean ====
section
/-! SUPPORT. Lengths and inverses of the bit-string functions. -/

namespace Sys2Proof.Machine

@[simp] theorem zeros_length (n : Nat) : (zeros n).length = n := by simp [zeros]

@[simp] theorem be_length (n v : Nat) : (be n v).length = n := by
  induction n with
  | zero => rfl
  | succ n ih => simp [be, ih]

@[simp] theorem wordBits_length (w : Word) : (wordBits w).length = 32 := by simp [wordBits]

@[simp] theorem xorBits_length (a b : BitString) : (xorBits a b).length = min a.length b.length := by simp [xorBits]

theorem slice_length {a : BitString} {s e : Nat} (h : e ≤ a.length) : (slice a s e).length = e - s := by
  simp [slice]; omega

@[simp] theorem chunks_length (n k : Nat) (a : BitString) : (chunks n k a).length = k := by
  induction k generalizing a with
  | zero => rfl
  | succ k ih => simp [chunks, ih]

/-- Reading the value of a list one bit longer. -/
theorem val_append_singleton (a : BitString) (x : Bool) : val (a ++ [x]) = 2 * val a + x.toNat := by
  simp [val]

/-- The value with a start value in front. -/
theorem val_foldl (a : BitString) (z : Nat) :
    a.foldl (fun acc x => 2 * acc + x.toNat) z = z * 2 ^ a.length + val a := by
  induction a generalizing z with
  | nil => simp [val]
  | cons x a ih =>
    simp only [List.foldl_cons, List.length_cons, val]
    rw [ih, ih (2 * 0 + x.toNat)]
    ring

theorem val_cons (x : Bool) (a : BitString) : val (x :: a) = x.toNat * 2 ^ a.length + val a := by
  have := val_foldl a (2 * 0 + x.toNat)
  simpa [val] using this

theorem val_lt (a : BitString) : val a < 2 ^ a.length := by
  induction a with
  | nil => simp [val]
  | cons x a ih =>
    rw [val_cons, List.length_cons, pow_succ]
    cases x <;> simp <;> omega

theorem val_append (a b : BitString) : val (a ++ b) = val a * 2 ^ b.length + val b := by
  induction a with
  | nil => simp [val]
  | cons x a ih =>
    rw [List.cons_append, val_cons, val_cons, ih, List.length_append, pow_add]
    ring

/-- `val(be(n, v))` is `v` for `v < 2^n` (R10); in general the low `n` bits. -/
theorem val_be (n v : Nat) : val (be n v) = v % 2 ^ n := by
  induction n with
  | zero => simp [be, val, Nat.mod_one]
  | succ n ih =>
    rw [be, val_cons, ih, be_length, Nat.toNat_testBit, Nat.mod_pow_succ]
    ring

/-- `be` is the inverse of `val` (R10). -/
theorem be_val (a : BitString) : be a.length (val a) = a := by
  induction a with
  | nil => rfl
  | cons x a ih =>
    have hlt := val_lt a
    rw [List.length_cons, be, val_cons]
    congr 1
    · cases x
      · simp [Nat.testBit_lt_two_pow hlt]
      · simp [Nat.testBit_two_pow_add_eq, Nat.testBit_lt_two_pow hlt]
    · have hlow : ∀ (m : Nat), m ≤ a.length → be m (x.toNat * 2 ^ a.length + val a) = be m (val a) := by
        intro m
        induction m with
        | zero => intro _; rfl
        | succ m ihm =>
          intro hm
          rw [be, be, ihm (by omega)]
          congr 1
          cases x
          · simp
          · simp only [Bool.toNat_true, one_mul]
            rw [Nat.testBit_two_pow_add_gt (by omega)]
      rw [hlow _ le_rfl, ih]

/-- A group of 32 bits survives a trip through a word. -/
theorem wordBits_bitsWord {a : BitString} (h : a.length = 32) : wordBits (bitsWord a) = a := by
  have hlt := val_lt a
  have hbe := be_val a
  rw [h] at hlt hbe
  rw [wordBits, bitsWord, BitVec.toNat_ofNat, Nat.mod_eq_of_lt hlt, hbe]

theorem bitsWord_wordBits (w : Word) : bitsWord (wordBits w) = w := by
  apply BitVec.eq_of_toNat_eq
  rw [bitsWord, wordBits, val_be, BitVec.toNat_ofNat, Nat.mod_mod]
  exact Nat.mod_eq_of_lt w.isLt

theorem joinWords_toNat (hi lo : Word) : (joinWords hi lo).toNat = hi.toNat * 2 ^ 32 + lo.toNat := by
  have h1 := hi.isLt
  have h2 := lo.isLt
  have h3 : hi.toNat <<< 32 < 2 ^ 64 := by rw [Nat.shiftLeft_eq]; omega
  rw [joinWords, BitVec.toNat_or, BitVec.toNat_shiftLeft, BitVec.toNat_setWidth, BitVec.toNat_setWidth,
    Nat.mod_eq_of_lt (a := hi.toNat) (by omega), Nat.mod_eq_of_lt (a := lo.toNat) (by omega), Nat.mod_eq_of_lt h3,
    ← Nat.shiftLeft_add_eq_or_of_lt h2, Nat.shiftLeft_eq]

theorem hiWord_toNat (v : DWord) : (hiWord v).toNat = v.toNat / 2 ^ 32 := by
  have h := v.isLt
  rw [hiWord, BitVec.extractLsb'_toNat, Nat.shiftRight_eq_div_pow]
  omega

theorem loWord_toNat (v : DWord) : (loWord v).toNat = v.toNat % 2 ^ 32 := by
  rw [loWord, BitVec.extractLsb'_toNat, Nat.shiftRight_zero]

@[simp] theorem hiWord_joinWords (hi lo : Word) : hiWord (joinWords hi lo) = hi := by
  have h := lo.isLt
  apply BitVec.eq_of_toNat_eq
  rw [hiWord_toNat, joinWords_toNat]
  omega

@[simp] theorem loWord_joinWords (hi lo : Word) : loWord (joinWords hi lo) = lo := by
  have h := lo.isLt
  apply BitVec.eq_of_toNat_eq
  rw [loWord_toNat, joinWords_toNat]
  omega

@[simp] theorem joinWords_hiWord_loWord (v : DWord) : joinWords (hiWord v) (loWord v) = v := by
  apply BitVec.eq_of_toNat_eq
  rw [joinWords_toNat, hiWord_toNat, loWord_toNat]
  omega

end Sys2Proof.Machine
end

