-- ==== Sys2Proof/Laws/Config.lean ====
section
/-! SUPPORT. The ranges of the two open parameters (spec/00_scope R8): all that is known of them. -/

namespace Sys2Proof.Config

theorem capBits_ge : 512 ≤ capBits := by unfold capBits; omega

theorem capBits_lt : capBits < 2 ^ 63 := by
  have h := Nat.mod_lt capBitsChoice (show 2 ^ 63 - 512 > 0 by norm_num)
  exact (Nat.add_lt_add_right h 512).trans_eq (by norm_num)

theorem capCp_ge : 64 ≤ capCp := by unfold capCp; omega

theorem capCp_le : capCp ≤ 2 ^ 58 := by
  have := Nat.mod_lt capCpChoice (show 2 ^ 58 - 63 > 0 by norm_num)
  unfold capCp; omega

end Sys2Proof.Config
end

