-- ==== Sys2Proof/Laws/Decode.lean ====
section
/-! SUPPORT. Fields of a command word, register fields, and what taking a command off the stream answers. -/

namespace Sys2Proof

open Machine

/-! ## Fields -/

/-- The fields of a packed word are the fields packed. -/
@[simp] theorem fieldsOf_packFields (f : Fields) : fieldsOf (packFields f) = f := by
  obtain ⟨opc, rd, ra, rb, rc, re, fl⟩ := f
  simp only [fieldsOf, packFields, Fields.mk.injEq]
  refine ⟨?_, ?_, ?_, ?_, ?_, ?_, ?_⟩ <;>
  · apply BitVec.eq_of_getLsbD_eq
    intro i hi
    interval_cases i <;> simp [BitVec.getLsbD_of_ge]

/-- A word is its fields packed: the seven fields cover it. -/
@[simp] theorem packFields_fieldsOf (w : Word) : packFields (fieldsOf w) = w := by
  apply BitVec.eq_of_getLsbD_eq
  intro i hi
  interval_cases i <;> simp [fieldsOf, packFields, BitVec.getLsbD_of_ge]

/-- `IMM8` of two halves of a number is the number. -/
@[simp] theorem imm8_halves (n : BitVec 8) (opc : BitVec 8) (rd rc re fl : BitVec 4) :
    imm8 ⟨opc, rd, n.extractLsb' 4 4, n.extractLsb' 0 4, rc, re, fl⟩ = n := by
  apply BitVec.eq_of_getLsbD_eq
  intro i hi
  interval_cases i <;> simp [imm8, BitVec.getLsbD_of_ge]

/-! ## Register fields -/

@[simp] theorem reg16_regField (r : Fin 16) : reg16 (regField r) = r := by revert r; decide

@[simp] theorem regField_reg16 (f : BitVec 4) : regField (reg16 f) = f := by revert f; decide

@[simp] theorem reg4_regField (r : Fin 4) : reg4 (regField r) = .ok r := by revert r; decide

@[simp] theorem reg2_regField (r : Fin 2) : reg2 (regField r) = .ok r := by revert r; decide

theorem regField_of_reg4 {f : BitVec 4} {r : Fin 4} (h : reg4 f = .ok r) : regField r = f := by
  revert f r; decide

theorem regField_of_reg2 {f : BitVec 4} {r : Fin 2} (h : reg2 f = .ok r) : regField r = f := by
  revert f r; decide

@[simp] theorem dataReg_dataRegField (r : DataReg) : dataReg (isText r) (dataRegField r) = .ok r := by
  cases r <;> simp [dataReg, isText, dataRegField, Except.map]

theorem dataRegField_of_dataReg {text : Bool} {f : BitVec 4} {r : DataReg} (h : dataReg text f = .ok r) :
    dataRegField r = f ∧ isText r = text := by
  unfold dataReg at h
  split at h
  · cases hr : reg4 f with
    | ok q =>
      rw [hr] at h
      cases h
      exact ⟨regField_of_reg4 hr, by simp_all [isText]⟩
    | error e => rw [hr] at h; cases h
  · cases h
    exact ⟨regField_reg16 f, by simp_all [isText]⟩

@[simp] theorem sregOf_sregNumber (r : SReg) : sregOf (sregNumber r) = .ok r := by
  cases r with
  | slen i => revert i; decide
  | splen i => revert i; decide
  | mstat i => revert i; decide
  | _ => rfl

/-! ## Taking a command off the stream -/

/-- The only way a command is taken: it is all there, and the stream is its word, its payload and the rest. -/
theorem takeCommand_eq_some {ws p rest : List Word} {w : Word} (h : takeCommand ws = some (w, p, rest)) :
    cmdlen ws = some (p.length + 1) ∧ ws = w :: (p ++ rest) := by
  unfold takeCommand at h
  split at h
  · cases h
  · rename_i v tl
    split at h
    · cases h
    · rename_i n hn
      have hpos : 1 ≤ n := by
        simp only [cmdlen] at hn
        split at hn <;> (try split at hn) <;> cases hn <;> omega
      split at h
      · cases h
      · rename_i hlen
        simp only [Option.some.injEq, Prod.mk.injEq] at h
        obtain ⟨rfl, rfl, rfl⟩ := h
        have hl : (tl.take (n - 1)).length = n - 1 := by
          simp only [List.length_cons] at hlen
          simp; omega
        refine ⟨by rw [hn, hl]; congr 1; omega, ?_⟩
        obtain ⟨m, rfl⟩ : ∃ m, n = m + 1 := ⟨n - 1, by omega⟩
        simp

/-- A command that is all there is taken. -/
theorem takeCommand_of_cmdlen {w : Word} {p rest : List Word} (h : cmdlen (w :: (p ++ rest)) = some (p.length + 1)) :
    takeCommand (w :: (p ++ rest)) = some (w, p, rest) := by
  unfold takeCommand
  simp [h]

end Sys2Proof
end

