-- ==== Sys2Proof/Laws/State.lean ====
section
/-! SUPPORT. What each named operation does to each field of the state, one lemma per field and operation, so that no
proof unfolds a record update. -/

namespace Sys2Proof.Machine

variable (s : State)

/-! ### `setX` -/

@[simp] theorem setX_x (i : Fin 16) (v : DWord) : (setX i v s).x = s.x.set i.val v := rfl
@[simp] theorem setX_b (i : Fin 16) (v : DWord) : (setX i v s).b = s.b := rfl
@[simp] theorem setX_t (i : Fin 16) (v : DWord) : (setX i v s).t = s.t := rfl
@[simp] theorem setX_s (i : Fin 16) (v : DWord) : (setX i v s).s = s.s := rfl
@[simp] theorem setX_m (i : Fin 16) (v : DWord) : (setX i v s).m = s.m := rfl
@[simp] theorem setX_cp (i : Fin 16) (v : DWord) : (setX i v s).cp = s.cp := rfl
@[simp] theorem setX_flt (i : Fin 16) (v : DWord) : (setX i v s).flt = s.flt := rfl
@[simp] theorem setX_errkind (i : Fin 16) (v : DWord) : (setX i v s).errkind = s.errkind := rfl
@[simp] theorem setX_errdet (i : Fin 16) (v : DWord) : (setX i v s).errdet = s.errdet := rfl
@[simp] theorem setX_errcp (i : Fin 16) (v : DWord) : (setX i v s).errcp = s.errcp := rfl
@[simp] theorem setX_krdy (i : Fin 16) (v : DWord) : (setX i v s).krdy = s.krdy := rfl
@[simp] theorem setX_cin (i : Fin 16) (v : DWord) : (setX i v s).cin = s.cin := rfl
@[simp] theorem setX_rout (i : Fin 16) (v : DWord) : (setX i v s).rout = s.rout := rfl

@[simp] theorem getB_setX (i : Fin 16) (v : DWord) (j : Fin 16) : getB (setX i v s) j = getB s j := rfl
@[simp] theorem getT_setX (i : Fin 16) (v : DWord) (j : Fin 4) : getT (setX i v s) j = getT s j := rfl
@[simp] theorem getS_setX (i : Fin 16) (v : DWord) (j : Fin 4) : getS (setX i v s) j = getS s j := rfl
@[simp] theorem getM_setX (i : Fin 16) (v : DWord) (j : Fin 2) : getM (setX i v s) j = getM s j := rfl

/-! ### `setB` -/

@[simp] theorem setB_x (i : Fin 16) (v : BitString) : (setB i v s).x = s.x := rfl
@[simp] theorem setB_b (i : Fin 16) (v : BitString) : (setB i v s).b = s.b.set i.val v := rfl
@[simp] theorem setB_t (i : Fin 16) (v : BitString) : (setB i v s).t = s.t := rfl
@[simp] theorem setB_s (i : Fin 16) (v : BitString) : (setB i v s).s = s.s := rfl
@[simp] theorem setB_m (i : Fin 16) (v : BitString) : (setB i v s).m = s.m := rfl
@[simp] theorem setB_cp (i : Fin 16) (v : BitString) : (setB i v s).cp = s.cp := rfl
@[simp] theorem setB_flt (i : Fin 16) (v : BitString) : (setB i v s).flt = s.flt := rfl
@[simp] theorem setB_errkind (i : Fin 16) (v : BitString) : (setB i v s).errkind = s.errkind := rfl
@[simp] theorem setB_errdet (i : Fin 16) (v : BitString) : (setB i v s).errdet = s.errdet := rfl
@[simp] theorem setB_errcp (i : Fin 16) (v : BitString) : (setB i v s).errcp = s.errcp := rfl
@[simp] theorem setB_krdy (i : Fin 16) (v : BitString) : (setB i v s).krdy = s.krdy := rfl
@[simp] theorem setB_cin (i : Fin 16) (v : BitString) : (setB i v s).cin = s.cin := rfl
@[simp] theorem setB_rout (i : Fin 16) (v : BitString) : (setB i v s).rout = s.rout := rfl

@[simp] theorem getX_setB (i : Fin 16) (v : BitString) (j : Fin 16) : getX (setB i v s) j = getX s j := rfl
@[simp] theorem getT_setB (i : Fin 16) (v : BitString) (j : Fin 4) : getT (setB i v s) j = getT s j := rfl
@[simp] theorem getS_setB (i : Fin 16) (v : BitString) (j : Fin 4) : getS (setB i v s) j = getS s j := rfl
@[simp] theorem getM_setB (i : Fin 16) (v : BitString) (j : Fin 2) : getM (setB i v s) j = getM s j := rfl

/-! ### `setT` -/

@[simp] theorem setT_x (i : Fin 4) (v : Text) : (setT i v s).x = s.x := rfl
@[simp] theorem setT_b (i : Fin 4) (v : Text) : (setT i v s).b = s.b := rfl
@[simp] theorem setT_t (i : Fin 4) (v : Text) : (setT i v s).t = s.t.set i.val v := rfl
@[simp] theorem setT_s (i : Fin 4) (v : Text) : (setT i v s).s = s.s := rfl
@[simp] theorem setT_m (i : Fin 4) (v : Text) : (setT i v s).m = s.m := rfl
@[simp] theorem setT_cp (i : Fin 4) (v : Text) : (setT i v s).cp = s.cp := rfl
@[simp] theorem setT_flt (i : Fin 4) (v : Text) : (setT i v s).flt = s.flt := rfl
@[simp] theorem setT_errkind (i : Fin 4) (v : Text) : (setT i v s).errkind = s.errkind := rfl
@[simp] theorem setT_errdet (i : Fin 4) (v : Text) : (setT i v s).errdet = s.errdet := rfl
@[simp] theorem setT_errcp (i : Fin 4) (v : Text) : (setT i v s).errcp = s.errcp := rfl
@[simp] theorem setT_krdy (i : Fin 4) (v : Text) : (setT i v s).krdy = s.krdy := rfl
@[simp] theorem setT_cin (i : Fin 4) (v : Text) : (setT i v s).cin = s.cin := rfl
@[simp] theorem setT_rout (i : Fin 4) (v : Text) : (setT i v s).rout = s.rout := rfl

@[simp] theorem getX_setT (i : Fin 4) (v : Text) (j : Fin 16) : getX (setT i v s) j = getX s j := rfl
@[simp] theorem getB_setT (i : Fin 4) (v : Text) (j : Fin 16) : getB (setT i v s) j = getB s j := rfl
@[simp] theorem getS_setT (i : Fin 4) (v : Text) (j : Fin 4) : getS (setT i v s) j = getS s j := rfl
@[simp] theorem getM_setT (i : Fin 4) (v : Text) (j : Fin 2) : getM (setT i v s) j = getM s j := rfl

/-! ### `setS` -/

@[simp] theorem setS_x (i : Fin 4) (c : HashCtx) : (setS i c s).x = s.x := rfl
@[simp] theorem setS_b (i : Fin 4) (c : HashCtx) : (setS i c s).b = s.b := rfl
@[simp] theorem setS_t (i : Fin 4) (c : HashCtx) : (setS i c s).t = s.t := rfl
@[simp] theorem setS_s (i : Fin 4) (c : HashCtx) : (setS i c s).s = s.s.set i.val c := rfl
@[simp] theorem setS_m (i : Fin 4) (c : HashCtx) : (setS i c s).m = s.m := rfl
@[simp] theorem setS_cp (i : Fin 4) (c : HashCtx) : (setS i c s).cp = s.cp := rfl
@[simp] theorem setS_flt (i : Fin 4) (c : HashCtx) : (setS i c s).flt = s.flt := rfl
@[simp] theorem setS_errkind (i : Fin 4) (c : HashCtx) : (setS i c s).errkind = s.errkind := rfl
@[simp] theorem setS_errdet (i : Fin 4) (c : HashCtx) : (setS i c s).errdet = s.errdet := rfl
@[simp] theorem setS_errcp (i : Fin 4) (c : HashCtx) : (setS i c s).errcp = s.errcp := rfl
@[simp] theorem setS_krdy (i : Fin 4) (c : HashCtx) : (setS i c s).krdy = s.krdy := rfl
@[simp] theorem setS_cin (i : Fin 4) (c : HashCtx) : (setS i c s).cin = s.cin := rfl
@[simp] theorem setS_rout (i : Fin 4) (c : HashCtx) : (setS i c s).rout = s.rout := rfl

@[simp] theorem getX_setS (i : Fin 4) (c : HashCtx) (j : Fin 16) : getX (setS i c s) j = getX s j := rfl
@[simp] theorem getB_setS (i : Fin 4) (c : HashCtx) (j : Fin 16) : getB (setS i c s) j = getB s j := rfl
@[simp] theorem getT_setS (i : Fin 4) (c : HashCtx) (j : Fin 4) : getT (setS i c s) j = getT s j := rfl
@[simp] theorem getM_setS (i : Fin 4) (c : HashCtx) (j : Fin 2) : getM (setS i c s) j = getM s j := rfl

/-! ### `setM` -/

@[simp] theorem setM_x (i : Fin 2) (c : HmacCtx) : (setM i c s).x = s.x := rfl
@[simp] theorem setM_b (i : Fin 2) (c : HmacCtx) : (setM i c s).b = s.b := rfl
@[simp] theorem setM_t (i : Fin 2) (c : HmacCtx) : (setM i c s).t = s.t := rfl
@[simp] theorem setM_s (i : Fin 2) (c : HmacCtx) : (setM i c s).s = s.s := rfl
@[simp] theorem setM_m (i : Fin 2) (c : HmacCtx) : (setM i c s).m = s.m.set i.val c := rfl
@[simp] theorem setM_cp (i : Fin 2) (c : HmacCtx) : (setM i c s).cp = s.cp := rfl
@[simp] theorem setM_flt (i : Fin 2) (c : HmacCtx) : (setM i c s).flt = s.flt := rfl
@[simp] theorem setM_errkind (i : Fin 2) (c : HmacCtx) : (setM i c s).errkind = s.errkind := rfl
@[simp] theorem setM_errdet (i : Fin 2) (c : HmacCtx) : (setM i c s).errdet = s.errdet := rfl
@[simp] theorem setM_errcp (i : Fin 2) (c : HmacCtx) : (setM i c s).errcp = s.errcp := rfl
@[simp] theorem setM_krdy (i : Fin 2) (c : HmacCtx) : (setM i c s).krdy = s.krdy := rfl
@[simp] theorem setM_cin (i : Fin 2) (c : HmacCtx) : (setM i c s).cin = s.cin := rfl
@[simp] theorem setM_rout (i : Fin 2) (c : HmacCtx) : (setM i c s).rout = s.rout := rfl

@[simp] theorem getX_setM (i : Fin 2) (c : HmacCtx) (j : Fin 16) : getX (setM i c s) j = getX s j := rfl
@[simp] theorem getB_setM (i : Fin 2) (c : HmacCtx) (j : Fin 16) : getB (setM i c s) j = getB s j := rfl
@[simp] theorem getT_setM (i : Fin 2) (c : HmacCtx) (j : Fin 4) : getT (setM i c s) j = getT s j := rfl
@[simp] theorem getS_setM (i : Fin 2) (c : HmacCtx) (j : Fin 4) : getS (setM i c s) j = getS s j := rfl

/-! ### `respond` -/

@[simp] theorem respond_x (ws : List Word) : (respond ws s).x = s.x := rfl
@[simp] theorem respond_b (ws : List Word) : (respond ws s).b = s.b := rfl
@[simp] theorem respond_t (ws : List Word) : (respond ws s).t = s.t := rfl
@[simp] theorem respond_s (ws : List Word) : (respond ws s).s = s.s := rfl
@[simp] theorem respond_m (ws : List Word) : (respond ws s).m = s.m := rfl
@[simp] theorem respond_cp (ws : List Word) : (respond ws s).cp = s.cp := rfl
@[simp] theorem respond_flt (ws : List Word) : (respond ws s).flt = s.flt := rfl
@[simp] theorem respond_errkind (ws : List Word) : (respond ws s).errkind = s.errkind := rfl
@[simp] theorem respond_errdet (ws : List Word) : (respond ws s).errdet = s.errdet := rfl
@[simp] theorem respond_errcp (ws : List Word) : (respond ws s).errcp = s.errcp := rfl
@[simp] theorem respond_krdy (ws : List Word) : (respond ws s).krdy = s.krdy := rfl
@[simp] theorem respond_cin (ws : List Word) : (respond ws s).cin = s.cin := rfl
@[simp] theorem respond_rout (ws : List Word) : (respond ws s).rout = s.rout ++ ws := rfl

@[simp] theorem getX_respond (ws : List Word) (j : Fin 16) : getX (respond ws s) j = getX s j := rfl
@[simp] theorem getB_respond (ws : List Word) (j : Fin 16) : getB (respond ws s) j = getB s j := rfl
@[simp] theorem getT_respond (ws : List Word) (j : Fin 4) : getT (respond ws s) j = getT s j := rfl
@[simp] theorem getS_respond (ws : List Word) (j : Fin 4) : getS (respond ws s) j = getS s j := rfl
@[simp] theorem getM_respond (ws : List Word) (j : Fin 2) : getM (respond ws s) j = getM s j := rfl

/-! ### `takeFault` -/

@[simp] theorem takeFault_x (f : FaultCode) : (takeFault f s).x = s.x := rfl
@[simp] theorem takeFault_b (f : FaultCode) : (takeFault f s).b = s.b := rfl
@[simp] theorem takeFault_t (f : FaultCode) : (takeFault f s).t = s.t := rfl
@[simp] theorem takeFault_s (f : FaultCode) : (takeFault f s).s = s.s := rfl
@[simp] theorem takeFault_m (f : FaultCode) : (takeFault f s).m = s.m := rfl
@[simp] theorem takeFault_cp (f : FaultCode) : (takeFault f s).cp = s.cp := rfl
@[simp] theorem takeFault_flt (f : FaultCode) : (takeFault f s).flt = true := rfl
@[simp] theorem takeFault_errkind (f : FaultCode) : (takeFault f s).errkind = kindCode (faultKind f) := rfl
@[simp] theorem takeFault_errdet (f : FaultCode) : (takeFault f s).errdet = detailCode f := rfl
@[simp] theorem takeFault_errcp (f : FaultCode) : (takeFault f s).errcp = s.cp := rfl
@[simp] theorem takeFault_krdy (f : FaultCode) : (takeFault f s).krdy = s.krdy := rfl
@[simp] theorem takeFault_cin (f : FaultCode) : (takeFault f s).cin = s.cin := rfl
@[simp] theorem takeFault_rout (f : FaultCode) : (takeFault f s).rout = s.rout := rfl

@[simp] theorem getX_takeFault (f : FaultCode) (j : Fin 16) : getX (takeFault f s) j = getX s j := rfl
@[simp] theorem getB_takeFault (f : FaultCode) (j : Fin 16) : getB (takeFault f s) j = getB s j := rfl
@[simp] theorem getT_takeFault (f : FaultCode) (j : Fin 4) : getT (takeFault f s) j = getT s j := rfl
@[simp] theorem getS_takeFault (f : FaultCode) (j : Fin 4) : getS (takeFault f s) j = getS s j := rfl
@[simp] theorem getM_takeFault (f : FaultCode) (j : Fin 2) : getM (takeFault f s) j = getM s j := rfl

/-! ### `clearFault` -/

@[simp] theorem clearFault_x : (clearFault s).x = s.x := rfl
@[simp] theorem clearFault_b : (clearFault s).b = s.b := rfl
@[simp] theorem clearFault_t : (clearFault s).t = s.t := rfl
@[simp] theorem clearFault_s : (clearFault s).s = s.s := rfl
@[simp] theorem clearFault_m : (clearFault s).m = s.m := rfl
@[simp] theorem clearFault_cp : (clearFault s).cp = s.cp := rfl
@[simp] theorem clearFault_flt : (clearFault s).flt = false := rfl
@[simp] theorem clearFault_errkind : (clearFault s).errkind = s.errkind := rfl
@[simp] theorem clearFault_errdet : (clearFault s).errdet = s.errdet := rfl
@[simp] theorem clearFault_errcp : (clearFault s).errcp = s.errcp := rfl
@[simp] theorem clearFault_krdy : (clearFault s).krdy = s.krdy := rfl
@[simp] theorem clearFault_cin : (clearFault s).cin = s.cin := rfl
@[simp] theorem clearFault_rout : (clearFault s).rout = s.rout := rfl

@[simp] theorem getX_clearFault (j : Fin 16) : getX (clearFault s) j = getX s j := rfl
@[simp] theorem getB_clearFault (j : Fin 16) : getB (clearFault s) j = getB s j := rfl
@[simp] theorem getT_clearFault (j : Fin 4) : getT (clearFault s) j = getT s j := rfl
@[simp] theorem getS_clearFault (j : Fin 4) : getS (clearFault s) j = getS s j := rfl
@[simp] theorem getM_clearFault (j : Fin 2) : getM (clearFault s) j = getM s j := rfl

/-! ### `setKrdy` -/

@[simp] theorem setKrdy_x : (setKrdy s).x = s.x := rfl
@[simp] theorem setKrdy_b : (setKrdy s).b = s.b := rfl
@[simp] theorem setKrdy_t : (setKrdy s).t = s.t := rfl
@[simp] theorem setKrdy_s : (setKrdy s).s = s.s := rfl
@[simp] theorem setKrdy_m : (setKrdy s).m = s.m := rfl
@[simp] theorem setKrdy_cp : (setKrdy s).cp = s.cp := rfl
@[simp] theorem setKrdy_flt : (setKrdy s).flt = s.flt := rfl
@[simp] theorem setKrdy_errkind : (setKrdy s).errkind = s.errkind := rfl
@[simp] theorem setKrdy_errdet : (setKrdy s).errdet = s.errdet := rfl
@[simp] theorem setKrdy_errcp : (setKrdy s).errcp = s.errcp := rfl
@[simp] theorem setKrdy_krdy : (setKrdy s).krdy = true := rfl
@[simp] theorem setKrdy_cin : (setKrdy s).cin = s.cin := rfl
@[simp] theorem setKrdy_rout : (setKrdy s).rout = s.rout := rfl

@[simp] theorem getX_setKrdy (j : Fin 16) : getX (setKrdy s) j = getX s j := rfl
@[simp] theorem getB_setKrdy (j : Fin 16) : getB (setKrdy s) j = getB s j := rfl
@[simp] theorem getT_setKrdy (j : Fin 4) : getT (setKrdy s) j = getT s j := rfl
@[simp] theorem getS_setKrdy (j : Fin 4) : getS (setKrdy s) j = getS s j := rfl
@[simp] theorem getM_setKrdy (j : Fin 2) : getM (setKrdy s) j = getM s j := rfl

/-! ### `advance` -/

@[simp] theorem advance_x (n : Nat) : (advance n s).x = s.x := rfl
@[simp] theorem advance_b (n : Nat) : (advance n s).b = s.b := rfl
@[simp] theorem advance_t (n : Nat) : (advance n s).t = s.t := rfl
@[simp] theorem advance_s (n : Nat) : (advance n s).s = s.s := rfl
@[simp] theorem advance_m (n : Nat) : (advance n s).m = s.m := rfl
@[simp] theorem advance_cp (n : Nat) : (advance n s).cp = s.cp + dword n := rfl
@[simp] theorem advance_flt (n : Nat) : (advance n s).flt = s.flt := rfl
@[simp] theorem advance_errkind (n : Nat) : (advance n s).errkind = s.errkind := rfl
@[simp] theorem advance_errdet (n : Nat) : (advance n s).errdet = s.errdet := rfl
@[simp] theorem advance_errcp (n : Nat) : (advance n s).errcp = s.errcp := rfl
@[simp] theorem advance_krdy (n : Nat) : (advance n s).krdy = s.krdy := rfl
@[simp] theorem advance_cin (n : Nat) : (advance n s).cin = s.cin.drop n := rfl
@[simp] theorem advance_rout (n : Nat) : (advance n s).rout = s.rout := rfl

@[simp] theorem getX_advance (n : Nat) (j : Fin 16) : getX (advance n s) j = getX s j := rfl
@[simp] theorem getB_advance (n : Nat) (j : Fin 16) : getB (advance n s) j = getB s j := rfl
@[simp] theorem getT_advance (n : Nat) (j : Fin 4) : getT (advance n s) j = getT s j := rfl
@[simp] theorem getS_advance (n : Nat) (j : Fin 4) : getS (advance n s) j = getS s j := rfl
@[simp] theorem getM_advance (n : Nat) (j : Fin 2) : getM (advance n s) j = getM s j := rfl

end Sys2Proof.Machine
end

