-- ==== Sys2Proof/Laws/Ops.lean ====
section
/-! SUPPORT. Register read after write, what a single write changes, and what the result operations answer. -/

namespace Sys2Proof.Machine

/-! ## Read after write -/

@[simp] theorem getX_setX_same (i : Fin 16) (v : DWord) (s : State) : getX (setX i v s) i = v := by
  simp [getX]

theorem getX_setX_ne {i j : Fin 16} (h : j ≠ i) (v : DWord) (s : State) : getX (setX i v s) j = getX s j := by
  simp [getX, Vector.getElem_set_ne, Fin.val_ne_of_ne h.symm]

@[simp] theorem getB_setB_same (i : Fin 16) (v : BitString) (s : State) : getB (setB i v s) i = v := by
  simp [getB]

theorem getB_setB_ne {i j : Fin 16} (h : j ≠ i) (v : BitString) (s : State) : getB (setB i v s) j = getB s j := by
  simp [getB, Vector.getElem_set_ne, Fin.val_ne_of_ne h.symm]

@[simp] theorem getT_setT_same (i : Fin 4) (v : Text) (s : State) : getT (setT i v s) i = v := by
  simp [getT]

theorem getT_setT_ne {i j : Fin 4} (h : j ≠ i) (v : Text) (s : State) : getT (setT i v s) j = getT s j := by
  simp [getT, Vector.getElem_set_ne, Fin.val_ne_of_ne h.symm]

@[simp] theorem getS_setS_same (i : Fin 4) (c : HashCtx) (s : State) : getS (setS i c s) i = c := by
  simp [getS]

theorem getS_setS_ne {i j : Fin 4} (h : j ≠ i) (c : HashCtx) (s : State) : getS (setS i c s) j = getS s j := by
  simp [getS, Vector.getElem_set_ne, Fin.val_ne_of_ne h.symm]

@[simp] theorem getM_setM_same (i : Fin 2) (c : HmacCtx) (s : State) : getM (setM i c s) i = c := by
  simp [getM]

theorem getM_setM_ne {i j : Fin 2} (h : j ≠ i) (c : HmacCtx) (s : State) : getM (setM i c s) j = getM s j := by
  simp [getM, Vector.getElem_set_ne, Fin.val_ne_of_ne h.symm]

/-! ## One write and its frame -/

theorem writesX_setX (rd : XReg) (v : DWord) (s : State) : WritesX rd v s (setX rd v s) :=
  ⟨getX_setX_same .., fun _ h => getX_setX_ne h .., rfl⟩

theorem writesB_setB (rd : BReg) (v : BitString) (s : State) : WritesB rd v s (setB rd v s) :=
  ⟨getB_setB_same .., fun _ h => getB_setB_ne h .., rfl⟩

theorem writesT_setT (rd : TReg) (v : Text) (s : State) : WritesT rd v s (setT rd v s) :=
  ⟨getT_setT_same .., fun _ h => getT_setT_ne h .., rfl⟩

theorem writesS_setS (rd : SCtx) (c : HashCtx) (s : State) : WritesS rd c s (setS rd c s) :=
  ⟨getS_setS_same .., fun _ h => getS_setS_ne h .., rfl⟩

theorem writesM_setM (rd : MCtx) (c : HmacCtx) (s : State) : WritesM rd c s (setM rd c s) :=
  ⟨getM_setM_same .., fun _ h => getM_setM_ne h .., rfl⟩

theorem writesBM_setM_setB (rd : BReg) (v : BitString) (ri : MCtx) (c : HmacCtx) (s : State) :
    WritesBM rd v ri c s (setM ri c (setB rd v s)) :=
  ⟨by simp, fun _ h => by simp [getB_setB_ne h], by simp, fun _ h => by simp [getM_setM_ne h], rfl⟩

theorem writesBS_setS_setB (rd : BReg) (v : BitString) (ri : SCtx) (c : HashCtx) (s : State) :
    WritesBS rd v ri c s (setS ri c (setB rd v s)) :=
  ⟨by simp, fun _ h => by simp [getB_setB_ne h], by simp, fun _ h => by simp [getS_setS_ne h], rfl⟩

/-! ## Faults and results -/

theorem faultPair_mem (f : FaultCode) : (kindCode (faultKind f), detailCode f) ∈ faultPairs := by
  cases f <;> decide

/-- `raise` answers the state with the fault taken, whatever the fault. -/
@[simp] theorem raise_eq (f : FaultCode) (s : State) : raise f s = .next (takeFault f s) := rfl

@[simp] theorem advanceResult_next (n : Nat) (s : State) : advanceResult n (.next s) = .next (advance n s) := rfl

/-- The move past a command answers a next state only after the command does. -/
theorem advanceResult_eq_next {n : Nat} {r : Result} {t : State} (h : advanceResult n r = .next t) :
    ∃ u, r = .next u ∧ t = advance n u := by
  cases r with
  | next u => exact ⟨u, rfl, by simpa using h.symm⟩
  | fault f => cases h
  | refused f => cases h

theorem takesFault_takeFault (f : FaultCode) (n : Nat) (s : State) : TakesFault n s (advance n (takeFault f s)) :=
  ⟨_, _, faultPair_mem f, rfl⟩

/-- No fault of the model exists to end a step in. -/
theorem fault_elim (f : Fault) : False := nomatch f

/-! ## The shared meanings: everything each can answer -/

theorem sliceInto_cases (rd ra : BReg) (st en : Int) (s : State) :
    (0 ≤ st ∧ st ≤ en ∧ en ≤ (getB s ra).length ∧
      sliceInto rd ra st en s = .next (setB rd (slice (getB s ra) st.toNat en.toNat) s)) ∨
    (¬(0 ≤ st ∧ st ≤ en ∧ en ≤ (getB s ra).length) ∧ sliceInto rd ra st en s = .next (takeFault .range s)) := by
  unfold sliceInto; split <;> simp_all

theorem fitB_cases (rd : BReg) (r : BitString) (s : State) :
    (r.length ≤ Config.capBits ∧ fitB rd r s = .next (setB rd r s)) ∨
    (Config.capBits < r.length ∧ fitB rd r s = .next (takeFault .capacity s)) := by
  unfold fitB; split <;> simp_all

theorem fitT_cases (rd : TReg) (r : Text) (s : State) :
    (r.length ≤ Config.capCp ∧ fitT rd r s = .next (setT rd r s)) ∨
    (Config.capCp < r.length ∧ fitT rd r s = .next (takeFault .capacity s)) := by
  unfold fitT; split <;> simp_all

theorem shaUpdateInto_cases (rd : SCtx) (d : BitString) (s : State) :
    (lenOverflows (getS s rd) d = false ∧
      shaUpdateInto rd d s = .next (setKrdy (setS rd (shaUpdate (getS s rd) d) s))) ∨
    (lenOverflows (getS s rd) d = true ∧ shaUpdateInto rd d s = .next (takeFault .lenOverflow s)) := by
  unfold shaUpdateInto; split <;> simp_all

theorem hmacUpdateInto_cases (rd : MCtx) (d : BitString) (s : State) :
    ((getM s rd).keyed = true ∧ lenOverflows (getM s rd).w d = false ∧
      hmacUpdateInto rd d s =
        .next (setKrdy (setM rd { getM s rd with w := hmacUpdate (getM s rd).w d, upd := true } s))) ∨
    ((getM s rd).keyed = false ∧ hmacUpdateInto rd d s = .next (takeFault .notKeyed s)) ∨
    ((getM s rd).keyed = true ∧ lenOverflows (getM s rd).w d = true ∧
      hmacUpdateInto rd d s = .next (takeFault .lenOverflow s)) := by
  unfold hmacUpdateInto
  cases hk : (getM s rd).keyed <;> cases hl : lenOverflows (getM s rd).w d <;> simp [hk, hl]

theorem hmacMacInto_cases (rd : BReg) (ra : MCtx) (d : BitString) (s : State) :
    ((getM s ra).keyed = true ∧ (getM s ra).upd = false ∧ lenOverflows (getM s ra).w d = false ∧
      hmacMacInto rd ra d s =
        .next (setKrdy (setM ra
          { getM s ra with w := (hmacMac (getM s ra).ib (getM s ra).ob (getM s ra).w d).2, upd := false }
          (setB rd (hmacMac (getM s ra).ib (getM s ra).ob (getM s ra).w d).1 s)))) ∨
    ((getM s ra).keyed = false ∧ hmacMacInto rd ra d s = .next (takeFault .notKeyed s)) ∨
    ((getM s ra).keyed = true ∧ (getM s ra).upd = true ∧
      hmacMacInto rd ra d s = .next (takeFault .alreadyUpdated s)) ∨
    ((getM s ra).keyed = true ∧ (getM s ra).upd = false ∧ lenOverflows (getM s ra).w d = true ∧
      hmacMacInto rd ra d s = .next (takeFault .lenOverflow s)) := by
  unfold hmacMacInto
  cases hk : (getM s ra).keyed <;> cases hu : (getM s ra).upd <;> cases hl : lenOverflows (getM s ra).w d <;>
    simp [hk, hu, hl]

theorem pbkdf2Into_cases (rd : BReg) (p salt : BitString) (c l : Int) (s : State) :
    (0 ≤ l ∧ 0 ≤ c ∧ l ≤ maxKeyBits ∧ l ≤ Config.capBits ∧
      pbkdf2Into rd p salt c l s = .next (setKrdy (setB rd (pbkdf2Derive p salt c.toNat l.toNat) s))) ∨
    ((l < 0 ∨ c < 0) ∧ pbkdf2Into rd p salt c l s = .next (takeFault .negative s)) ∨
    (0 ≤ l ∧ 0 ≤ c ∧ maxKeyBits < l ∧ pbkdf2Into rd p salt c l s = .next (takeFault .keylen s)) ∨
    (0 ≤ l ∧ 0 ≤ c ∧ l ≤ maxKeyBits ∧ Config.capBits < l ∧
      pbkdf2Into rd p salt c l s = .next (takeFault .capacity s)) := by
  unfold pbkdf2Into
  split
  · right; left; simp_all
  · split
    · right; right; left; simp_all
    · split <;> simp_all

end Sys2Proof.Machine
end

