-- ==== Sys2Proof/Laws/Exec.lean ====
section
/-! SUPPORT. Everything a command can do to the state: one inversion lemma for `exec`, over all constructors. -/

namespace Sys2Proof.Machine

/-- The loop of `UTF8_DEC` fails in one way only. -/
theorem utf8DecLoop_error {n : Nat} {ys : List Nat} {f : FaultCode} (h : utf8DecLoop n ys = .error f) :
    f = .utf8Malformed := by
  induction n generalizing ys f with
  | zero =>
    cases ys with
    | nil => simp [utf8DecLoop] at h
    | cons y ys => simpa [utf8DecLoop] using h.symm
  | succ n ih =>
    cases ys with
    | nil => simp [utf8DecLoop] at h
    | cons y ys =>
      simp only [utf8DecLoop] at h
      repeat' split at h
      all_goals first
        | (cases h; rfl)
        | (rename_i k _ _ _ _ _ _ _ _
           cases hk : utf8DecLoop n (ys.drop k) with
           | error e => rw [hk] at h; cases h; exact ih hk
           | ok v => rw [hk] at h; cases h)

theorem utf8Dec_error {a : BitString} {f : FaultCode} (h : utf8Dec a = .error f) :
    f = .notWholeBytes ∨ f = .utf8Malformed := by
  unfold utf8Dec at h
  split at h
  · cases h; exact .inl rfl
  · exact .inr (utf8DecLoop_error h)

theorem b64Dec_error {t : Text} {u : Bool} {f : FaultCode} (h : b64Dec t u = .error f) :
    f = .b64Char ∨ f = .b64Dangling := by
  simp only [b64Dec] at h
  repeat' split at h
  all_goals cases h
  all_goals simp

/-- From `s` to `t` a retired command set `KRDY` if it belongs to a hash family, and did nothing else. -/
def retire (i : Instr) (s : State) : State := if isHashFamily i then setKrdy s else s

/-- A command that answers a next state took one of its own faults, or made exactly the writes R53 lists for it, or only
appended to ROUT, or is `NOP` or `CLRERR`. -/
theorem exec_cases {i : Instr} {s t : State} (h : exec i s = .next t) :
    (∃ f ∈ ownFaults i, t = takeFault f s) ∨
    (∃ rd v, destX i = some rd ∧ destB i = none ∧ destT i = none ∧ destS i = none ∧ destM i = none ∧
      isStore i = false ∧ t = retire i (setX rd v s)) ∨
    (∃ rd v, destX i = none ∧ destB i = some rd ∧ destT i = none ∧ destS i = none ∧ destM i = none ∧
      isStore i = false ∧ t = retire i (setB rd v s)) ∨
    (∃ rd v, destX i = none ∧ destB i = none ∧ destT i = some rd ∧ destS i = none ∧ destM i = none ∧
      isStore i = false ∧ t = retire i (setT rd v s)) ∨
    (∃ rd c, destX i = none ∧ destB i = none ∧ destT i = none ∧ destS i = some rd ∧ destM i = none ∧
      isStore i = false ∧ t = retire i (setS rd c s)) ∨
    (∃ rd c, destX i = none ∧ destB i = none ∧ destT i = none ∧ destS i = none ∧ destM i = some rd ∧
      isStore i = false ∧ t = retire i (setM rd c s)) ∨
    (∃ ra rd c v, destX i = none ∧ destB i = some rd ∧ destT i = none ∧ destS i = some ra ∧ destM i = none ∧
      isStore i = false ∧ t = retire i (setS ra c (setB rd v s))) ∨
    (∃ ra rd c v, destX i = none ∧ destB i = some rd ∧ destT i = none ∧ destS i = none ∧ destM i = some ra ∧
      isStore i = false ∧ t = retire i (setM ra c (setB rd v s))) ∨
    (∃ ws, destX i = none ∧ destB i = none ∧ destT i = none ∧ destS i = none ∧ destM i = none ∧
      isStore i = true ∧ t = retire i (respond ws s)) ∨
    (i = .nop ∧ t = s) ∨ (i = .clrerr ∧ t = clearFault s) := by
  cases i <;>
    simp only [exec, destX, destB, destT, destS, destM, isStore, retire, isHashFamily, ownFaults, execNop, execClrerr,
      execRdsr, execXload, execXstore, execBload, execBstore, execTload, execTstore, execBlen, execBslice, execBsliceE,
      execBext, execBcat, execBtrunc, execBmkp, execBgvc, execBeq, execU8enc, execU8dec, execB64enc, execB64dec,
      execSharst, execShaupd, execShaupdT, execShafin, execShaclone, execHmkey, execHmupd, execHmupdT, execHmdig,
      execHmmac, execHmmacT, execHmrst, execPbkdf2, execPbkdf2Dc, execDerive, sliceInto, fitB, fitT, shaUpdateInto,
      hmacUpdateInto, hmacMacInto, pbkdf2Into, raise] at h ⊢
  case u8dec rd ra =>
    cases hd : utf8Dec (getB s ra) with
    | error f =>
      rw [hd] at h; cases h
      rcases utf8Dec_error hd with rfl | rfl <;> exact .inl ⟨_, by simp, rfl⟩
    | ok r =>
      rw [hd] at h
      simp only at h
      split at h <;> cases h <;> simp
      exact .inr ⟨_, rfl⟩
  case b64dec rd ra u =>
    cases hd : b64Dec (getT s ra) u with
    | error f =>
      rw [hd] at h; cases h
      rcases b64Dec_error hd with rfl | rfl <;> exact .inl ⟨_, by simp, rfl⟩
    | ok r =>
      rw [hd] at h
      simp only at h
      split at h <;> cases h <;> simp
      exact .inr ⟨_, rfl⟩
  all_goals (repeat' split at h)
  all_goals cases h
  all_goals simp
  all_goals first | exact ⟨_, rfl⟩ | exact .inr ⟨_, rfl⟩ | exact ⟨_, _, rfl⟩ | exact .inr ⟨_, _, rfl⟩

end Sys2Proof.Machine
end

