-- ==== Sys2Proof/Laws/PerInstr.lean ====
section
/-! SUPPORT. Statements made of every instruction as syntax, one lemma per constructor. -/

namespace Sys2Proof.Laws.CmdLen

open Machine

/-- The command length the fetch computes from the head of the stream (spec/30_encoding R83) is the length of the
instruction's encoding, whatever follows it. -/
def Statement (i : Instr) : Prop :=
  i.wf = true → ∀ rest, cmdlen (encode i ++ rest) = some (encode i).length

/-- A command word whose opcode is no load's is one word long. -/
theorem one_word {i : Instr} (hp : encodePayload i = [])
    (ho : (encodeFields i).opc ≠ 0x08#8 ∧ (encodeFields i).opc ≠ 0x0A#8 ∧ (encodeFields i).opc ≠ 0x0C#8) :
    Statement i := by
  intro _ rest
  rw [encode, hp]
  rw [← fieldsOf_packFields (encodeFields i)] at ho
  simp only [List.cons_append, cmdlen]
  split <;> simp_all

theorem nop : Statement .nop := one_word rfl (by simp [encodeFields])

theorem clrerr : Statement .clrerr := one_word rfl (by simp [encodeFields])

theorem rdsr (rd : XReg) (sr : SReg) : Statement (.rdsr rd sr) := one_word rfl (by simp [encodeFields])

theorem xload (rd : XReg) (v : DWord) : Statement (.xload rd v) := by
  intro _ rest
  simp [encode, encodePayload, encodeFields, cmdlen]

theorem xstore (ra : XReg) : Statement (.xstore ra) := one_word rfl (by simp [encodeFields])

theorem bload (rd : BReg) (n : DWord) (data : List Word) : Statement (.bload rd n data) := by
  intro h rest
  have hn : headerValue (hiWord n) (loWord n) = n.toNat := by simp [headerValue]
  simp only [Instr.wf, beq_iff_eq] at h
  simp only [encode, encodePayload, encodeFields, List.cons_append, cmdlen, fieldsOf_packFields, hn, List.length_cons, h]
  exact congrArg some (by simp only [ceilDiv]; omega)

theorem bstore (ra : BReg) : Statement (.bstore ra) := one_word rfl (by simp [encodeFields])

theorem tload (rd : TReg) (n : DWord) (data : List Word) : Statement (.tload rd n data) := by
  intro h rest
  have hn : headerValue (hiWord n) (loWord n) = n.toNat := by simp [headerValue]
  simp only [Instr.wf, beq_iff_eq] at h
  simp only [encode, encodePayload, encodeFields, List.cons_append, cmdlen, fieldsOf_packFields, hn, List.length_cons, h]
  exact congrArg some (by omega)

theorem tstore (ra : TReg) : Statement (.tstore ra) := one_word rfl (by simp [encodeFields])

theorem blen (rd : XReg) (ra : BReg) : Statement (.blen rd ra) := one_word rfl (by simp [encodeFields])

theorem bslice (rd ra : BReg) (rb rc : XReg) : Statement (.bslice rd ra rb rc) := one_word rfl (by simp [encodeFields])

theorem bsliceE (rd ra : BReg) (rb : XReg) : Statement (.bsliceE rd ra rb) := one_word rfl (by simp [encodeFields])

theorem bext (rd : XReg) (ra : BReg) (rb rc : XReg) : Statement (.bext rd ra rb rc) := one_word rfl (by simp [encodeFields])

theorem bcat (rd ra rb : BReg) : Statement (.bcat rd ra rb) := one_word rfl (by simp [encodeFields])

theorem btrunc (rd ra : BReg) (rb : XReg) : Statement (.btrunc rd ra rb) := one_word rfl (by simp [encodeFields])

theorem bmkp (rd ra rb : XReg) (shifted : Bool) : Statement (.bmkp rd ra rb shifted) := one_word rfl (by simp [encodeFields])

theorem bgvc (rd ra : XReg) : Statement (.bgvc rd ra) := one_word rfl (by simp [encodeFields])

theorem beq (rd : XReg) (ra rb : BReg) : Statement (.beq rd ra rb) := one_word rfl (by simp [encodeFields])

theorem u8enc (rd : BReg) (ra : TReg) : Statement (.u8enc rd ra) := one_word rfl (by simp [encodeFields])

theorem u8dec (rd : TReg) (ra : BReg) : Statement (.u8dec rd ra) := one_word rfl (by simp [encodeFields])

theorem b64enc (rd : TReg) (ra : BReg) (url noPad : Bool) : Statement (.b64enc rd ra url noPad) := one_word rfl (by simp [encodeFields])

theorem b64dec (rd : BReg) (ra : TReg) (url : Bool) : Statement (.b64dec rd ra url) := one_word rfl (by simp [encodeFields])

theorem sharst (rd : SCtx) : Statement (.sharst rd) := one_word rfl (by simp [encodeFields])

theorem shaupd (rd : SCtx) (ra : BReg) : Statement (.shaupd rd ra) := one_word rfl (by simp [encodeFields])

theorem shaupdT (rd : SCtx) (ra : TReg) : Statement (.shaupdT rd ra) := one_word rfl (by simp [encodeFields])

theorem shafin (rd : BReg) (ra : SCtx) : Statement (.shafin rd ra) := one_word rfl (by simp [encodeFields])

theorem shaclone (rd ra : SCtx) : Statement (.shaclone rd ra) := one_word rfl (by simp [encodeFields])

theorem hmkey (rd : MCtx) (ra : BReg) : Statement (.hmkey rd ra) := one_word rfl (by simp [encodeFields])

theorem hmupd (rd : MCtx) (ra : BReg) : Statement (.hmupd rd ra) := one_word rfl (by simp [encodeFields])

theorem hmupdT (rd : MCtx) (ra : TReg) : Statement (.hmupdT rd ra) := one_word rfl (by simp [encodeFields])

theorem hmdig (rd : BReg) (ra : MCtx) : Statement (.hmdig rd ra) := one_word rfl (by simp [encodeFields])

theorem hmmac (rd : BReg) (ra : MCtx) (rb : BReg) : Statement (.hmmac rd ra rb) := one_word rfl (by simp [encodeFields])

theorem hmmacT (rd : BReg) (ra : MCtx) (rb : TReg) : Statement (.hmmacT rd ra rb) := one_word rfl (by simp [encodeFields])

theorem hmrst (rd : MCtx) : Statement (.hmrst rd) := one_word rfl (by simp [encodeFields])

theorem pbkdf2 (rd : BReg) (ra rb : DataReg) (rc re : XReg) : Statement (.pbkdf2 rd ra rb rc re) := one_word rfl (by simp [encodeFields])

theorem pbkdf2Dc (rd : BReg) (ra rb : DataReg) (re : XReg) : Statement (.pbkdf2Dc rd ra rb re) := one_word rfl (by simp [encodeFields])

theorem derive (rd ra rb : TReg) (rc re : XReg) : Statement (.derive rd ra rb rc re) := one_word rfl (by simp [encodeFields])

end Sys2Proof.Laws.CmdLen
end

