-- ==== Sys2Proof/Laws/Sha.lean ====
section
/-! SUPPORT. Lengths in the hash, HMAC and PBKDF2 functions. -/

namespace Sys2Proof.Machine

@[simp] theorem digestBits_length (hw : HWords) : (digestBits hw).length = 256 := by
  simp [digestBits]

@[simp] theorem shaFinal_fst_length (c : HashCtx) : (shaFinal c).1.length = 256 := by simp [shaFinal]

@[simp] theorem shaFinal_snd (c : HashCtx) : (shaFinal c).2 = HashCtx.initial := rfl

@[simp] theorem sha256_length (a : BitString) : (sha256 a).length = 256 := by simp [sha256]

@[simp] theorem ipad_length : ipad.length = 512 := by
  simp [ipad]

@[simp] theorem opad_length : opad.length = 512 := by
  simp [opad]

@[simp] theorem hmacKeyBlock_length (key : BitString) : (hmacKeyBlock key).length = 512 := by
  unfold hmacKeyBlock
  split
  · simp
  · simp; omega

theorem shaUpdate_pend_length (c : HashCtx) (d : BitString) :
    (shaUpdate c d).pend.length = (c.pend.length + d.length) % 512 := by
  simp [shaUpdate]; omega

theorem shaUpdate_len (c : HashCtx) (d : BitString) : (shaUpdate c d).len = c.len + dword d.length := rfl

@[simp] theorem hmacDigest_fst_length (ib ob w : HashCtx) : (hmacDigest ib ob w).1.length = 256 := by
  simp [hmacDigest]

@[simp] theorem hmacDigest_snd (ib ob w : HashCtx) : (hmacDigest ib ob w).2 = ib := rfl

@[simp] theorem hmacMac_fst_length (ib ob w : HashCtx) (d : BitString) : (hmacMac ib ob w d).1.length = 256 := by
  simp [hmacMac]

@[simp] theorem hmacMac_snd (ib ob w : HashCtx) (d : BitString) : (hmacMac ib ob w d).2 = ib := rfl

@[simp] theorem pbkdf2Mac_length (ib ob : HashCtx) (d : BitString) : (pbkdf2Mac ib ob d).length = 256 := by
  simp [pbkdf2Mac]

theorem pbkdf2Passes_length (ib ob : HashCtx) (n : Nat) (u block : BitString) (h : block.length = 256) :
    (pbkdf2Passes ib ob n u block).length = 256 := by
  induction n generalizing u block with
  | zero => exact h
  | succ n ih => exact ih _ _ (by simp [h])

@[simp] theorem pbkdf2Block_length (ib ob : HashCtx) (salt : BitString) (c k : Nat) :
    (pbkdf2Block ib ob salt c k).length = 256 :=
  pbkdf2Passes_length _ _ _ _ _ (by simp)

end Sys2Proof.Machine
end

