-- ==== Sys2Proof/Laws/Step.lean ====
section
/-! SUPPORT. Everything a fetch and a step can do. -/

namespace Sys2Proof.Machine

/-- A fetch that does not hold found a whole command; what it says of it depends on `FLT` and the decoder. -/
theorem fetch_cases (s : State) :
    (takeCommand s.cin = none ∧ fetch s = .hold) ∨
    ∃ w p rest, takeCommand s.cin = some (w, p, rest) ∧
      ((s.flt = true ∧ w = clrerrWord ∧ fetch s = .run .clrerr (p.length + 1)) ∨
       (s.flt = true ∧ w ≠ clrerrWord ∧ fetch s = .skip (p.length + 1)) ∨
       (s.flt = false ∧ ∃ i, decodeCommand w p = .ok i ∧ fetch s = .run i (p.length + 1)) ∨
       (s.flt = false ∧ ∃ f, decodeCommand w p = .error f ∧ fetch s = .reject f (p.length + 1))) := by
  cases hc : takeCommand s.cin with
  | none => exact .inl ⟨rfl, by simp [fetch, hc]⟩
  | some c =>
    obtain ⟨w, p, rest⟩ := c
    refine .inr ⟨w, p, rest, rfl, ?_⟩
    cases hf : s.flt with
    | true =>
      by_cases hw : w = clrerrWord
      · exact .inl ⟨rfl, hw, by simp [fetch, hc, hf, hw]⟩
      · exact .inr (.inl ⟨rfl, hw, by simp [fetch, hc, hf, hw]⟩)
    | false =>
      cases hd : decodeCommand w p with
      | ok i => exact .inr (.inr (.inl ⟨rfl, i, rfl, by simp [fetch, hc, hf, hd]⟩))
      | error f => exact .inr (.inr (.inr ⟨rfl, f, rfl, by simp [fetch, hc, hf, hd]⟩))

/-- Everything a step that answers a next state did. -/
theorem step_cases {s t : State} (h : step s = .next t) :
    (fetch s = .hold ∧ t = s) ∨
    (∃ n, fetch s = .skip n ∧ t = advance n s) ∨
    (∃ f n, fetch s = .reject f n ∧ t = advance n (takeFault f s)) ∨
    ∃ i n u, fetch s = .run i n ∧ exec i s = .next u ∧ t = advance n u := by
  unfold step at h
  cases hf : fetch s with
  | hold => rw [hf] at h; cases h; exact .inl ⟨rfl, rfl⟩
  | skip n => rw [hf] at h; cases h; exact .inr (.inl ⟨n, rfl, rfl⟩)
  | reject f n => rw [hf] at h; cases h; exact .inr (.inr (.inl ⟨f, n, rfl, rfl⟩))
  | run i n =>
    rw [hf] at h
    obtain ⟨u, hu, rfl⟩ := advanceResult_eq_next h
    exact .inr (.inr (.inr ⟨i, n, u, rfl, hu, rfl⟩))

end Sys2Proof.Machine
end

