-- ==== Sys2Proof/Machine/Asm.lean ====
section
/-! DEFINITION. The assembler syntax of the spec's examples (spec/30_encoding R94): `MNEMONIC[.FLAGS] operand, operand`,
operands destination first, a payload after the destination (DESIGN CHOICE,
safe: log 13). -/

namespace Sys2Proof.Machine

/-- Operands joined by a comma and a space. -/
def asmOperands : List String → String
  | [] => ""
  | [o] => " " ++ o
  | o :: os => " " ++ o ++ "," ++ asmOperands os

/-- A flag suffix. -/
def asmFlag (on : Bool) (name : String) : String := if on then "." ++ name else ""

/-- A register name: its file's letter and its number. -/
def asmReg {n : Nat} (file : String) (r : Fin n) : String := file ++ toString r.val

/-- The name of a data operand's register. -/
def asmData : DataReg → String
  | .bits r => asmReg "B" r
  | .text r => asmReg "T" r

/-- The name of a status register (R40). -/
def asmSr : SReg → String
  | .status => "#STATUS"
  | .errkind => "#ERRKIND"
  | .errdet => "#ERRDET"
  | .errcp => "#ERRCP"
  | .cp => "#CP"
  | .idr => "#IDR"
  | .capbits => "#CAPBITS"
  | .capcp => "#CAPCP"
  | .slen i => "#SLEN" ++ toString i.val
  | .splen i => "#SPLEN" ++ toString i.val
  | .mstat i => "#MSTAT" ++ toString i.val

/-- A hexadecimal digit. -/
def hexDigit (n : Nat) : Char := Char.ofNat (if n < 10 then 0x30 + n else 0x37 + n)

/-- The last `k` hexadecimal digits of a number. -/
def hexDigits (k n : Nat) : String := String.ofList ((List.range k).map fun i => hexDigit (n / 16 ^ (k - 1 - i) % 16))

/-- A `BLOAD` payload: bit length, colon, data words separated by spaces (R94). -/
def asmBits (n : DWord) (data : List Word) : String :=
  toString n.toNat ++ ":" ++ String.intercalate " " (data.map fun w => "0x" ++ hexDigits 8 w.toNat)

/-- How many hexadecimal digits a code point is written with: at least four. -/
def codePointDigits (n : Nat) : Nat := if n < 0x10000 then 4 else if n < 0x100000 then 5 else if n < 0x1000000 then 6 else 8

/-- A `TLOAD` payload as code points (R94). -/
def asmText (data : List Word) : String :=
  String.intercalate " " (data.map fun w => "U+" ++ hexDigits (codePointDigits w.toNat) w.toNat)

/-- The mnemonic without the suffix that its flag letters repeat. -/
def asmMnemonic (i : Instr) : String :=
  match i with
  | .bmkp _ _ _ shifted => mnemonicOf i ++ asmFlag shifted "S"
  | .b64enc _ _ url noPad => mnemonicOf i ++ asmFlag url "U" ++ asmFlag noPad "N"
  | .b64dec _ _ url => mnemonicOf i ++ asmFlag url "U"
  | .pbkdf2 _ ra rb _ _ => "PBKDF2" ++ asmFlag (isText ra) "PT" ++ asmFlag (isText rb) "ST"
  | .pbkdf2Dc _ ra rb _ => "PBKDF2" ++ asmFlag (isText ra) "PT" ++ asmFlag (isText rb) "ST" ++ ".DC"
  | .nop | .clrerr | .rdsr _ _ | .xload _ _ | .xstore _ | .bload _ _ _ | .bstore _ | .tload _ _ _ | .tstore _
  | .blen _ _ | .bslice _ _ _ _ | .bsliceE _ _ _ | .bext _ _ _ _ | .bcat _ _ _ | .btrunc _ _ _
  | .bgvc _ _ | .beq _ _ _ | .u8enc _ _ | .u8dec _ _
  | .sharst _ | .shaupd _ _ | .shaupdT _ _ | .shafin _ _ | .shaclone _ _
  | .hmkey _ _ | .hmupd _ _ | .hmupdT _ _ | .hmdig _ _ | .hmmac _ _ _ | .hmmacT _ _ _ | .hmrst _
  | .derive _ _ _ _ _ => mnemonicOf i

/-- The operands of an instruction in the order of R94. -/
def asmArgs : Instr → List String
  | .nop | .clrerr => []
  | .rdsr rd sr => [asmReg "X" rd, asmSr sr]
  | .xload rd v => [asmReg "X" rd, "#" ++ toString v.toNat]
  | .xstore ra => [asmReg "X" ra]
  | .bload rd n data => [asmReg "B" rd, asmBits n data]
  | .bstore ra => [asmReg "B" ra]
  | .tload rd _ data => [asmReg "T" rd, asmText data]
  | .tstore ra => [asmReg "T" ra]
  | .blen rd ra => [asmReg "X" rd, asmReg "B" ra]
  | .bslice rd ra rb rc => [asmReg "B" rd, asmReg "B" ra, asmReg "X" rb, asmReg "X" rc]
  | .bsliceE rd ra rb => [asmReg "B" rd, asmReg "B" ra, asmReg "X" rb]
  | .bext rd ra rb rc => [asmReg "X" rd, asmReg "B" ra, asmReg "X" rb, asmReg "X" rc]
  | .bcat rd ra rb => [asmReg "B" rd, asmReg "B" ra, asmReg "B" rb]
  | .btrunc rd ra rb => [asmReg "B" rd, asmReg "B" ra, asmReg "X" rb]
  | .bmkp rd ra rb _ => [asmReg "X" rd, asmReg "X" ra, asmReg "X" rb]
  | .bgvc rd ra => [asmReg "X" rd, asmReg "X" ra]
  | .beq rd ra rb => [asmReg "X" rd, asmReg "B" ra, asmReg "B" rb]
  | .u8enc rd ra => [asmReg "B" rd, asmReg "T" ra]
  | .u8dec rd ra => [asmReg "T" rd, asmReg "B" ra]
  | .b64enc rd ra _ _ => [asmReg "T" rd, asmReg "B" ra]
  | .b64dec rd ra _ => [asmReg "B" rd, asmReg "T" ra]
  | .sharst rd => [asmReg "S" rd]
  | .shaupd rd ra => [asmReg "S" rd, asmReg "B" ra]
  | .shaupdT rd ra => [asmReg "S" rd, asmReg "T" ra]
  | .shafin rd ra => [asmReg "B" rd, asmReg "S" ra]
  | .shaclone rd ra => [asmReg "S" rd, asmReg "S" ra]
  | .hmkey rd ra => [asmReg "M" rd, asmReg "B" ra]
  | .hmupd rd ra => [asmReg "M" rd, asmReg "B" ra]
  | .hmupdT rd ra => [asmReg "M" rd, asmReg "T" ra]
  | .hmdig rd ra => [asmReg "B" rd, asmReg "M" ra]
  | .hmmac rd ra rb => [asmReg "B" rd, asmReg "M" ra, asmReg "B" rb]
  | .hmmacT rd ra rb => [asmReg "B" rd, asmReg "M" ra, asmReg "T" rb]
  | .hmrst rd => [asmReg "M" rd]
  | .pbkdf2 rd ra rb rc re => [asmReg "B" rd, asmData ra, asmData rb, asmReg "X" rc, asmReg "X" re]
  | .pbkdf2Dc rd ra rb re => [asmReg "B" rd, asmData ra, asmData rb, asmReg "X" re]
  | .derive rd ra rb rc re => [asmReg "T" rd, asmReg "T" ra, asmReg "T" rb, asmReg "X" rc, asmReg "X" re]

/-- One line of assembler for an instruction (R94). -/
def asm (i : Instr) : String := asmMnemonic i ++ asmOperands (asmArgs i)

end Sys2Proof.Machine
end

