-- ==== Sys2Proof/Tests/Slice0.lean ====
section
/-! SUPPORT. Small tests of the model against the values the spec prints, and a witness for the hypotheses of every
obligation that has some. -/

namespace Sys2Proof.Tests

open Sys2Proof.Machine Sys2Proof.Config

/- One proof after another: proofs by evaluation in many threads at once would need too much memory. -/
set_option Elab.async false

/-! ## Helpers -/

/-- The state after reset with some registers set. -/
def machine (xs : List (XReg × DWord)) (bs : List (BReg × BitString)) (ts : List (TReg × Text)) : State :=
  let s := xs.foldl (fun s p => setX p.1 p.2 s) State.reset
  let s := bs.foldl (fun s p => setB p.1 p.2 s) s
  ts.foldl (fun s p => setT p.1 p.2 s) s

/-- The state after reset with some words in CIN. -/
def withCin (ws : List Word) : State := { State.reset with cin := ws }

/-- The state a result gives, when no fault was taken. -/
def okState : Result → Option State
  | .next t => if t.flt then none else some t
  | .fault _ => none
  | .refused _ => none

/-- The state a result gives, faulted or not. -/
def anyState : Result → Option State
  | .next t => some t
  | .fault _ => none
  | .refused _ => none

/-- The X register a result leaves, when no fault was taken. -/
def outX (i : XReg) (r : Result) : Option Nat := (okState r).map fun t => (getX t i).toNat

/-- The length and the words of the B register a result leaves, when no fault was taken. -/
def outB (i : BReg) (r : Result) : Option (Nat × List Word) :=
  (okState r).map fun t => ((getB t i).length, toWords (getB t i))

/-- The code points of the T register a result leaves, when no fault was taken. -/
def outT (i : TReg) (r : Result) : Option (List Nat) := (okState r).map fun t => (getT t i).map Char.toNat

/-- The response words of a result, when no fault was taken. -/
def outR (r : Result) : Option (List Word) := (okState r).map fun t => t.rout

/-- Kind and detail of the fault a result took. -/
def faultOf : Result → Option (Nat × Nat)
  | .next t => if t.flt then some (t.errkind.toNat, t.errdet.toNat) else none
  | .fault _ => none
  | .refused _ => none

/-- The 40-bit string `61626364 65000000` of spec/95. -/
def q40 : BitString := ofWords 40 [0x61626364, 0x65000000]

/-- A key of 20 bytes 0x0b (V3). -/
def keyV3 : BitString := (List.replicate 20 (be 8 0x0b)).flatten

/-- `M0` fresh with key V3 (example of R217). -/
def keyedState : State := setM 0 ⟨true, false, (hmacKey keyV3).1, (hmacKey keyV3).2, (hmacKey keyV3).1⟩ State.reset

/-- `M0` keyed, with input given (the contexts themselves do not matter here). -/
def givenState : State := setM 0 ⟨true, true, HashCtx.initial, HashCtx.initial, HashCtx.initial⟩ State.reset

/-! ## Well-formedness: an ill-formed term for each check -/

theorem test_wf_bload_short : (Instr.bload 0 33 [0xFFFFFFFF]).wf = false := by decide

theorem test_wf_bload_long : (Instr.bload 0 32 [0xFFFFFFFF, 0]).wf = false := by decide

theorem test_wf_tload : (Instr.tload 0 2 [0x61]).wf = false ∧ (Instr.tload 0 0 [0x61]).wf = false := by decide

/-! ## Decoding: words of spec/30_encoding to spec/45_pbkdf2 and of the programs of spec/95, one for every constructor -/

theorem test_decode_system :
    decode [0x00000000] = .instr .nop [] ∧
    decode [0x01000000] = .instr .clrerr [] ∧
    decode [0x02219000] = .instr (.rdsr 2 (.splen 1)) [] ∧
    decode [0x08A00000, 0x01234567, 0x89ABCDEF] = .instr (.xload 10 0x0123456789ABCDEF) [] ∧
    decode [0x090A0000] = .instr (.xstore 10) [] := by decide

theorem test_decode_transfers :
    decode [0x0A000000, 0, 0x21, 0xFFFFFFFF, 0x80000000, 0x0B000000] =
      .instr (.bload 0 33 [0xFFFFFFFF, 0x80000000]) [0x0B000000] ∧
    decode [0x0B030000] = .instr (.bstore 3) [] ∧
    decode [0x0C200000, 0, 2, 0x0001F600, 0x41, 0x0D020000] = .instr (.tload 2 2 [0x0001F600, 0x41]) [0x0D020000] ∧
    decode [0x0D020000] = .instr (.tstore 2) [] := by decide

theorem test_decode_bitbuffer :
    decode [0x10130000] = .instr (.blen 1 3) [] ∧
    decode [0x11535600] = .instr (.bslice 5 3 5 6) [] ∧
    decode [0x11311001] = .instr (.bsliceE 3 1 1) [] ∧
    decode [0x12432300] = .instr (.bext 4 3 2 3) [] ∧
    decode [0x13412000] = .instr (.bcat 4 1 2) [] ∧
    decode [0x14635000] = .instr (.btrunc 6 3 5) [] ∧
    decode [0x15A59000] = .instr (.bmkp 10 5 9 false) [] ∧
    decode [0x15A59001] = .instr (.bmkp 10 5 9 true) [] ∧
    decode [0x16BA0000] = .instr (.bgvc 11 10) [] ∧
    decode [0x17034000] = .instr (.beq 0 3 4) [] := by decide

theorem test_decode_codecs :
    decode [0x20000000] = .instr (.u8enc 0 0) [] ∧
    decode [0x21100000] = .instr (.u8dec 1 0) [] ∧
    decode [0x22300001] = .instr (.b64enc 3 0 true false) [] ∧
    decode [0x22300002] = .instr (.b64enc 3 0 false true) [] ∧
    decode [0x23120000] = .instr (.b64dec 1 2 false) [] ∧
    decode [0x23120001] = .instr (.b64dec 1 2 true) [] := by decide

theorem test_decode_sha :
    decode [0x30100000] = .instr (.sharst 1) [] ∧
    decode [0x31130000] = .instr (.shaupd 1 3) [] ∧
    decode [0x31000001] = .instr (.shaupdT 0 0) [] ∧
    decode [0x32410000] = .instr (.shafin 4 1) [] ∧
    decode [0x33200000] = .instr (.shaclone 2 0) [] := by decide

theorem test_decode_hmac :
    decode [0x40000000] = .instr (.hmkey 0 0) [] ∧
    decode [0x41010000] = .instr (.hmupd 0 1) [] ∧
    decode [0x41000001] = .instr (.hmupdT 0 0) [] ∧
    decode [0x42200000] = .instr (.hmdig 2 0) [] ∧
    decode [0x43201000] = .instr (.hmmac 2 0 1) [] ∧
    decode [0x43100001] = .instr (.hmmacT 1 0 0) [] ∧
    decode [0x44100000] = .instr (.hmrst 1) [] := by decide

theorem test_decode_pbkdf2 :
    decode [0x50312450] = .instr (.pbkdf2 3 (.bits 1) (.bits 2) 4 5) [] ∧
    decode [0x50201523] = .instr (.pbkdf2 2 (.text 0) (.text 1) 5 2) [] ∧
    decode [0x50301057] = .instr (.pbkdf2Dc 3 (.text 0) (.text 1) 5) [] ∧
    decode [0x51201450] = .instr (.derive 2 0 1 4 5) [] := by decide

/-- Decode faults of spec/95 (S10, S11, Q6, H5, M10, K16 to K18, P5). -/
theorem test_decode_faults :
    decode [0xFF000000] = .bad .illegalOpcode [] ∧
    decode [0x09100000] = .bad .reservedField [] ∧
    decode [0x08010000, 0, 0] = .bad .reservedField [] ∧
    decode [0x11012301] = .bad .reservedField [] ∧
    decode [0x50000124] = .bad .reservedField [] ∧
    decode [0x50000128] = .bad .reservedField [] ∧
    decode [0x30400000] = .bad .regIndex [] ∧
    decode [0x40200000] = .bad .regIndex [] ∧
    decode [0x50050121] = .bad .regIndex [] ∧
    decode [0x02599000] = .bad .reservedSr [] := by decide

/-- S13: two words of a load are there, the third is not. -/
theorem test_decode_incomplete : decode [0x08100000, 0] = .incomplete := by decide

/-- The encoder gives the words of the spec's examples. -/
theorem test_encode :
    encode (.bload 0 24 [0x616263FF]) = [0x0A000000, 0, 0x18, 0x616263FF] ∧
    encode (.rdsr 3 .idr) = [0x02305000] ∧
    encode (.pbkdf2Dc 3 (.text 0) (.text 1) 5) = [0x50301057] := by decide

/-- The assembler text of examples of R94 and spec/95. -/
theorem test_asm :
    asm (.bload 0 24 [0x61626300]) = "BLOAD B0, 24:0x61626300" ∧
    asm (.bsliceE 3 1 1) = "BSLICE.E B3, B1, X1" ∧
    asm (.tload 0 2 [0x61, 0xE9]) = "TLOAD T0, U+0061 U+00E9" := by decide +kernel

/-! ## Steps: one command at the head of CIN -/

/-- `RDSR X0, #CP` at index 2 reads 2, and the pointer moves by one (S9). -/
theorem test_step_rdsr :
    outX 0 (step { withCin [0x02004000, 0x09000000] with cp := 2 }) = some 2 ∧
    (okState (step { withCin [0x02004000, 0x09000000] with cp := 2 })).map (fun t => (t.cp, t.cin)) =
      some (3, [0x09000000]) := by decide +kernel

/-- A word put where the step fetches runs as the first instruction after reset. -/
theorem test_step_withFetchWord :
    outX 3 (step (State.reset.withFetchWord 32 0x02305000)) = some 0x5348413250424B32 ∧
    faultOf (step (State.reset.withFetchWord 32 0xFF000000)) = some (5, 1) := by decide +kernel

/-- S11: the two payload words of a load that fails to decode are consumed. -/
theorem test_step_decode_fault :
    anyState (step (withCin [0x08010000, 0, 0])) =
      some { State.reset with flt := true, errkind := 5, errdet := 2, errcp := 0, cp := 3 } := by decide +kernel

/-- P5: while faulted a load is skipped with its payload, the inexact `CLRERR` word too, and `CLRERR` acts. -/
theorem test_step_faulted :
    anyState (step { withCin [0x08100000, 0, 9] with flt := true }) = some { State.reset with flt := true, cp := 3 } ∧
    anyState (step { withCin [0x01000001] with flt := true }) = some { State.reset with flt := true, cp := 1 } ∧
    anyState (step { withCin [0x01000000] with flt := true }) = some { State.reset with cp := 1 } := by decide +kernel

/-- S13: the CORE holds. -/
theorem test_step_holds : anyState (step (withCin [0x08100000, 0])) = some (withCin [0x08100000, 0]) := by decide +kernel

/-! ## System and transfer commands (examples of spec/40) -/

theorem test_clrerr : anyState (exec .clrerr { State.reset with flt := true, errkind := 3 }) =
    some { State.reset with errkind := 3 } := by decide +kernel

/-- Example of R217 read back: a keyed context with input reads 3, one without input 1. -/
theorem test_rdsr_mstat : outX 4 (exec (.rdsr 4 (.mstat 0)) givenState) = some 3 ∧
    outX 4 (exec (.rdsr 4 .status) { State.reset with krdy := true }) = some 2 := by decide +kernel

theorem test_xload : outX 1 (step (withCin [0x08100000, 0, 0x3E8])) = some 1000 := by decide +kernel

theorem test_xstore : outR (exec (.xstore 2) (machine [(2, 0x0000000100000002)] [] [])) = some [1, 2] := by
  decide +kernel

theorem test_bload : outB 0 (exec (.bload 0 24 [0x616263FF]) State.reset) = some (24, [0x61626300]) := by
  decide +kernel

theorem test_bstore : outR (exec (.bstore 1) (machine [] [(1, q40)] [])) = some [0, 0x28, 0x61626364, 0x65000000] := by
  decide +kernel

theorem test_tload : outT 0 (exec (.tload 0 3 [0x61, 0x62, 0x63]) State.reset) = some [0x61, 0x62, 0x63] ∧
    faultOf (exec (.tload 0 1 [0xD800]) State.reset) = some (1, 4) := by decide +kernel

theorem test_tstore : outR (exec (.tstore 1) (machine [] [] [(1, ['Q', 'Q', '=', '='])])) =
    some [0, 4, 0x51, 0x51, 0x3D, 0x3D] := by decide +kernel

/-! ## BitBuffer commands (Q vectors of spec/95) -/

theorem test_blen : outX 0 (exec (.blen 0 1) (machine [] [(1, q40)] [])) = some 40 := by decide +kernel

/-- Bits 4 to 19 of `6162636465`, and Q4. -/
theorem test_bslice :
    outB 0 (exec (.bslice 0 1 2 3) (machine [(2, 4), (3, 20)] [(1, q40)] [])) = some (16, [0x16260000]) ∧
    faultOf (exec (.bslice 0 1 2 3) (machine [(2, -1), (3, 4)] [(1, q40)] [])) = some (1, 3) := by decide +kernel

/-- P1: the last 19 bits of `"abc"`. -/
theorem test_bsliceE : outB 3 (exec (.bsliceE 3 1 1) (machine [(1, 5)] [(1, ofWords 24 [0x61626300])] [])) =
    some (19, [0x2C4C6000]) := by decide +kernel

/-- Q8 and Q9. -/
theorem test_bext :
    outX 0 (exec (.bext 0 1 2 3) (machine [(2, 8), (3, 32)] [(1, q40)] [])) = some 0x62636465 ∧
    faultOf (exec (.bext 0 1 2 3) (machine [(2, 9), (3, 32)] [(1, q40)] [])) = some (1, 3) := by decide +kernel

/-- Q28: the sources are read before the write. -/
theorem test_bcat : outB 0 (exec (.bcat 0 0 0) (machine [] [(0, q40)] [])) =
    some (80, [0x61626364, 0x65616263, 0x64650000]) := by decide +kernel

/-- Q13 and Q12. -/
theorem test_btrunc :
    outB 0 (exec (.btrunc 0 1 2) (machine [(2, 12)] [(1, q40)] [])) = some (12, [0x61600000]) ∧
    outB 0 (exec (.btrunc 0 1 2) (machine [(2, 100)] [(1, q40)] [])) = some (40, [0x61626364, 0x65000000]) := by
  decide +kernel

/-- Q17, Q18, Q16. -/
theorem test_bmkp :
    outX 0 (exec (.bmkp 0 1 2 false) (machine [(1, 4), (2, 15)] [] [])) = some 0x00000004F0000000 ∧
    outX 0 (exec (.bmkp 0 1 2 false) (machine [(1, 32), (2, 0xFFFFFFFF)] [] [])) = some 0xFFFFFFFF ∧
    faultOf (exec (.bmkp 0 1 2 false) (machine [(1, 4), (2, 16)] [] [])) = some (1, 3) := by decide +kernel

/-- Q22, Q20, Q21. -/
theorem test_bmkp_shifted :
    outX 0 (exec (.bmkp 0 1 2 true) (machine [(1, 4), (2, 0xF0000000)] [] [])) = some 0x00000004F0000000 ∧
    faultOf (exec (.bmkp 0 1 2 true) (machine [(1, 4), (2, 0xF8000000)] [] [])) = some (1, 3) ∧
    faultOf (exec (.bmkp 0 1 2 true) (machine [(1, 4), (2, 0x1F0000000)] [] [])) = some (1, 3) := by decide +kernel

/-- Q24, Q25, Q23. -/
theorem test_bgvc :
    outX 0 (exec (.bgvc 0 1) (machine [(1, 0x0000001F00000000)] [] [])) = some 31 ∧
    outX 0 (exec (.bgvc 0 1) (machine [(1, 0x00000000FFFFFFFF)] [] [])) = some 32 ∧
    faultOf (exec (.bgvc 0 1) (machine [(1, 0x2000000000)] [] [])) = some (1, 3) := by decide +kernel

/-- V10: equal, a prefix, followed by a 0 bit. -/
theorem test_beq :
    outX 0 (exec (.beq 0 1 2) (machine [] [(1, ofWords 24 [0x61626300]), (2, ofWords 24 [0x61626300])] [])) = some 1 ∧
    outX 0 (exec (.beq 0 1 2) (machine [] [(1, ofWords 24 [0x61626300]), (2, ofWords 23 [0x61626200])] [])) = some 0 ∧
    outX 0 (exec (.beq 0 1 2) (machine [] [(1, ofWords 24 [0x61626300]), (2, ofWords 25 [0x61626300])] [])) = some 0 := by
  decide +kernel

/-! ## Codecs (section 2.3 of spec/95) -/

theorem test_u8enc :
    outB 0 (exec (.u8enc 0 0) (machine [] [] [(0, [Char.ofNat 0x61, Char.ofNat 0xE9, Char.ofNat 0x20AC,
      Char.ofNat 0x1F600])])) = some (80, [0x61C3A9E2, 0x82ACF09F, 0x98800000]) := by decide +kernel

theorem test_u8dec :
    outT 0 (exec (.u8dec 0 0) (machine [] [(0, ofWords 32 [0xF48FBFBF])] [])) = some [0x10FFFF] ∧
    faultOf (exec (.u8dec 0 0) (machine [] [(0, ofWords 24 [0xEDA08000])] [])) = some (2, 1) ∧
    faultOf (exec (.u8dec 0 0) (machine [] [(0, ofWords 12 [0x61600000])] [])) = some (2, 2) := by decide +kernel

/-- `-_8=` in the URL alphabet, and 12 bits without padding. -/
theorem test_b64enc :
    outT 0 (exec (.b64enc 0 0 true false) (machine [] [(0, ofWords 16 [0xFBFF0000])] [])) =
      some [0x2D, 0x5F, 0x38, 0x3D] ∧
    outT 0 (exec (.b64enc 0 0 false true) (machine [] [(0, ofWords 12 [0xFBF00000])] [])) = some [0x2B, 0x2F] := by
  decide +kernel

/-- `=Y=Q=`, then `Y`, then `Y*`. -/
theorem test_b64dec :
    outB 0 (exec (.b64dec 0 0 false) (machine [] [] [(0, ['=', 'Y', '=', 'Q', '='])])) = some (8, [0x61000000]) ∧
    faultOf (exec (.b64dec 0 0 false) (machine [] [] [(0, ['Y'])])) = some (2, 3) ∧
    faultOf (exec (.b64dec 0 0 false) (machine [] [] [(0, ['Y', '*'])])) = some (1, 2) := by decide +kernel

/-! ## Hash commands -/

/-- Example of R186. -/
theorem test_compress :
    compress initWords (wordBits 0x61626380 ++ zeros 448 ++ wordBits 0x18) =
      ⟨0xba7816bf, 0x8f01cfea, 0x414140de, 0x5dae2223, 0xb00361a3, 0x96177a9c, 0xb410ff61, 0xf20015ad⟩ := by
  decide +kernel

/-- V1: the digest of the empty input; `SHAFIN` leaves the context initial and `KRDY` set. -/
theorem test_shafin :
    outB 0 (exec (.shafin 0 0) State.reset) =
      some (256, [0xE3B0C442, 0x98FC1C14, 0x9AFBF4C8, 0x996FB924, 0x27AE41E4, 0x649B934C, 0xA495991B, 0x7852B855]) ∧
    (okState (exec (.shafin 0 0) State.reset)).map (fun t => (t.krdy, getS t 0)) = some (true, HashCtx.initial) := by
  decide +kernel

theorem test_sharst : (okState (exec (.sharst 1) (setS 1 ⟨initWords, [true], 1⟩ State.reset))).map (fun t => getS t 1) =
    some HashCtx.initial := by decide +kernel

/-- Example of R193, and H3. -/
theorem test_shaupd :
    (okState (exec (.shaupd 0 0) (machine [] [(0, ofWords 24 [0x61626300])] []))).map (fun t => getS t 0) =
      some ⟨initWords, ofWords 24 [0x61626300], 24⟩ ∧
    faultOf (exec (.shaupd 0 0) (setS 0 ⟨initWords, [], -8⟩ (machine [] [(0, be 8 1)] []))) = some (5, 6) := by
  decide +kernel

theorem test_shaupdT :
    (okState (exec (.shaupdT 0 0) (machine [] [] [(0, ['a', 'b', 'c'])]))).map (fun t => getS t 0) =
      some ⟨initWords, ofWords 24 [0x61626300], 24⟩ := by decide +kernel

theorem test_shaclone :
    (okState (exec (.shaclone 2 0) (setS 0 ⟨initWords, [true], 1⟩ State.reset))).map (fun t => (getS t 2, getS t 0)) =
      some (⟨initWords, [true], 1⟩, ⟨initWords, [true], 1⟩) := by decide +kernel

/-! ## HMAC commands -/

/-- The two base contexts printed under V3. -/
theorem test_hmkey :
    (okState (exec (.hmkey 0 0) (machine [] [(0, keyV3)] []))).map (fun t => ((getM t 0).ib, (getM t 0).ob.h)) =
      some (⟨⟨0x2bb21804, 0x23b95bf9, 0xb4e8258c, 0xfab5e654, 0x11f2921e, 0x4feb78ee, 0x9890e5fe, 0x64b78036⟩, [], 512⟩,
        ⟨0x27e7739f, 0xd9562583, 0x56d666e2, 0x5f810de8, 0xec5e4f8a, 0x553d4fb8, 0x3cff20ba, 0x10234b40⟩) := by
  decide +kernel

/-- V3: the MAC of `"Hi There"`. -/
theorem test_hmmacT :
    outB 1 (exec (.hmmacT 1 0 0) (setT 0 ['H', 'i', ' ', 'T', 'h', 'e', 'r', 'e'] keyedState)) =
      some (256, [0xB0344C61, 0xD8DB3853, 0x5CA8AFCE, 0xAF0BF12B, 0x881DC200, 0xC9833DA7, 0x26E9376C, 0x2E32CFF7]) := by
  decide +kernel

/-- M8: the MAC of nothing, by `HMDIG` right after keying. -/
theorem test_hmdig :
    outB 2 (exec (.hmdig 2 0) keyedState) =
      some (256, [0x999a9012, 0x19f032cd, 0x497cadb5, 0xe6051e97, 0xb6a29ab2, 0x97bd6ae7, 0x22bd6062, 0xa2f59542]) := by
  decide +kernel

/-- Empty data still marks the context. -/
theorem test_hmupd :
    (okState (exec (.hmupd 0 0) (setM 0 ⟨true, false, HashCtx.initial, HashCtx.initial, HashCtx.initial⟩
      State.reset))).map (fun t => (getM t 0).upd) = some true ∧
    faultOf (exec (.hmupd 0 0) State.reset) = some (3, 2) := by decide +kernel

theorem test_hmupdT :
    (okState (exec (.hmupdT 0 0) (setT 0 ['H'] givenState))).map (fun t => ((getM t 0).w.pend, (getM t 0).w.len)) =
      some (be 8 0x48, 8) := by decide +kernel

/-- M11: the context already has input. -/
theorem test_hmmac : faultOf (exec (.hmmac 1 0 0) givenState) = some (3, 1) ∧
    faultOf (exec (.hmmac 1 1 0) givenState) = some (3, 2) := by decide +kernel

theorem test_hmrst : (okState (exec (.hmrst 0) givenState)).map (fun t => mstatWord (getM t 0)) = some 1 ∧
    faultOf (exec (.hmrst 1) givenState) = some (3, 2) := by decide +kernel

/-! ## PBKDF2 commands -/

/-- K7: 20 bits of K1. -/
theorem test_pbkdf2 :
    outB 0 (exec (.pbkdf2 0 (.text 0) (.text 1) 1 2) (machine [(1, 1), (2, 20)] []
      [(0, ['p', 'a', 's', 's', 'w', 'o', 'r', 'd']), (1, ['s', 'a', 'l', 't'])])) = some (20, [0x120FB000]) := by
  decide +kernel

/-- K12, K14. -/
theorem test_pbkdf2_faults :
    faultOf (exec (.pbkdf2 0 (.bits 0) (.bits 1) 1 2) (machine [(1, -1), (2, 256)] [] [])) = some (1, 1) ∧
    faultOf (exec (.pbkdf2 0 (.bits 0) (.bits 1) 1 2) (machine [(1, 1), (2, 0xFFFFFFFF01)] [] [])) = some (1, 5) := by
  decide +kernel

theorem test_pbkdf2Dc :
    faultOf (exec (.pbkdf2Dc 0 (.bits 0) (.bits 1) 2) (machine [(2, -1)] [] [])) = some (1, 1) := by decide +kernel

/-- K21 and K24: the product is exact, so a huge count of bytes does not wrap to a small one. -/
theorem test_derive_faults :
    faultOf (exec (.derive 2 0 1 1 2) (machine [(1, 1), (2, 0x2000000000000000)] [] [])) = some (1, 5) ∧
    faultOf (exec (.derive 2 0 1 1 2) (machine [(1, 1), (2, -1)] [] [])) = some (1, 1) := by decide +kernel

/-- K20: ten bytes, sixteen characters. -/
theorem test_derive :
    outT 2 (exec (.derive 2 0 1 1 2) (machine [(1, 1), (2, 10)] []
      [(0, ['p', 'a', 's', 's', 'w', 'o', 'r', 'd']), (1, ['s', 'a', 'l', 't'])])) =
      some [0x45, 0x67, 0x2B, 0x32, 0x7A, 0x2F, 0x7A, 0x34, 0x73, 0x79, 0x78, 0x44, 0x35, 0x77, 0x3D, 0x3D] := by
  decide +kernel

/-! ## Witnesses: a state and operands that meet the hypotheses of each obligation that has some -/

/-- What keying and then giving `msg` leaves. -/
theorem keyed_mk (key msg : BitString) (u : Bool) (h : 512 + msg.length < 2 ^ 64) (hu : u = false → msg = []) :
    Keyed key msg ⟨true, u, (hmacKey key).1, (hmacKey key).2, shaUpdate (hmacKey key).1 msg⟩ :=
  ⟨rfl, rfl, rfl, h, rfl, hu⟩

/-- What keying leaves. -/
theorem keyed_fresh (key : BitString) :
    Keyed key [] ⟨true, false, (hmacKey key).1, (hmacKey key).2, (hmacKey key).1⟩ := by
  refine ⟨rfl, rfl, rfl, by simp, ?_, fun _ => rfl⟩
  have hp : (hmacKey key).1.pend = [] := by
    rw [← List.length_eq_zero_iff, hmacKey, shaUpdate_pend_length, xorBits_length, hmacKeyBlock_length, ipad_length]
    rfl
  generalize (hmacKey key).1 = c at hp
  simp [shaUpdate, hp, compressBlocks, chunks, dword]
  cases c; simp_all

/-- A state with a hash context and an HMAC context in use, and a command waiting. -/
def richState : State :=
  setM 0 ⟨true, true, (hmacKey keyV3).1, (hmacKey keyV3).2, shaUpdate (hmacKey keyV3).1 [true]⟩
    (setS 0 (shaUpdate shaReset [true]) (withCin [0x31000000]))

theorem richState_inv : Inv richState where
  bitsFit r := by simp [richState, withCin, getB, State.reset]
  textFits r := by simp [richState, withCin, getT, State.reset]
  hashes i := by
    by_cases h : i = 0
    · subst h
      exact ⟨[true], by simp, by simp [richState, getS, setS]⟩
    · refine ⟨[], by simp, ?_⟩
      have : getS richState i = HashCtx.initial := by
        rw [richState, getS, setM]
        change getS (setS 0 _ _) i = _
        rw [getS_setS_ne h]
        simp [withCin, getS, State.reset]
      rw [this]; decide
  macs i := by
    by_cases h : i = 0
    · subst h
      refine .inr ⟨keyV3, [true], ?_⟩
      rw [richState, getM_setM_same]
      exact keyed_mk _ _ _ (by simp) (by simp)
    · left
      rw [richState, getM_setM_ne h]
      simp [withCin, getM, setS, State.reset]
  faultCodes := by right; decide

/-- The state after reset with `M0` keyed with the empty key and given nothing. -/
def freshState : State := setM 0 ⟨true, false, (hmacKey []).1, (hmacKey []).2, (hmacKey []).1⟩ State.reset

theorem freshState_keyed : Keyed [] [] (getM freshState 0) := by
  rw [freshState, getM_setM_same]
  exact keyed_fresh []

theorem freshState_keyed_upd : (getM freshState 0).keyed = true ∧ (getM freshState 0).upd = false := by
  rw [freshState, getM_setM_same]
  exact ⟨rfl, rfl⟩

/-- `n` letters `A` as bytes, and what they decode to. -/
def lettersA (n : Nat) : BitString := (List.replicate n (be 8 0x41)).flatten

theorem lettersA_length (n : Nat) : (lettersA n).length = 8 * n := by
  simp [lettersA, Nat.mul_comm]

theorem chunks_lettersA (n : Nat) : (chunks 8 n (lettersA n)).map val = List.replicate n 0x41 := by
  induction n with
  | zero => rfl
  | succ n ih =>
    have h : lettersA (n + 1) = be 8 0x41 ++ lettersA n := by simp [lettersA, List.replicate_succ]
    rw [h, chunks, List.take_left' (by simp), List.drop_left' (by simp), List.map_cons, ih, List.replicate_succ]
    rfl

theorem utf8DecLoop_letters (n : Nat) : utf8DecLoop n (List.replicate n 0x41) = .ok (List.replicate n 'A') := by
  induction n with
  | zero => rfl
  | succ n ih => simp [List.replicate_succ, utf8DecLoop, utf8Lead, utf8Cont, ih, Except.map]

theorem utf8Dec_lettersA (n : Nat) : utf8Dec (lettersA n) = .ok (List.replicate n 'A') := by
  have h : 8 * n / 8 = n := by omega
  simp [utf8Dec, bitsBytes, lettersA_length, h, chunks_lettersA, utf8DecLoop_letters]

theorem utf8Enc_letters (n : Nat) : (utf8Enc (List.replicate n 'A')).length = 8 * n := by
  induction n with
  | zero => rfl
  | succ n ih =>
    have h : utf8Enc (List.replicate (n + 1) 'A') = be 8 0x41 ++ utf8Enc (List.replicate n 'A') := by
      simp [List.replicate_succ, utf8Enc, bytesBits, utf8Bytes]
    rw [h, List.length_append, ih, be_length]; omega

/-! ### Encoding and the step -/

theorem witness_DecodeOfEncode : (Instr.bload 15 33 [0, 1]).wf = true ∧ (Instr.tload 3 0 []).wf = true := by decide

theorem witness_EncodeOfDecode : decode [0x0A000000, 0, 0x21, 5, 6, 7] = .instr (.bload 0 33 [5, 6]) [7] := by decide

theorem witness_DecodedRowIsUnique :
    (∃ r ∈ opcodeTable, rowMatches 0x11012301 r = false) ∧ (∃ r ∈ opcodeTable, rowMatches 0x11012001 r = true) ∧
    decodeCommand 0x11012001 [] = .ok (.bsliceE 0 1 2) := by decide +kernel

/-- An opcode at each end of the listed ranges. -/
theorem witness_ReservedEncodings :
    ([0x03, 0x07, 0x0E, 0x0F, 0x18, 0x1F, 0x24, 0x2F, 0x34, 0x3F, 0x45, 0x4F, 0x52, 0xFF].all fun o =>
      match decodeCommand (BitVec.ofNat 32 (o * 2 ^ 24)) [] with | .error .illegalOpcode => true | _ => false) ∧
    ([0x02, 0x08, 0x0D, 0x10, 0x17, 0x20, 0x23, 0x30, 0x33, 0x40, 0x44, 0x50, 0x51].all fun o =>
      match decodeCommand (BitVec.ofNat 32 (o * 2 ^ 24)) [] with | .error .illegalOpcode => false | _ => true) := by
  decide +kernel

theorem witness_CommandLength :
    (0x08000000#32).toNat / 2 ^ 24 = 0x08 ∧ (0x0A000000#32).toNat / 2 ^ 24 = 0x0A ∧
    (0x0CFFFFFF#32).toNat / 2 ^ 24 = 0x0C ∧ (0xFF000000#32).toNat / 2 ^ 24 ≠ 0x0A := by decide

theorem witness_StepRunsDecoded :
    (withCin [0x08100000, 0, 7, 0]).flt = false ∧ decode (withCin [0x08100000, 0, 7, 0]).cin = .instr (.xload 1 7) [0] ∧
    exec (.xload 1 7) (withCin [0x08100000, 0, 7, 0]) = .next (setX 1 7 (withCin [0x08100000, 0, 7, 0])) :=
  ⟨rfl, by decide, rfl⟩

theorem witness_FaultedStepSkips :
    takeCommand [0x08100000, 0, 7, 0] = some (0x08100000, [0, 7], [0]) ∧
    takeCommand [0x01000000] = some (0x01000000, [], []) := by decide

theorem witness_IncompleteHolds :
    decode (withCin []).cin = .incomplete ∧ decode (withCin [0x0A000000, 0]).cin = .incomplete ∧
    decode (withCin [0x0A000000, 0, 1]).cin = .incomplete := by decide

theorem witness_StepMovesPointer :
    (∃ t, step (withCin []) = .next t) ∧ ∃ t, step (withCin [0xFF000000]) = .next t := ⟨⟨_, rfl⟩, _, rfl⟩

theorem witness_LaterWordsDoNotMatter : decode (withCin [0x00000000]).cin ≠ .incomplete := by decide

/-- A fault found by the decoder, one found by the command, and a step that takes none. -/
theorem witness_FaultEntry :
    decode (withCin [0xFF000000]).cin = .bad .illegalOpcode [] ∧
    (∃ t, step (withCin [0xFF000000]) = .next t ∧ t.flt = true) ∧
    (∃ t, step (withCin [0x44000000]) = .next t ∧ t.flt = true) ∧
    (∃ t, step (withCin [0x00000000]) = .next t ∧ t.flt = false) :=
  ⟨by decide, ⟨_, rfl, by decide⟩, ⟨_, rfl, by decide⟩, ⟨_, rfl, by decide⟩⟩

theorem witness_OwnFaultsOnly : exec (.hmrst 0) State.reset = .next (takeFault .notKeyed State.reset) ∧
    (takeFault .notKeyed State.reset).flt = true := ⟨rfl, rfl⟩

/-- `KRDY` clear before, set after; and set before. -/
theorem witness_KrdyRecordsFirstUse :
    (∃ t, step (withCin [0x30000000]) = .next t ∧ t.krdy = true) ∧ (withCin [0x30000000]).krdy = false ∧
    (∃ t, step { withCin [0x00000000] with krdy := true } = .next t) :=
  ⟨⟨_, rfl, by decide⟩, rfl, _, rfl⟩

theorem witness_NothingDependsOnKrdy :
    (∃ t, step (withCin [0x02004000]) = .next t) ∧
    ∀ rd rest, decode (withCin [0x02004000]).cin ≠ .instr (.rdsr rd .status) rest := by
  refine ⟨⟨_, rfl⟩, fun rd rest h => ?_⟩
  have : decode (withCin [0x02004000]).cin = .instr (.rdsr 0 .cp) [] := by decide
  rw [this] at h; cases h

theorem witness_OnlyListedStateIsWritten :
    exec (.bcat 2 0 1) State.reset = .next (setB 2 (getB State.reset 0 ++ getB State.reset 1) State.reset) ∧
    destB (.bcat 2 0 1) ≠ some 0 ∧ destX (.bcat 2 0 1) ≠ some 0 ∧ destT (.bcat 2 0 1) ≠ some 0 ∧
    destS (.bcat 2 0 1) ≠ some 0 ∧ destM (.bcat 2 0 1) ≠ some 0 ∧ isStore (.bcat 2 0 1) = false ∧
    isHashFamily (.bcat 2 0 1) = false := by
  refine ⟨?_, by decide⟩
  simp [exec, execBcat, getB, State.reset]

theorem witness_Pbkdf2UsesNoContext :
    mnemonicOf (.pbkdf2 0 (.bits 0) (.text 1) 0 0) = "PBKDF2" ∧ mnemonicOf (.pbkdf2Dc 0 (.bits 0) (.bits 0) 0) = "PBKDF2.DC" ∧
    mnemonicOf (.derive 0 0 0 0 0) = "DERIVE" ∧ ∃ t, exec (.derive 0 0 0 0 0) (machine [(0, -1)] [] []) = .next t :=
  ⟨rfl, rfl, rfl, _, rfl⟩

/-- A step that appends, and one that does not. -/
theorem witness_ResponsesOnlyGrow :
    (∃ t, step (withCin [0x09000000]) = .next t ∧ t.rout = [0, 0]) ∧
    ∃ t, step (withCin [0x00000000]) = .next t ∧ t.rout = [] := ⟨⟨_, rfl, by decide⟩, _, rfl, by decide⟩

theorem witness_StepKeepsInvariant : Inv richState ∧ ∃ t, step richState = .next t := ⟨richState_inv, _, rfl⟩

theorem witness_HostMovesAreAsListed : Inv richState := richState_inv

/-- Every clause: a keyed context with input given, an unkeyed one, and a keyed one without input. -/
theorem witness_InvariantGivesContextRules :
    Inv richState ∧ (getM richState 0).keyed = true ∧ (getM richState 1).keyed = false ∧
    Keyed [] [] (getM freshState 0) ∧ (getM freshState 0).upd = false :=
  ⟨richState_inv, by rw [richState, getM_setM_same],
    by rw [richState, getM_setM_ne (by decide)]; rfl, freshState_keyed, freshState_keyed_upd.2⟩

/-! ### System, transfers, BitBuffers -/

theorem witness_SystemCommands : (getS State.reset 3).pend.length < 2 ^ 64 := by decide

/-- A length of one more than `CAP_BITS`, and one of exactly `CAP_BITS`. -/
theorem witness_BitBufferLoad :
    (∃ n data, (Instr.bload 0 n data).wf = true ∧ capBits < n.toNat) ∧
    (∃ n data, (Instr.bload 0 n data).wf = true ∧ n.toNat = capBits) := by
  have h := capBits_lt
  refine ⟨⟨dword (capBits + 1), List.replicate ((capBits + 1 + 31) / 32) 0, ?_⟩,
    ⟨dword capBits, List.replicate ((capBits + 31) / 32) 0, ?_⟩⟩
  · have e : (dword (capBits + 1)).toNat = capBits + 1 := by rw [dword, BitVec.toNat_ofNat]; omega
    simp [Instr.wf, e]
  · have e : (dword capBits).toNat = capBits := by rw [dword, BitVec.toNat_ofNat]; omega
    simp [Instr.wf, e]

theorem witness_BitBufferStore : (getB (machine [] [(1, q40)] []) 1).length < 2 ^ 64 := by decide +kernel

/-- One code point more than `CAP_CP`. -/
theorem witness_TextTransfers_capacity : ∃ n data, (Instr.tload 0 n data).wf = true ∧ capCp < n.toNat := by
  have h := capCp_le
  refine ⟨dword (capCp + 1), List.replicate (capCp + 1) 0, ?_⟩
  have e : (dword (capCp + 1)).toNat = capCp + 1 := by rw [dword, BitVec.toNat_ofNat]; omega
  simp [Instr.wf, e]

/-- The last value of each bad range. -/
theorem witness_TextTransfers_codepoint :
    (1#64).toNat ≤ capCp ∧ (Instr.tload 0 1 [0xDFFF]).wf = true ∧ (Instr.tload 0 1 [0x110000]).wf = true ∧
    (∃ w ∈ ([0xDFFF] : List Word), w.toNat > 0x10FFFF ∨ (0xD800 ≤ w.toNat ∧ w.toNat ≤ 0xDFFF)) ∧
    (∃ w ∈ ([0x110000] : List Word), w.toNat > 0x10FFFF ∨ (0xD800 ≤ w.toNat ∧ w.toNat ≤ 0xDFFF)) := by
  have h := capCp_ge
  exact ⟨by simp; omega, by decide, by decide, ⟨_, List.mem_singleton_self _, by simp⟩,
    ⟨_, List.mem_singleton_self _, by simp⟩⟩

/-- The values next to the bad ranges, and a text to store. -/
theorem witness_TextTransfers :
    (4#64).toNat ≤ capCp ∧ (Instr.tload 0 4 [0x10FFFF, 0xD7FF, 0xE000, 0]).wf = true ∧
    (∀ w ∈ ([0x10FFFF, 0xD7FF, 0xE000, 0] : List Word),
      w.toNat ≤ 0x10FFFF ∧ ¬(0xD800 ≤ w.toNat ∧ w.toNat ≤ 0xDFFF)) ∧
    (getT State.reset 0).length < 2 ^ 64 := by
  have h := capCp_ge
  exact ⟨by simp; omega, by decide, by simp, by decide⟩

theorem witness_StoreReturnsLoad :
    (Instr.bload 0 33 [0xFFFFFFFF, 0xFFFFFFFF]).wf = true ∧ (33#64).toNat ≤ capBits ∧
    (Instr.tload 0 1 [0x10FFFF]).wf = true ∧ (1#64).toNat ≤ capCp ∧ ([0x10FFFF] : List Word).all isScalar = true := by
  have h := capBits_ge
  have h' := capCp_ge
  exact ⟨by decide, by simp; omega, by decide, by simp; omega, by decide⟩

theorem witness_WordFormIsCanonical :
    be 33 1 ≠ [] ∧ 32 < (be 33 1).length ∧ 30 < 32 - (wordForm (be 33 1)).lv ∧ (wordForm (be 32 1)).lv = 32 := by decide

theorem witness_WordSliceIsSlice : 33 ≤ 40 ∧ 40 ≤ q40.length ∧ 40 ≤ 40 := by decide

theorem witness_LengthAndEquality : (getB (machine [] [(1, q40)] []) 1).length < 2 ^ 64 := by decide +kernel

/-- In and out of range at both ends (Q2 to Q5). -/
theorem witness_SliceCommands :
    let s := machine [(0, 40), (1, 41), (2, -1), (3, 0)] [(1, q40)] []
    let len : Int := (getB s 1).length
    (0 ≤ (getX s 0).toInt ∧ (getX s 0).toInt ≤ (getX s 0).toInt ∧ (getX s 0).toInt ≤ len) ∧
    ¬(0 ≤ (getX s 3).toInt ∧ (getX s 3).toInt ≤ (getX s 1).toInt ∧ (getX s 1).toInt ≤ len) ∧
    ¬(0 ≤ (getX s 2).toInt ∧ (getX s 2).toInt ≤ (getX s 0).toInt ∧ (getX s 0).toInt ≤ len) ∧
    ¬(0 ≤ (getX s 1).toInt ∧ (getX s 1).toInt ≤ len) := by decide +kernel

/-- Q7, Q8, Q9, Q10. -/
theorem witness_ExtractCommand :
    let s := machine [(0, 0), (8, 8), (9, 9), (10, 32), (11, 33), (12, 40)] [(1, q40)] []
    let ok := fun st n : Int => 0 ≤ n ∧ n ≤ 32 ∧ 0 ≤ st ∧ st + n ≤ ((getB s 1).length : Int)
    ok (getX s 8).toInt (getX s 10).toInt ∧ ok (getX s 12).toInt (getX s 0).toInt ∧
    ¬ok (getX s 0).toInt (getX s 11).toInt ∧ ¬ok (getX s 9).toInt (getX s 10).toInt := by decide +kernel

/-- A sum of one more than `CAP_BITS` and of exactly `CAP_BITS`; a negative length, one above the length and one below. -/
theorem witness_ConcatAndTruncate :
    (∃ s, capBits < (getB s 0).length + (getB s 1).length) ∧
    (∃ s, (getB s 0).length + (getB s 2).length = capBits) ∧
    (getX (machine [(2, -1)] [] []) 2).toInt < 0 ∧
    (let s := machine [(2, 39), (3, 40)] [(0, q40)] []
     0 ≤ (getX s 2).toInt ∧ (getX s 2).toInt < (getB s 0).length ∧ ((getB s 0).length : Int) ≤ (getX s 3).toInt) := by
  refine ⟨⟨setB 1 [true] (setB 0 (zeros capBits) State.reset), ?_⟩, ⟨setB 0 (zeros capBits) State.reset, ?_⟩,
    by decide +kernel, by decide +kernel⟩
  · rw [getB_setB_ne (by decide), getB_setB_same, getB_setB_same]; simp
  · rw [getB_setB_same, getB_setB_ne (by decide)]; simp [getB, State.reset]

/-- Q14 to Q22: counts 0, 1, 32, 33 and values at the edge of the field, in both settings of `S`. -/
theorem witness_MakePartial :
    let ok := fun (c v : Nat) (shifted : Bool) => 1 ≤ c ∧ c ≤ 32 ∧
      if shifted then v < 2 ^ 32 ∧ ∀ i, i < 32 - c → v.testBit i = false else v < 2 ^ c
    ok 1 1 false ∧ ok 32 0xFFFFFFFF false ∧ ok 4 0xF0000000 true ∧ ¬ok 0 0 false ∧ ¬ok 33 0 true ∧ ¬ok 4 16 false ∧
    ¬ok 4 0xF8000000 true ∧ ¬ok 4 0x1F0000000 true := by decide +kernel

/-- Q23 to Q25, and a `BMKP` that retires. -/
theorem witness_ValidCount :
    2 ^ 37 ≤ (getX (machine [(1, 0x2000000000)] [] []) 1).toNat ∧
    (getX (machine [(1, 0x1FFFFFFFFF)] [] []) 1).toNat < 2 ^ 37 ∧
    (machine [(1, 4), (2, 15)] [] []).flt = false ∧
    ∃ t, exec (.bmkp 0 1 2 false) (machine [(1, 4), (2, 15)] [] []) = .next t ∧ t.flt = false :=
  ⟨by decide +kernel, by decide +kernel, rfl, _, rfl, by decide +kernel⟩

/-! ### Codecs -/

/-- A length for every clause, at both ends of each range. -/
theorem witness_Base64RoundTrip :
    (zeros 16).length % 8 = 0 ∧ (zeros 25).length % 24 = 1 ∧ (zeros 6).length % 24 = 6 ∧ (zeros 9).length % 24 = 9 ∧
    (zeros 12).length % 24 = 12 ∧ (zeros 17).length % 24 = 17 ∧ (zeros 18).length % 24 = 18 ∧
    (zeros 7).length % 24 = 7 ∧ (zeros 13).length % 24 = 13 ∧ (zeros 15).length % 24 = 15 ∧
    (zeros 19).length % 24 = 19 ∧ (zeros 23).length % 24 = 23 := by decide

/-- `U8ENC` and `U8DEC`: a result above the limit, one below, and each fault. -/
theorem witness_CodecCommands_utf8 :
    (∃ s, capBits < (utf8Enc (getT s 0)).length) ∧ (utf8Enc (getT State.reset 0)).length ≤ capBits ∧
    utf8Dec (getB (machine [] [(0, [true])] []) 0) = .error .notWholeBytes ∧
    utf8Dec (getB (machine [] [(0, be 8 0x80)] []) 0) = .error .utf8Malformed ∧
    (∃ s x, utf8Dec (getB s 0) = .ok x ∧ capCp < x.length) ∧
    ∃ x, utf8Dec (getB State.reset 0) = .ok x ∧ x.length ≤ capCp := by
  refine ⟨⟨setT 0 (List.replicate (capBits + 1) 'A') State.reset, ?_⟩, ?_, by rfl, by rfl,
    ⟨setB 0 (lettersA (capCp + 1)) State.reset, List.replicate (capCp + 1) 'A', ?_, ?_⟩, [], by rfl, by simp⟩
  · rw [getT_setT_same, utf8Enc_letters]; omega
  · simp [getT, State.reset, utf8Enc]
  · rw [getB_setB_same, utf8Dec_lettersA]
  · simp

/-- `B64ENC`: a result above the limit, with and without padding, and one below. -/
theorem witness_CodecCommands_b64enc :
    (∃ s, capCp < ((getB s 0).length + 5) / 6) ∧ (∃ s, capCp < 4 * ((((getB s 0).length + 5) / 6 + 3) / 4)) ∧
    ((getB State.reset 0).length + 5) / 6 ≤ capCp := by
  refine ⟨⟨setB 0 (zeros (6 * (capCp + 1))) State.reset, ?_⟩, ⟨setB 0 (zeros (6 * (capCp + 1))) State.reset, ?_⟩, ?_⟩
  · rw [getB_setB_same, zeros_length]; omega
  · rw [getB_setB_same, zeros_length]; omega
  · simp [getB, State.reset]

theorem filter_letters (n : Nat) :
    (List.replicate n 'A').filter (fun c => !b64Stripped c) = List.replicate n 'A' := by
  rw [List.filter_eq_self]
  intro c hc
  rw [List.eq_of_mem_replicate hc]; decide

/-- `B64DEC`: a character outside the alphabet, a dangling one, a result above the limit, and one below. -/
theorem witness_CodecCommands_b64dec :
    (∃ c ∈ (['Y', '*'] : Text).filter (fun c => !b64Stripped c), b64Value false c = none) ∧
    ((∀ c ∈ (['Y'] : Text).filter (fun c => !b64Stripped c), b64Value false c ≠ none) ∧
      ((['Y'] : Text).filter fun c => !b64Stripped c).length % 4 = 1) ∧
    (∃ s, let q := (getT s 0).filter fun c => !b64Stripped c
      (∀ c ∈ q, b64Value false c ≠ none) ∧ q.length % 4 ≠ 1 ∧ capBits < 8 * (6 * q.length / 8)) ∧
    ((∀ c ∈ (['Y', 'Q', '='] : Text).filter (fun c => !b64Stripped c), b64Value false c ≠ none) ∧
      ((['Y', 'Q', '='] : Text).filter fun c => !b64Stripped c).length % 4 ≠ 1 ∧
      8 * (6 * ((['Y', 'Q', '='] : Text).filter fun c => !b64Stripped c).length / 8) ≤ capBits) := by
  have h := capBits_ge
  have e1 : (['Y'] : Text).filter (fun c => !b64Stripped c) = ['Y'] := by rfl
  have e2 : (['Y', 'Q', '='] : Text).filter (fun c => !b64Stripped c) = ['Y', 'Q'] := by rfl
  rw [e1, e2]
  refine ⟨⟨'*', by simp [b64Stripped], by rfl⟩, ⟨by simp [b64Value], rfl⟩,
    ⟨setT 0 (List.replicate (4 * capBits) 'A') State.reset, ?_⟩, by simp [b64Value], by decide, ?_⟩
  · rw [getT_setT_same, filter_letters]
    refine ⟨fun c hc => ?_, by simp, by simp; omega⟩
    rw [List.eq_of_mem_replicate hc]; decide
  · simp only [List.length_cons, List.length_nil]; omega

/-! ### SHA-256, HMAC, PBKDF2 -/

theorem witness_MessageSchedule : (zeros 512).length = 512 := by simp

/-- The last length of one block, the first of two, and the longest. -/
theorem witness_FinalRule :
    (HashCtx.mk initWords (zeros 447) 447).pend.length = 447 ∧ (HashCtx.mk initWords (zeros 448) 448).pend.length = 448 ∧
    (HashCtx.mk initWords (zeros 511) 511).pend.length < 512 := by simp

/-- H3 and H4: the counter would reach `2^64`, and stays one below; and a context that absorbed a message. -/
theorem witness_ShaCommands :
    (let s := setS 0 ⟨initWords, [], -8⟩ (machine [] [(0, be 8 0), (1, be 7 0)] [(0, ['a'])])
     2 ^ 64 ≤ (getS s 0).len.toNat + (getB s 0).length ∧ (getS s 0).len.toNat + (getB s 1).length < 2 ^ 64 ∧
     2 ^ 64 ≤ (getS s 0).len.toNat + (utf8Enc (getT s 0)).length ∧
     (getS s 1).len.toNat + (utf8Enc (getT s 0)).length < 2 ^ 64) ∧
    Absorbed [true] (getS richState 0) := by
  refine ⟨by decide +kernel, by simp, ?_⟩
  simp [richState, getS, setS]

/-- Unkeyed; keyed and the counter would overflow; keyed and it does not; and a context with key and message. -/
theorem witness_HmacUpdateCommands :
    (getM State.reset 0).keyed = false ∧
    (∃ s : State, (getM s 0).keyed = true ∧ 2 ^ 64 ≤ (getM s 0).w.len.toNat + (getB s 0).length) ∧
    ((getM freshState 0).keyed = true ∧ (getM freshState 0).w.len.toNat + (getB freshState 0).length < 2 ^ 64) ∧
    Keyed [] [] (getM freshState 0) := by
  refine ⟨rfl, ⟨setM 0 ⟨true, true, HashCtx.initial, HashCtx.initial, ⟨initWords, [], -8⟩⟩ (machine [] [(0, be 8 0)] []),
    by decide +kernel⟩, by decide +kernel, freshState_keyed⟩

theorem witness_HmacDigestAndReset :
    (getM State.reset 0).keyed = false ∧ (getM givenState 0).keyed = true ∧ Keyed [] [] (getM freshState 0) :=
  ⟨rfl, rfl, freshState_keyed⟩

/-- One state for each clause. -/
theorem witness_HmacOneShotCommands :
    (getM State.reset 0).keyed = false ∧ ((getM givenState 0).keyed = true ∧ (getM givenState 0).upd = true) ∧
    (∃ s : State, (getM s 0).keyed = true ∧ (getM s 0).upd = false ∧
      2 ^ 64 ≤ (getM s 0).w.len.toNat + (getB s 0).length) ∧
    ((getM freshState 0).keyed = true ∧ (getM freshState 0).upd = false ∧
      (getM freshState 0).w.len.toNat + (getB freshState 0).length < 2 ^ 64) ∧
    Keyed [] [] (getM freshState 0) := by
  refine ⟨rfl, ⟨rfl, rfl⟩, ⟨setM 0 ⟨true, false, HashCtx.initial, HashCtx.initial, ⟨initWords, [], -8⟩⟩
    (machine [] [(0, be 8 0)] []), by decide +kernel⟩, by decide +kernel, freshState_keyed⟩

/-- M12: `"Hi "`, `"There"` and their concatenation, here as bits. -/
theorem witness_UpdatesThenDigestIsOneShot :
    let s := setM 0 ⟨true, false, (hmacKey []).1, (hmacKey []).2, (hmacKey []).1⟩
      (machine [] [(1, [true]), (2, [false]), (3, [true, false])] [])
    s.flt = false ∧ (getM s 0).keyed = true ∧ (getM s 0).upd = false ∧ (getM s 0).w = (getM s 0).ib ∧
    getB s 3 = getB s 1 ++ getB s 2 ∧ (getM s 0).w.len.toNat + (getB s 3).length < 2 ^ 64 := by decide +kernel

theorem witness_DerivationPrefixLaw : 20 ≤ 300 := by decide

/-- A negative count, a negative length, the first length above the block limit, and a length that is accepted. -/
theorem witness_Pbkdf2Commands :
    let s := machine [(0, 1), (1, -1), (2, 0xFFFFFFFF01), (3, 512)] [] []
    (getX s 1).toInt < 0 ∧ 0 ≤ (getX s 0).toInt ∧ (256 * (2 ^ 32 - 1) < (getX s 2).toInt ∧ 0 ≤ (getX s 2).toInt) ∧
    (0 ≤ (getX s 3).toInt ∧ (getX s 3).toInt ≤ 256 * (2 ^ 32 - 1) ∧ (getX s 3).toInt ≤ (capBits : Int)) := by
  have h := capBits_ge
  refine ⟨by decide +kernel, by decide +kernel, by decide +kernel, by decide +kernel, by decide +kernel, ?_⟩
  have e : (getX (machine [(0, 1), (1, -1), (2, 0xFFFFFFFF01), (3, 512)] [] []) 3).toInt = 512 := by decide +kernel
  rw [e]; omega

/-- The CAPACITY clause of `PBKDF2`: a length of one more than `CAP_BITS`, on a CORE whose `CAP_BITS` is below the block
limit (on one with a larger `CAP_BITS` no length that passes KEYLEN can fault CAPACITY). -/
theorem witness_Pbkdf2Commands_capacity (h : capBits < 256 * (2 ^ 32 - 1)) :
    ∃ s : State, 0 ≤ (getX s 0).toInt ∧ (getX s 0).toInt ≤ 256 * (2 ^ 32 - 1) ∧ (capBits : Int) < (getX s 0).toInt := by
  refine ⟨setX 0 (dword (capBits + 1)) State.reset, ?_⟩
  have e : (dword (capBits + 1)).toInt = (capBits : Int) + 1 := by
    rw [dword, BitVec.toInt_eq_toNat_of_lt] <;> rw [BitVec.toNat_ofNat] <;> omega
  rw [getX_setX_same, e]; omega

/-- A negative count, the first length above the block limit, and a length that is accepted (K22 to K24). -/
theorem witness_DeriveCommand :
    let s := machine [(0, 1), (1, -1), (2, 0x1FFFFFFFE1), (3, 48)] [] []
    (getX s 1).toInt < 0 ∧ 0 ≤ (getX s 0).toInt ∧ (256 * (2 ^ 32 - 1) < 8 * (getX s 2).toInt ∧ 0 ≤ (getX s 2).toInt) ∧
    (0 ≤ (getX s 3).toInt ∧ 8 * (getX s 3).toInt ≤ 256 * (2 ^ 32 - 1) ∧ 4 * (((getX s 3).toInt.toNat + 2) / 3) ≤ capCp) := by
  have h := capCp_ge
  refine ⟨by decide +kernel, by decide +kernel, by decide +kernel, by decide +kernel, by decide +kernel, ?_⟩
  have e : (getX (machine [(0, 1), (1, -1), (2, 0x1FFFFFFFE1), (3, 48)] [] []) 3).toInt = 48 := by decide +kernel
  rw [e]; exact le_trans (by decide) h

/-- The CAPACITY clause of `DERIVE`, on a CORE whose `CAP_CP` a derivation can exceed. -/
theorem witness_DeriveCommand_capacity (h : capCp < 2 ^ 36) :
    ∃ s : State, 0 ≤ (getX s 0).toInt ∧ 8 * (getX s 0).toInt ≤ 256 * (2 ^ 32 - 1) ∧
      capCp < 4 * (((getX s 0).toInt.toNat + 2) / 3) := by
  refine ⟨setX 0 (dword (capCp + 1)) State.reset, ?_⟩
  have e : (dword (capCp + 1)).toInt = (capCp : Int) + 1 := by
    rw [dword, BitVec.toInt_eq_toNat_of_lt] <;> rw [BitVec.toNat_ofNat] <;> omega
  rw [getX_setX_same, e]; omega

theorem witness_PseudoInstructions :
    State.reset.flt = false ∧ (getB State.reset 0).length < 2 ^ 64 ∧ (utf8Enc (getT State.reset 0)).length < 2 ^ 64 ∧
    512 + (getB State.reset 0).length < 2 ^ 64 := by decide +kernel

end Sys2Proof.Tests
end

section
/-! What the decoder lets through: an instruction taken off CIN is well-formed (spec/30_encoding R83, R86, R92). -/

namespace Sys2Proof

open Machine

theorem whenZero_eq_ok {zero : Bool} {k : Except FaultCode Instr} {i : Instr} :
    whenZero zero k = .ok i ↔ zero = true ∧ k = .ok i := by
  cases zero <;> simp [whenZero]

theorem withReg_eq_ok {α : Type} {r : Except FaultCode α} {k : α → Except FaultCode Instr} {i : Instr} :
    withReg r k = .ok i ↔ ∃ a, r = .ok a ∧ k a = .ok i := by
  cases r <;> simp [withReg]

/-- A BitBuffer load is read from its opcode alone; header and data are the payload's (R89, R92). -/
theorem decodeCommand_eq_bload {w : Word} {p : List Word} {rd : BReg} {n : DWord} {data : List Word}
    (h : decodeCommand w p = .ok (.bload rd n data)) :
    (fieldsOf w).opc = 0x0A#8 ∧ n = payloadHead p ∧ data = p.drop 2 := by
  unfold decodeCommand decodeFields at h
  split at h <;> (try split at h) <;> simp [whenZero_eq_ok, withReg_eq_ok] at h
  obtain ⟨-, -, hn, hd⟩ := h
  exact ⟨‹_›, hn.symm, hd.symm⟩

/-- A text load is read from its opcode alone; header and data are the payload's (R89, R92). -/
theorem decodeCommand_eq_tload {w : Word} {p : List Word} {rd : TReg} {n : DWord} {data : List Word}
    (h : decodeCommand w p = .ok (.tload rd n data)) :
    (fieldsOf w).opc = 0x0C#8 ∧ n = payloadHead p ∧ data = p.drop 2 := by
  unfold decodeCommand decodeFields at h
  split at h <;> (try split at h) <;> simp [whenZero_eq_ok, withReg_eq_ok] at h
  obtain ⟨-, -, hn, hd⟩ := h
  exact ⟨‹_›, hn.symm, hd.symm⟩

/-- A BitBuffer load owns its header and the words the header announces (R83). -/
theorem cmdlen_bload {w : Word} {ws : List Word} {n : Nat} (ho : (fieldsOf w).opc = 0x0A#8)
    (h : cmdlen (w :: ws) = some n) :
    ∃ hi lo rest, ws = hi :: lo :: rest ∧ n = 3 + ceilDiv (headerValue hi lo) 32 := by
  match ws with
  | [] | [_] => simp [cmdlen, ho] at h
  | hi :: lo :: rest => exact ⟨hi, lo, rest, rfl, by simpa [cmdlen, ho] using h.symm⟩

/-- A text load owns its header and one word per code point (R83). -/
theorem cmdlen_tload {w : Word} {ws : List Word} {n : Nat} (ho : (fieldsOf w).opc = 0x0C#8)
    (h : cmdlen (w :: ws) = some n) :
    ∃ hi lo rest, ws = hi :: lo :: rest ∧ n = 3 + headerValue hi lo := by
  match ws with
  | [] | [_] => simp [cmdlen, ho] at h
  | hi :: lo :: rest => exact ⟨hi, lo, rest, rfl, by simpa [cmdlen, ho] using h.symm⟩

/-- The header of a payload is that of the stream the payload was taken from. -/
theorem payloadHead_of_append {p rest tl : List Word} {hi lo : Word} (hp : 2 ≤ p.length)
    (h : p ++ rest = hi :: lo :: tl) : (payloadHead p).toNat = headerValue hi lo := by
  match p with
  | [] | [_] => simp at hp
  | a :: b :: p =>
    obtain ⟨rfl, rfl, -⟩ : a = hi ∧ b = lo ∧ p ++ rest = tl := by simpa using h
    rfl

/-- An instruction decoded from a command that is all there is well-formed: its data words are those `cmdlen` counted
from the header (R83, R92). -/
theorem wf_of_decodeCommand {w : Word} {p rest : List Word} {i : Instr}
    (hl : cmdlen (w :: (p ++ rest)) = some (p.length + 1)) (h : decodeCommand w p = .ok i) : i.wf = true := by
  cases i
  case bload rd n data =>
    obtain ⟨ho, rfl, rfl⟩ := decodeCommand_eq_bload h
    obtain ⟨hi, lo, tl, htl, hlen⟩ := cmdlen_bload ho hl
    have hhead := payloadHead_of_append (by omega) htl
    simp only [Instr.wf, hhead, List.length_drop, beq_iff_eq]
    unfold ceilDiv at hlen
    omega
  case tload rd n data =>
    obtain ⟨ho, rfl, rfl⟩ := decodeCommand_eq_tload h
    obtain ⟨hi, lo, tl, htl, hlen⟩ := cmdlen_tload ho hl
    have hhead := payloadHead_of_append (by omega) htl
    simp only [Instr.wf, hhead, List.length_drop, beq_iff_eq]
    omega
  all_goals rfl

end Sys2Proof
end

section
/-! What a fetch says of the head of CIN (spec/30_encoding R84, R85). -/

namespace Sys2Proof.Machine

/-- The CORE holds exactly while the decoder finds no whole command (R84, R292). -/
theorem fetch_hold_iff (s : State) : fetch s = .hold ↔ decode s.cin = .incomplete := by
  rcases fetch_cases s with ⟨hc, hf⟩ | ⟨w, p, rest, hc, hf⟩
  · simp [hf, decode, hc]
  · have hne : decode s.cin ≠ .incomplete := by
      simp only [decode, hc]
      cases decodeCommand w p <;> simp
    rcases hf with ⟨-, -, hf⟩ | ⟨-, -, hf⟩ | ⟨-, _, -, hf⟩ | ⟨-, _, -, hf⟩ <;> simp [hf, hne]

/-- The number of words a fetched command owns; none while the CORE holds. -/
def Fetched.length : Fetched → Option Nat
  | .hold => none
  | .skip n | .reject _ n | .run _ n => some n

/-- The words of a fetched command are those `cmdlen` counts, and they are all there (R83, R84). -/
theorem cmdlen_of_fetch_length {s : State} {n : Nat} (h : (fetch s).length = some n) :
    1 ≤ n ∧ cmdlen s.cin = some n ∧ n ≤ s.cin.length := by
  rcases fetch_cases s with ⟨-, hf⟩ | ⟨w, p, rest, hc, hf⟩
  · simp [hf, Fetched.length] at h
  · obtain ⟨hl, hcin⟩ := takeCommand_eq_some hc
    have hn : n = p.length + 1 := by
      rcases hf with ⟨-, -, hf⟩ | ⟨-, -, hf⟩ | ⟨-, _, -, hf⟩ | ⟨-, _, -, hf⟩ <;>
        simpa [hf, Fetched.length] using h.symm
    exact ⟨by omega, hn ▸ hl, by simp [hcin, hn]⟩

theorem flt_of_fetch_skip {s : State} {n : Nat} (h : fetch s = .skip n) : s.flt = true := by
  rcases fetch_cases s with ⟨-, hf⟩ | ⟨w, p, rest, -, ⟨hs, -, hf⟩ | ⟨hs, -, hf⟩ | ⟨hs, _, -, hf⟩ | ⟨hs, _, -, hf⟩⟩ <;>
    simp_all

/-- The instruction a step performs: the decoded one, or `CLRERR` while the CORE is faulted (R84, R85). -/
theorem fetch_run {s : State} {i : Instr} {n : Nat} (h : fetch s = .run i n) :
    i.wf = true ∧ ((s.flt = false ∧ ∃ rest, decode s.cin = .instr i rest) ∨ (s.flt = true ∧ i = .clrerr)) := by
  rcases fetch_cases s with ⟨-, hf⟩ | ⟨w, p, rest, hc, ⟨hs, -, hf⟩ | ⟨hs, -, hf⟩ | ⟨hs, j, hd, hf⟩ | ⟨hs, _, -, hf⟩⟩ <;>
    rw [hf] at h <;> cases h
  · exact ⟨rfl, .inr ⟨hs, rfl⟩⟩
  · obtain ⟨hl, hcin⟩ := takeCommand_eq_some hc
    exact ⟨wf_of_decodeCommand (hcin ▸ hl) hd, .inl ⟨hs, rest, by simp [decode, hc, hd]⟩⟩

end Sys2Proof.Machine
end

section
/-! The frame of every command, and what a step does to `CP`, CIN and `KRDY` (spec/10_state R36, R39, R53). -/

namespace Sys2Proof.Machine

/-! ## Retiring: `KRDY` and nothing else (R36) -/

section

variable (i : Instr) (s : State)

theorem retire_eq : retire i s = { s with krdy := s.krdy || isHashFamily i } := by
  unfold retire
  cases isHashFamily i <;> simp [setKrdy]

@[simp] theorem getX_retire (j : XReg) : getX (retire i s) j = getX s j := by simp [retire_eq, getX]
@[simp] theorem getB_retire (j : BReg) : getB (retire i s) j = getB s j := by simp [retire_eq, getB]
@[simp] theorem getT_retire (j : TReg) : getT (retire i s) j = getT s j := by simp [retire_eq, getT]
@[simp] theorem getS_retire (j : SCtx) : getS (retire i s) j = getS s j := by simp [retire_eq, getS]
@[simp] theorem getM_retire (j : MCtx) : getM (retire i s) j = getM s j := by simp [retire_eq, getM]
@[simp] theorem retire_cp : (retire i s).cp = s.cp := by simp [retire_eq]
@[simp] theorem retire_cin : (retire i s).cin = s.cin := by simp [retire_eq]
@[simp] theorem retire_rout : (retire i s).rout = s.rout := by simp [retire_eq]
@[simp] theorem retire_flt : (retire i s).flt = s.flt := by simp [retire_eq]
@[simp] theorem retire_errkind : (retire i s).errkind = s.errkind := by simp [retire_eq]
@[simp] theorem retire_errdet : (retire i s).errdet = s.errdet := by simp [retire_eq]
@[simp] theorem retire_errcp : (retire i s).errcp = s.errcp := by simp [retire_eq]
@[simp] theorem retire_krdy : (retire i s).krdy = (s.krdy || isHashFamily i) := by simp [retire_eq]

end

/-! ## Read after write, whichever register is read -/

theorem getX_setX (i j : XReg) (v : DWord) (s : State) : getX (setX i v s) j = if i = j then v else getX s j := by
  split
  · subst j; exact getX_setX_same ..
  · exact getX_setX_ne (Ne.symm ‹_›) ..

theorem getB_setB (i j : BReg) (v : BitString) (s : State) : getB (setB i v s) j = if i = j then v else getB s j := by
  split
  · subst j; exact getB_setB_same ..
  · exact getB_setB_ne (Ne.symm ‹_›) ..

theorem getT_setT (i j : TReg) (v : Text) (s : State) : getT (setT i v s) j = if i = j then v else getT s j := by
  split
  · subst j; exact getT_setT_same ..
  · exact getT_setT_ne (Ne.symm ‹_›) ..

theorem getS_setS (i j : SCtx) (c : HashCtx) (s : State) : getS (setS i c s) j = if i = j then c else getS s j := by
  split
  · subst j; exact getS_setS_same ..
  · exact getS_setS_ne (Ne.symm ‹_›) ..

theorem getM_setM (i j : MCtx) (c : HmacCtx) (s : State) : getM (setM i c s) j = if i = j then c else getM s j := by
  split
  · subst j; exact getM_setM_same ..
  · exact getM_setM_ne (Ne.symm ‹_›) ..

/-! ## The frame of every command (R53) -/

/-- Settles O18: each way a command can end writes only the registers its row marks. -/
theorem onlyListedStateIsWritten : Obligations.OnlyListedStateIsWritten := by
  intro i s t h
  rcases exec_cases h with ⟨f, hf, rfl⟩ | ⟨rd, v, hX, -, -, -, -, -, rfl⟩ | ⟨rd, v, -, hB, -, -, -, -, rfl⟩ |
      ⟨rd, v, -, -, hT, -, -, -, rfl⟩ | ⟨rd, c, -, -, -, hS, -, -, rfl⟩ | ⟨rd, c, -, -, -, -, hM, -, rfl⟩ |
      ⟨ra, rd, c, v, -, hB, -, hS, -, -, rfl⟩ | ⟨ra, rd, c, v, -, hB, -, -, hM, -, rfl⟩ |
      ⟨ws, -, -, -, -, -, hstore, rfl⟩ | ⟨rfl, rfl⟩ | ⟨rfl, rfl⟩
  · simp only [getX_takeFault, getB_takeFault, getT_takeFault, getS_takeFault, getM_takeFault, takeFault_rout,
      takeFault_krdy, takeFault_cp, takeFault_cin, implies_true, true_and]
    exact .inl ⟨f, hf, rfl⟩
  · simp +contextual [hX, getX_setX]
  · simp +contextual [hB, getB_setB]
  · simp +contextual [hT, getT_setT]
  · simp +contextual [hS, getS_setS]
  · simp +contextual [hM, getM_setM]
  · simp +contextual [hB, hS, getB_setB, getS_setS]
  · simp +contextual [hB, hM, getB_setB, getM_setM]
  · simp +contextual [hstore]
  · simp
  · simp

/-- `KRDY` after a command: set if it retired and belongs to a hash family (R36). -/
theorem exec_krdy {i : Instr} {s t : State} (hs : s.flt = false) (h : exec i s = .next t) :
    t.krdy = (s.krdy || isHashFamily i && !t.flt) := by
  rcases exec_cases h with ⟨f, -, rfl⟩ | ⟨_, _, -, -, -, -, -, -, rfl⟩ | ⟨_, _, -, -, -, -, -, -, rfl⟩ |
      ⟨_, _, -, -, -, -, -, -, rfl⟩ | ⟨_, _, -, -, -, -, -, -, rfl⟩ | ⟨_, _, -, -, -, -, -, -, rfl⟩ |
      ⟨_, _, _, _, -, -, -, -, -, -, rfl⟩ | ⟨_, _, _, _, -, -, -, -, -, -, rfl⟩ | ⟨_, -, -, -, -, -, -, rfl⟩ |
      ⟨rfl, rfl⟩ | ⟨rfl, rfl⟩ <;> simp [hs, isHashFamily]

/-! ## What a step does to `CP`, CIN and `KRDY` -/

/-- Settles O12: `exec` leaves `CP` and CIN alone, and `advance` moves both by the words of the fetched command. -/
theorem stepMovesPointer : Obligations.StepMovesPointer := by
  intro s t h
  rcases step_cases h with ⟨hf, rfl⟩ | ⟨n, hf, rfl⟩ | ⟨f, n, hf, rfl⟩ | ⟨i, n, u, hf, hu, rfl⟩
  · exact .inl ⟨(fetch_hold_iff _).1 hf, rfl⟩
  all_goals
    obtain ⟨hpos, hlen, hall⟩ := cmdlen_of_fetch_length (s := s) (n := n) (by rw [hf]; rfl)
    refine .inr ⟨n, hpos, hlen, hall, ?_⟩
  · exact ⟨rfl, rfl⟩
  · exact ⟨rfl, rfl⟩
  · obtain ⟨-, -, -, -, -, -, -, hcp, hcin, -⟩ := onlyListedStateIsWritten i s u hu
    simp [hcp, hcin]

/-- Settles O16, by what the step fetched: only a performed command of a hash family that takes no fault sets `KRDY`. -/
theorem krdyRecordsFirstUse : Obligations.KrdyRecordsFirstUse := by
  intro s t h
  rcases step_cases h with ⟨hf, rfl⟩ | ⟨n, hf, rfl⟩ | ⟨f, n, hf, rfl⟩ | ⟨i, n, u, hf, hu, rfl⟩
  · have hd := (fetch_hold_iff _).1 hf
    simp +contextual [hd]
  · simp +contextual [flt_of_fetch_skip hf]
  · simp +contextual
  · obtain ⟨-, ⟨hs, rest, hd⟩ | ⟨hs, rfl⟩⟩ := fetch_run hf
    · simp +contextual [exec_krdy hs hu, hs, hd, and_comm]
    · cases hu
      simp +contextual [hs]

end Sys2Proof.Machine
end

section
/-! Two runs from states that differ in one component: `KRDY` (spec/10_state R36), the contexts under PBKDF2 (R49). -/

namespace Sys2Proof.Machine

/-- A function on the next state, if there is one. -/
def mapNext (f : State → State) : Result → Result
  | .next s => .next (f s)
  | .fault r => .fault r
  | .refused r => .refused r

@[simp] theorem mapNext_next (f : State → State) (s : State) : mapNext f (.next s) = .next (f s) := rfl

theorem mapNext_eq_next {f : State → State} {r : Result} {t : State} (h : mapNext f r = .next t) :
    ∃ u, r = .next u ∧ f u = t := by
  cases r with
  | next u => exact ⟨u, rfl, by simpa using h⟩
  | fault r => cases h
  | refused r => cases h

theorem mapNext_ite (f : State → State) (p : Prop) [Decidable p] (r q : Result) :
    mapNext f (if p then r else q) = if p then mapNext f r else mapNext f q :=
  apply_ite (mapNext f) p r q

/-- The state with another value of `KRDY`. -/
def withKrdy (k : Bool) (s : State) : State := { s with krdy := k }

/-- States equal but for `KRDY`. -/
theorem eq_withKrdy {s t : State} (h : withKrdy false s = withKrdy false t) : s = withKrdy s.krdy t := by
  cases s; cases t; cases h; rfl

@[simp] theorem getX_withKrdy (k : Bool) (s : State) (j : XReg) : getX (withKrdy k s) j = getX s j := rfl
@[simp] theorem getB_withKrdy (k : Bool) (s : State) (j : BReg) : getB (withKrdy k s) j = getB s j := rfl
@[simp] theorem getT_withKrdy (k : Bool) (s : State) (j : TReg) : getT (withKrdy k s) j = getT s j := rfl

/-- No command but `RDSR` of `STATUS` reads `KRDY` (R36): every test and every value it writes is the same,
whatever `KRDY` holds. -/
theorem exec_withKrdy {i : Instr} (k : Bool) (s : State) (hi : ∀ rd, i ≠ .rdsr rd .status) :
    mapNext (withKrdy false) (exec i (withKrdy k s)) = mapNext (withKrdy false) (exec i s) := by
  cases i
  case rdsr rd sr =>
    cases sr with
    | status => exact absurd rfl (hi rd)
    | _ => rfl
  case bload | tload | bext | bcat | btrunc | hmdig | hmrst | derive =>
    simp only [exec, execBload, execTload, execBext, execBcat, execBtrunc, execHmdig, execHmrst, execDerive,
      mapNext_ite]
    rfl
  case bslice | bsliceE => simp only [exec, execBslice, execBsliceE, sliceInto, mapNext_ite]; rfl
  case u8enc | b64enc => simp only [exec, execU8enc, execB64enc, fitB, fitT, mapNext_ite]; rfl
  case shaupd | shaupdT => simp only [exec, execShaupd, execShaupdT, shaUpdateInto, mapNext_ite]; rfl
  case hmupd | hmupdT => simp only [exec, execHmupd, execHmupdT, hmacUpdateInto, mapNext_ite]; rfl
  case hmmac | hmmacT => simp only [exec, execHmmac, execHmmacT, hmacMacInto, mapNext_ite]; rfl
  case pbkdf2 | pbkdf2Dc => simp only [exec, execPbkdf2, execPbkdf2Dc, pbkdf2Into, mapNext_ite]; rfl
  case bgvc => simp only [exec, execBgvc, mapNext_ite]; rfl
  case bmkp rd ra rb shifted =>
    simp only [exec, execBmkp, mapNext_ite]
    simp only [getX_withKrdy]
    cases packPayload (getX s ra).toNat (getX s rb).toNat shifted <;> rfl
  case u8dec rd ra =>
    simp only [exec, execU8dec, getB_withKrdy]
    cases utf8Dec (getB s ra)
    · rfl
    · simp only [fitT, mapNext_ite]; rfl
  case b64dec rd ra url =>
    simp only [exec, execB64dec, getT_withKrdy]
    cases b64Dec (getT s ra) url
    · rfl
    · simp only [fitB, mapNext_ite]; rfl
  all_goals rfl

theorem fetch_withKrdy (k : Bool) (s : State) : fetch (withKrdy k s) = fetch s := rfl

/-- Settles O17: a step from a state with another `KRDY` fetches the same, and no command it can run reads `KRDY`. -/
theorem nothingDependsOnKrdy : Obligations.NothingDependsOnKrdy := by
  intro s t k h hstatus
  change ∃ k', step (withKrdy k s) = .next (withKrdy k' t)
  rcases step_cases h with ⟨hf, ht⟩ | ⟨n, hf, ht⟩ | ⟨f, n, hf, ht⟩ | ⟨i, n, u, hf, hu, ht⟩ <;>
    simp only [step, fetch_withKrdy, hf, ht]
  · exact ⟨k, rfl⟩
  · exact ⟨k, rfl⟩
  · exact ⟨k, rfl⟩
  · have hi : ∀ rd, i ≠ .rdsr rd .status := by
      rintro rd rfl
      obtain ⟨-, ⟨-, rest, hd⟩ | ⟨-, hi⟩⟩ := fetch_run hf
      · exact hstatus rd rest hd
      · cases hi
    have he := exec_withKrdy k s hi
    rw [hu, mapNext_next] at he
    obtain ⟨v, hv, hvu⟩ := mapNext_eq_next he
    rw [hv, eq_withKrdy hvu]
    exact ⟨v.krdy, rfl⟩

/-- The state with other hash and HMAC contexts. -/
def withContexts (hs : Vector HashCtx 4) (ms : Vector HmacCtx 2) (s : State) : State := { s with s := hs, m := ms }

/-- The PBKDF2 commands have no `Sd` or `Md` operand, and none of their tests and values is of a context (R49, R230). -/
theorem exec_withContexts {i : Instr}
    (hi : mnemonicOf i = "PBKDF2" ∨ mnemonicOf i = "PBKDF2.DC" ∨ mnemonicOf i = "DERIVE")
    (hs : Vector HashCtx 4) (ms : Vector HmacCtx 2) (s : State) :
    exec i (withContexts hs ms s) = mapNext (withContexts hs ms) (exec i s) := by
  cases i
  case pbkdf2 | pbkdf2Dc => simp only [exec, execPbkdf2, execPbkdf2Dc, pbkdf2Into, mapNext_ite]; rfl
  case derive => simp only [exec, execDerive, mapNext_ite]; rfl
  all_goals simp [mnemonicOf] at hi

/-- A command whose row marks no hash and no HMAC context leaves both files as they are. -/
theorem exec_keeps_contexts {i : Instr} {s t : State} (hS : destS i = none) (hM : destM i = none)
    (h : exec i s = .next t) : t.s = s.s ∧ t.m = s.m := by
  obtain ⟨-, -, -, hs, hm, -⟩ := onlyListedStateIsWritten i s t h
  exact ⟨Vector.ext fun j hj => hs ⟨j, hj⟩ (by simp [hS]), Vector.ext fun j hj => hm ⟨j, hj⟩ (by simp [hM])⟩

/-- Settles O19: the command runs alike over any contexts, and its row marks none as written. -/
theorem pbkdf2UsesNoContext : Obligations.Pbkdf2UsesNoContext := by
  intro i s t hs ms hi h
  have hnone : destS i = none ∧ destM i = none := by
    cases i <;> simp [mnemonicOf, destS, destM] at hi ⊢
  refine ⟨?_, exec_keeps_contexts hnone.1 hnone.2 h⟩
  change exec i (withContexts hs ms s) = _
  rw [exec_withContexts hi, h]
  rfl

end Sys2Proof.Machine
end

section
/-! Groups of bits and the word form (spec/10_state R24 to R26). -/

namespace Sys2Proof.Machine

/-! ## Groups of bits -/

theorem chunks_append (n k : Nat) {a : BitString} (b : BitString) (h : n * k ≤ a.length) :
    chunks n k (a ++ b) = chunks n k a := by
  induction k generalizing a with
  | zero => rfl
  | succ k ih =>
    rw [Nat.mul_succ] at h
    rw [chunks, chunks, List.take_append_of_le_length (by omega), List.drop_append_of_le_length (by omega),
      ih (by rw [List.length_drop]; omega)]

theorem chunks_add (n k m : Nat) (a : BitString) :
    chunks n (k + m) a = chunks n k a ++ chunks n m (a.drop (n * k)) := by
  induction k generalizing a with
  | zero => simp [chunks]
  | succ k ih =>
    rw [Nat.add_right_comm, chunks, ih, chunks, List.drop_drop, List.cons_append, Nat.mul_succ, Nat.add_comm n]

theorem getElem?_chunks {n k j : Nat} (h : j < k) (a : BitString) :
    (chunks n k a)[j]? = some ((a.drop (n * j)).take n) := by
  induction k generalizing a j with
  | zero => omega
  | succ k ih =>
    cases j with
    | zero => simp [chunks]
    | succ j => simp [chunks, ih (show j < k by omega), Nat.mul_succ, Nat.add_comm]

/-! ## The word form (R24 to R26) -/

theorem be_getD {n r : Nat} (v : Nat) (h : r < n) : (be n v).getD r false = v.testBit (n - 1 - r) := by
  induction n generalizing r with
  | zero => omega
  | succ n ih =>
    cases r with
    | zero => simp [be]
    | succ r => rw [be, List.getD_cons_succ, ih (by omega), Nat.add_sub_cancel, Nat.sub_right_comm, Nat.sub_sub]

/-- Bit `31 - r` of a word made of 32 bits is the bit at position `r` (R26). -/
theorem bitsWord_getLsbD {a : BitString} {r : Nat} (ha : a.length = 32) (hr : r < 32) :
    (bitsWord a).getLsbD (31 - r) = a.getD r false := by
  calc (bitsWord a).getLsbD (31 - r) = (wordBits (bitsWord a)).getD r false := (be_getD _ hr).symm
    _ = a.getD r false := by rw [wordBits_bitsWord ha]

theorem toWords_length (a : BitString) : (toWords a).length = ceilDiv a.length 32 := by simp [toWords]

/-- Zero bits behind a bit string read like the positions beyond it. -/
theorem getD_append_zeros (a : BitString) (n i : Nat) : (a ++ zeros n).getD i false = a.getD i false := by
  rcases Nat.lt_or_ge i a.length with hi | hi
  · exact List.getD_append _ _ _ _ hi
  · rw [List.getD_append_right _ _ _ _ hi, List.getD_eq_default _ _ hi, zeros, List.getD_eq_getElem?_getD,
      List.getElem?_getD_replicate_default_eq]

/-- The position mapping of R26; positions beyond the bit string read zero, as spare bits and as missing words. -/
theorem toWords_getLsbD (a : BitString) (i : Nat) :
    ((toWords a).getD (i / 32) 0).getLsbD (31 - i % 32) = a.getD i false := by
  rcases Nat.lt_or_ge (i / 32) (ceilDiv a.length 32) with hi | hi
  · have hr : i % 32 < 32 := Nat.mod_lt _ (by norm_num)
    have hlen : (a ++ zeros (32 * ceilDiv a.length 32 - a.length)).length = 32 * ceilDiv a.length 32 := by
      rw [List.length_append, zeros_length]; unfold ceilDiv; omega
    rw [toWords, List.getD_eq_getElem?_getD, List.getElem?_map, getElem?_chunks hi, Option.map_some, Option.getD_some,
      bitsWord_getLsbD (by rw [List.length_take, List.length_drop, hlen]; omega) hr, List.getD_eq_getElem?_getD,
      List.getElem?_take_of_lt hr, List.getElem?_drop, Nat.div_add_mod, ← List.getD_eq_getElem?_getD, getD_append_zeros]
  · have hbeyond : a.length ≤ i := by unfold ceilDiv at hi; omega
    rw [List.getD_eq_default _ _ (by rwa [toWords_length]), List.getD_eq_default _ _ hbeyond]
    exact BitVec.getLsbD_zero

/-- The length formula of R25 gives the length. -/
theorem wordFormLen_wordForm (a : BitString) : wordFormLen (wordForm a) = a.length := by
  simp only [wordFormLen, wordForm, toWords_length]
  unfold ceilDiv
  omega

/-- The word form loses nothing: it has the length and, by the position mapping, every bit. -/
theorem wordForm_injective {a b : BitString} (h : wordForm a = wordForm b) : a = b := by
  have hlen : a.length = b.length := by rw [← wordFormLen_wordForm a, h, wordFormLen_wordForm]
  have hwords : toWords a = toWords b := congrArg WordForm.words h
  refine List.ext_getElem hlen fun i hi hi' => ?_
  rw [← List.getD_eq_getElem a false hi, ← List.getD_eq_getElem b false hi', ← toWords_getLsbD, hwords, toWords_getLsbD]

/-- Bits `31 - lv` down to 0 of the last word are spare, and zero (R26). -/
theorem wordForm_spare_bits {a : BitString} {j : Nat} (hj : j < 32 - (wordForm a).lv) :
    ((wordForm a).words.getLastD 0).getLsbD j = false := by
  have hlast : ((wordForm a).words.getLastD 0) = (toWords a).getD (ceilDiv a.length 32 - 1) 0 := by
    rw [wordForm, List.getLastD_eq_getLast?, List.getLast?_eq_getElem?, List.getD_eq_getElem?_getD, toWords_length]
  have hpos := toWords_getLsbD a (32 * (ceilDiv a.length 32 - 1) + (31 - j))
  rw [List.getD_eq_default a, Nat.mul_add_div (by norm_num), Nat.mul_add_mod, Nat.div_eq_of_lt (by omega),
    Nat.mod_eq_of_lt (by omega), Nat.sub_sub_self (by omega), Nat.add_zero] at hpos
  · rwa [hlast]
  · simp only [wordForm, ceilDiv] at hj ⊢
    omega

/-- Settles O32, by the position mapping. -/
theorem wordFormIsCanonical : Obligations.WordFormIsCanonical := by
  intro a b
  refine ⟨toWords_length a, fun ha => ?_, wordFormLen_wordForm a, fun i _ => toWords_getLsbD a i,
    fun j hj => wordForm_spare_bits hj, wordForm_injective, congrArg wordForm⟩
  have hpos := List.length_pos_iff.2 ha
  simp only [wordForm, ceilDiv]
  omega

end Sys2Proof.Machine
end

section
/-! The tables of SHA-256 (spec/10_state R33 to R35). -/

namespace Sys2Proof.Machine

/-- The list of primes is what a sieve of the numbers up to 311 leaves. -/
theorem firstPrimes_eq_filter : firstPrimes = (List.range 312).filter fun n => decide n.Prime := by decide +kernel

/-- Each round constant stands behind the whole part, at most 6, of the cube root of its prime (R35). -/
theorem roundConstants_cube_roots : ∀ i < 64, ∃ q < 7,
    let r := q * 2 ^ 32 + (roundConstants.getD i 0).toNat
    r ^ 3 ≤ firstPrimes.getD i 0 * 2 ^ 96 ∧ firstPrimes.getD i 0 * 2 ^ 96 < (r + 1) ^ 3 := by decide +kernel

/-- Each initial digest word stands behind the whole part, at most 4, of the square root of its prime (R35). -/
theorem initWords_square_roots : ∀ i < 8, ∃ q < 5,
    let h := [initWords.a, initWords.b, initWords.c, initWords.d, initWords.e, initWords.f, initWords.g, initWords.h]
    let r := q * 2 ^ 32 + (h.getD i 0).toNat
    r ^ 2 ≤ firstPrimes.getD i 0 * 2 ^ 64 ∧ firstPrimes.getD i 0 * 2 ^ 64 < (r + 1) ^ 2 := by decide +kernel

/-- Settles O45: the list of primes by its sieve, the words by their roots. -/
theorem constantsAreRoots : Obligations.ConstantsAreRoots := by
  refine ⟨rfl, rfl, fun p hp => ?_, ?_, fun q hq hle => ?_, fun i hi => ?_, fun i hi => ?_⟩
  · rw [firstPrimes_eq_filter] at hp
    exact of_decide_eq_true (List.mem_filter.1 hp).2
  · rw [firstPrimes_eq_filter]
    exact List.pairwise_lt_range.filter _
  · rw [firstPrimes_eq_filter]
    exact List.mem_filter.2 ⟨List.mem_range.2 (by omega), decide_eq_true hq⟩
  · obtain ⟨q, -, hq⟩ := roundConstants_cube_roots i hi
    exact ⟨q, hq⟩
  · obtain ⟨q, -, hq⟩ := initWords_square_roots i hi
    exact ⟨q, hq⟩

end Sys2Proof.Machine
end

section
/-! What hash and HMAC contexts hold after reset and updates (spec/10_state R30, R31, R37, R38), and what the invariant
says of them. -/

namespace Sys2Proof.Machine

/-! ## Hash contexts (R30, R31, R187, R188) -/

theorem dword_add (m n : Nat) : dword (m + n) = dword m + dword n := BitVec.ofNat_add m n

theorem shaUpdate_nil {c : HashCtx} (h : c.pend.length < 512) : shaUpdate c [] = c := by
  simp [shaUpdate, Nat.div_eq_of_lt h, compressBlocks, chunks, dword]

/-- Blocks compressed first, then the blocks of what is left with more bits behind it. -/
theorem compressBlocks_append {n m : Nat} (hw : HWords) {a : BitString} (b : BitString) (h : 512 * n ≤ a.length) :
    compressBlocks (n + m) hw (a ++ b) = compressBlocks m (compressBlocks n hw a) (a.drop (512 * n) ++ b) := by
  rw [compressBlocks, compressBlocks, compressBlocks, chunks_add, List.foldl_append, chunks_append _ _ _ h,
    List.drop_append_of_le_length h]

/-- Updating with two strings in turn is updating with both at once: the blocks compressed by the first are the first
blocks of the whole, whatever was pending (R188). -/
theorem shaUpdate_append (c : HashCtx) (a b : BitString) : shaUpdate (shaUpdate c a) b = shaUpdate c (a ++ b) := by
  have hp : 512 * ((c.pend ++ a).length / 512) ≤ (c.pend ++ a).length := Nat.mul_div_le ..
  have hblocks : (c.pend ++ a ++ b).length / 512 = (c.pend ++ a).length / 512 +
      ((c.pend ++ a).drop (512 * ((c.pend ++ a).length / 512)) ++ b).length / 512 := by
    rw [List.length_append (bs := b), List.length_append (bs := b), List.length_drop]
    omega
  simp only [shaUpdate, ← List.append_assoc]
  rw [hblocks, compressBlocks_append _ _ hp, Nat.mul_add, ← List.drop_drop, List.drop_append_of_le_length hp,
    List.length_append (as := a), dword_add, BitVec.add_assoc]

@[simp] theorem shaReset_pend : shaReset.pend = [] := rfl
@[simp] theorem shaReset_len : shaReset.len = 0#64 := rfl

theorem dword_toNat {n : Nat} (h : n < 2 ^ 64) : (dword n).toNat = n := Nat.mod_eq_of_lt h

theorem absorbed_nil : Absorbed [] HashCtx.initial := ⟨by simp, (shaUpdate_nil (c := shaReset) (by simp)).symm⟩

theorem Absorbed.len_toNat {msg : BitString} {c : HashCtx} (h : Absorbed msg c) : c.len.toNat = msg.length := by
  obtain ⟨hlt, rfl⟩ := h
  rw [shaUpdate_len, shaReset_len, BitVec.zero_add, dword_toNat hlt]

theorem Absorbed.pend_length {msg : BitString} {c : HashCtx} (h : Absorbed msg c) :
    c.pend.length = msg.length % 512 := by
  obtain ⟨-, rfl⟩ := h
  rw [shaUpdate_pend_length, shaReset_pend, List.length_nil, Nat.zero_add]

theorem lenOverflows_eq_false {c : HashCtx} {d : BitString} :
    lenOverflows c d = false ↔ c.len.toNat + d.length < 2 ^ 64 := by
  simp [lenOverflows]

/-- An update that is not refused absorbs its data after what was given before (R193). -/
theorem Absorbed.update {msg d : BitString} {c : HashCtx} (h : Absorbed msg c) (hd : lenOverflows c d = false) :
    Absorbed (msg ++ d) (shaUpdate c d) := by
  rw [lenOverflows_eq_false, h.len_toNat] at hd
  obtain ⟨-, rfl⟩ := h
  exact ⟨by rwa [List.length_append], shaUpdate_append ..⟩

/-! ## HMAC contexts (R37, R38) -/

theorem hmacKey_fst_pend (key : BitString) : (hmacKey key).1.pend = [] :=
  List.eq_nil_of_length_eq_zero (by simp [hmacKey, shaUpdate_pend_length])

theorem hmacKey_snd_pend (key : BitString) : (hmacKey key).2.pend = [] :=
  List.eq_nil_of_length_eq_zero (by simp [hmacKey, shaUpdate_pend_length])

theorem hmacKey_fst_len (key : BitString) : (hmacKey key).1.len = 512 := by simp [hmacKey, shaUpdate_len, dword]

theorem hmacKey_snd_len (key : BitString) : (hmacKey key).2.len = 512 := by simp [hmacKey, shaUpdate_len, dword]

/-- Nothing given to a base leaves the base. -/
theorem shaUpdate_hmacKey_nil (key : BitString) : shaUpdate (hmacKey key).1 [] = (hmacKey key).1 :=
  shaUpdate_nil (by simp [hmacKey_fst_pend])

/-- A keyed context whose working context is a clone of the inner base has been given nothing (R211, R215). -/
theorem keyed_fresh {key : BitString} {c : HmacCtx} (hk : c.keyed = true) (hib : c.ib = (hmacKey key).1)
    (hob : c.ob = (hmacKey key).2) (hw : c.w = c.ib) : Keyed key [] c :=
  ⟨hk, hib, hob, by simp, by rw [hw, hib, shaUpdate_hmacKey_nil], fun _ => rfl⟩

theorem Keyed.w_len_toNat {key msg : BitString} {c : HmacCtx} (h : Keyed key msg c) :
    c.w.len.toNat = 512 + msg.length := by
  obtain ⟨-, hib, -, hlt, hw, -⟩ := h
  rw [hw, hib, shaUpdate_len, hmacKey_fst_len, show (512 : DWord) = dword 512 from rfl, ← dword_add, dword_toNat hlt]

/-- An update that is not refused advances the working context by its data (R218). -/
theorem Keyed.update {key msg d : BitString} {c : HmacCtx} (h : Keyed key msg c) (hd : lenOverflows c.w d = false) :
    Keyed key (msg ++ d) { c with w := hmacUpdate c.w d, upd := true } := by
  rw [lenOverflows_eq_false, h.w_len_toNat] at hd
  obtain ⟨hk, hib, hob, -, hw, -⟩ := h
  exact ⟨hk, hib, hob, by rw [List.length_append]; omega, by simp only [hmacUpdate, hw, shaUpdate_append], by simp⟩

/-- A working context set back to the inner base starts afresh with the same key (R213, R223). -/
theorem Keyed.refresh {key msg : BitString} {c : HmacCtx} (h : Keyed key msg c) :
    Keyed key [] { c with w := c.ib, upd := false } := by
  obtain ⟨hk, hib, hob, -⟩ := h
  exact keyed_fresh hk hib hob rfl

/-- Settles O25: what `Absorbed` and `Keyed` say of pending bits, lengths and flags. -/
theorem invariantGivesContextRules : Obligations.InvariantGivesContextRules := by
  intro s hinv
  refine ⟨fun i => ?_, fun i hk => ?_, fun i hk => ?_, fun i => ?_⟩
  · obtain ⟨msg, hmsg⟩ := hinv.hashes i
    rw [hmsg.pend_length, hmsg.len_toNat]
    exact ⟨Nat.mod_lt _ (by norm_num), rfl⟩
  · rcases hinv.macs i with hu | ⟨key, msg, -, hib, hob, -, hw, hfresh⟩
    · rw [hu] at hk; cases hk
    · rw [hib] at hw ⊢
      rw [hob]
      refine ⟨hmacKey_fst_pend key, hmacKey_fst_len key, hmacKey_snd_pend key, hmacKey_snd_len key, fun hupd => ?_⟩
      rw [hw, hfresh hupd, shaUpdate_hmacKey_nil]
  · rcases hinv.macs i with hu | ⟨key, msg, hkeyed, -⟩
    · exact hu
    · rw [hkeyed] at hk; cases hk
  · rcases hinv.macs i with hu | ⟨key, msg, hkeyed, -⟩
    · rw [hu]; decide
    · rw [mstatWord, hkeyed]
      cases (getM s i).upd <;> decide

end Sys2Proof.Machine
end

section
/-! The state after reset (spec/10_state R51) meets the invariant, and every step keeps it (R22, R23, R31, R38, R43). -/

namespace Sys2Proof.Machine

open Config

/-! ## Reset (R51) -/

@[simp] theorem getX_reset (j : XReg) : getX State.reset j = 0 := Vector.getElem_replicate j.isLt
@[simp] theorem getB_reset (j : BReg) : getB State.reset j = [] := Vector.getElem_replicate j.isLt
@[simp] theorem getT_reset (j : TReg) : getT State.reset j = [] := Vector.getElem_replicate j.isLt
@[simp] theorem getS_reset (j : SCtx) : getS State.reset j = HashCtx.initial := Vector.getElem_replicate j.isLt
@[simp] theorem getM_reset (j : MCtx) : getM State.reset j = HmacCtx.unkeyed := Vector.getElem_replicate j.isLt

/-- Settles O21, by what a read of each file answers after reset and the ranges of the two parameters. -/
theorem resetValues : Obligations.ResetValues := by
  refine ⟨getX_reset, getB_reset, getT_reset, getS_reset, fun j => ?_, rfl, rfl, rfl, rfl, rfl, rfl, rfl, rfl, rfl,
    ?_, ?_⟩
  · rw [getM_reset, getS_reset]
    exact ⟨rfl, rfl, rfl, rfl, rfl⟩
  · exact dword_toNat (capBits_lt.trans (by norm_num))
  · exact dword_toNat (capCp_le.trans_lt (by norm_num))

/-- Settles O22: every register is empty, every context initial, and no fault was taken. -/
theorem resetMeetsInvariant : Obligations.ResetMeetsInvariant where
  bitsFit r := by simp
  textFits r := by simp
  hashes i := ⟨[], by rw [getS_reset]; exact absorbed_nil⟩
  macs i := .inl (getM_reset i)
  faultCodes := .inr ⟨rfl, rfl, rfl, rfl⟩

/-! ## Lengths of what commands write -/

theorem slice_length_le (a : BitString) (s e : Nat) : (slice a s e).length ≤ a.length := by
  simp [slice]

theorem ofWords_length_le (n : Nat) (ws : List Word) : (ofWords n ws).length ≤ n := List.length_take_le ..

theorem pbkdf2Derive_length_le (p salt : BitString) (c l : Nat) : (pbkdf2Derive p salt c l).length ≤ l :=
  List.length_take_le ..

theorem b64Groups_length (a : BitString) (url : Bool) : (b64Groups a url).length = ceilDiv a.length 6 := by
  simp [b64Groups]

/-- Padding rounds the number of characters up to a multiple of four (R166). -/
theorem b64Enc_padded_length (a : BitString) (url : Bool) :
    (b64Enc a url false).length = 4 * ceilDiv (ceilDiv a.length 6) 4 := by
  simp only [b64Enc, Bool.false_eq_true, if_false, List.length_append, List.length_replicate, b64Groups_length, ceilDiv]
  omega

/-- The characters of at most `8 * n` bits fit where `DERIVE` checked that they do (R236). -/
theorem b64Enc_length_le {a : BitString} {n : Nat} (h : a.length ≤ 8 * n) (url : Bool) :
    (b64Enc a url false).length ≤ 4 * ceilDiv n 3 := by
  rw [b64Enc_padded_length]
  unfold ceilDiv
  omega

/-! ## What keeps the invariant -/

section

variable {s : State} (h : Inv s)

include h

theorem Inv.inv_advance (n : Nat) : Inv (advance n s) := ⟨h.bitsFit, h.textFits, h.hashes, h.macs, h.faultCodes⟩

theorem Inv.inv_takeFault (f : FaultCode) : Inv (takeFault f s) :=
  ⟨h.bitsFit, h.textFits, h.hashes, h.macs, .inl (faultPair_mem f)⟩

theorem Inv.inv_clearFault : Inv (clearFault s) :=
  ⟨h.bitsFit, h.textFits, h.hashes, h.macs, h.faultCodes.imp_right fun ⟨hk, hd, hc, _⟩ => ⟨hk, hd, hc, rfl⟩⟩

theorem Inv.inv_setKrdy : Inv (setKrdy s) := ⟨h.bitsFit, h.textFits, h.hashes, h.macs, h.faultCodes⟩

theorem Inv.inv_respond (ws : List Word) : Inv (respond ws s) := ⟨h.bitsFit, h.textFits, h.hashes, h.macs, h.faultCodes⟩

theorem Inv.inv_setX (rd : XReg) (v : DWord) : Inv (setX rd v s) :=
  ⟨h.bitsFit, h.textFits, h.hashes, h.macs, h.faultCodes⟩

theorem Inv.inv_setB (rd : BReg) {v : BitString} (hv : v.length ≤ capBits) : Inv (setB rd v s) where
  bitsFit r := by
    rw [getB_setB]
    split
    · exact hv
    · exact h.bitsFit r
  textFits := h.textFits
  hashes := h.hashes
  macs := h.macs
  faultCodes := h.faultCodes

theorem Inv.inv_setT (rd : TReg) {v : Text} (hv : v.length ≤ capCp) : Inv (setT rd v s) where
  bitsFit := h.bitsFit
  textFits r := by
    rw [getT_setT]
    split
    · exact hv
    · exact h.textFits r
  hashes := h.hashes
  macs := h.macs
  faultCodes := h.faultCodes

theorem Inv.inv_setS (rd : SCtx) {msg : BitString} {c : HashCtx} (hc : Absorbed msg c) : Inv (setS rd c s) where
  bitsFit := h.bitsFit
  textFits := h.textFits
  hashes i := by
    rw [getS_setS]
    split
    · exact ⟨msg, hc⟩
    · exact h.hashes i
  macs := h.macs
  faultCodes := h.faultCodes

theorem Inv.inv_setM (rd : MCtx) {key msg : BitString} {c : HmacCtx} (hc : Keyed key msg c) : Inv (setM rd c s) where
  bitsFit := h.bitsFit
  textFits := h.textFits
  hashes := h.hashes
  macs i := by
    rw [getM_setM]
    split
    · exact .inr ⟨key, msg, hc⟩
    · exact h.macs i
  faultCodes := h.faultCodes

/-- A context that the invariant allows and that is keyed has a key and a message. -/
theorem Inv.keyed {i : MCtx} (hk : (getM s i).keyed = true) : ∃ key msg, Keyed key msg (getM s i) := by
  rcases h.macs i with hu | hkm
  · rw [hu] at hk; cases hk
  · exact hkm

/-- A digest fits any B register: `CAP_BITS` is at least 512 (R8). -/
theorem Inv.inv_setB_digest (rd : BReg) {v : BitString} (hv : v.length = 256) : Inv (setB rd v s) :=
  h.inv_setB rd (by have := capBits_ge; omega)

end

/-- Whatever next state a result gives meets the invariant. -/
def LeavesInv (r : Result) : Prop := ∀ t, r = .next t → Inv t

theorem leavesInv_next {t : State} (h : Inv t) : LeavesInv (.next t) := by
  rintro _ ⟨⟩
  exact h

theorem leavesInv_ite {p : Prop} [Decidable p] {r q : Result} (hr : p → LeavesInv r) (hq : ¬p → LeavesInv q) :
    LeavesInv (if p then r else q) := by
  split
  · exact hr ‹_›
  · exact hq ‹_›

section

variable {s : State} (h : Inv s)

include h

theorem Inv.leavesInv_raise (f : FaultCode) : LeavesInv (raise f s) := leavesInv_next (h.inv_takeFault f)

theorem Inv.leavesInv_sliceInto (rd ra : BReg) (st en : Int) : LeavesInv (sliceInto rd ra st en s) :=
  leavesInv_ite (fun _ => leavesInv_next (h.inv_setB rd ((slice_length_le ..).trans (h.bitsFit ra))))
    fun _ => h.leavesInv_raise _

theorem Inv.leavesInv_fitB (rd : BReg) (r : BitString) : LeavesInv (fitB rd r s) :=
  leavesInv_ite (fun _ => h.leavesInv_raise _) fun hr => leavesInv_next (h.inv_setB rd (not_lt.1 hr))

theorem Inv.leavesInv_fitT (rd : TReg) (r : Text) : LeavesInv (fitT rd r s) :=
  leavesInv_ite (fun _ => h.leavesInv_raise _) fun hr => leavesInv_next (h.inv_setT rd (not_lt.1 hr))

theorem Inv.leavesInv_shaUpdateInto (rd : SCtx) (d : BitString) : LeavesInv (shaUpdateInto rd d s) := by
  obtain ⟨msg, hmsg⟩ := h.hashes rd
  exact leavesInv_ite (fun _ => h.leavesInv_raise _) fun hd =>
    leavesInv_next (h.inv_setS rd (hmsg.update (Bool.not_eq_true _ ▸ hd))).inv_setKrdy

theorem Inv.leavesInv_hmacUpdateInto (rd : MCtx) (d : BitString) : LeavesInv (hmacUpdateInto rd d s) := by
  refine leavesInv_ite (fun _ => h.leavesInv_raise _) fun hk =>
    leavesInv_ite (fun _ => h.leavesInv_raise _) fun hd => ?_
  obtain ⟨key, msg, hkm⟩ := h.keyed (Bool.not_eq_false _ ▸ hk)
  exact leavesInv_next (h.inv_setM rd (hkm.update (Bool.not_eq_true _ ▸ hd))).inv_setKrdy

/-- A digest into `B[rd]` and a fresh start of `M[ra]`, the end of `HMDIG` and of `HMMAC`. -/
theorem Inv.leavesInv_digest (rd : BReg) {ra : MCtx} {v : BitString} (hv : v.length = 256)
    (hk : ¬(getM s ra).keyed = false) :
    LeavesInv (.next
      (setKrdy (setM ra { getM s ra with w := (getM s ra).ib, upd := false } (setB rd v s)))) := by
  obtain ⟨key, msg, hkm⟩ := h.keyed (Bool.not_eq_false _ ▸ hk)
  exact leavesInv_next ((h.inv_setB_digest rd hv).inv_setM ra hkm.refresh).inv_setKrdy

theorem Inv.leavesInv_hmacMacInto (rd : BReg) (ra : MCtx) (d : BitString) : LeavesInv (hmacMacInto rd ra d s) :=
  leavesInv_ite (fun _ => h.leavesInv_raise _) fun hk => leavesInv_ite (fun _ => h.leavesInv_raise _) fun _ =>
    leavesInv_ite (fun _ => h.leavesInv_raise _) fun _ => h.leavesInv_digest rd (hmacMac_fst_length ..) hk

theorem Inv.leavesInv_pbkdf2Into (rd : BReg) (p salt : BitString) (c l : Int) :
    LeavesInv (pbkdf2Into rd p salt c l s) :=
  leavesInv_ite (fun _ => h.leavesInv_raise _) fun _ => leavesInv_ite (fun _ => h.leavesInv_raise _) fun _ =>
    leavesInv_ite (fun _ => h.leavesInv_raise _) fun hl =>
      leavesInv_next (h.inv_setB rd ((pbkdf2Derive_length_le ..).trans (by omega))).inv_setKrdy

theorem Inv.leavesInv_execDerive (rd ra rb : TReg) (rc re : XReg) : LeavesInv (execDerive rd ra rb rc re s) :=
  leavesInv_ite (fun _ => h.leavesInv_raise _) fun _ => leavesInv_ite (fun _ => h.leavesInv_raise _) fun _ =>
    leavesInv_ite (fun _ => h.leavesInv_raise _) fun hl => leavesInv_next
      (h.inv_setT rd ((b64Enc_length_le (pbkdf2Derive_length_le ..) _).trans (not_lt.1 hl))).inv_setKrdy

theorem Inv.inv_retire (i : Instr) : Inv (retire i s) := by
  unfold retire
  split
  · exact h.inv_setKrdy
  · exact h

/-- A command whose row marks at most an X register or ROUT keeps the invariant: neither is spoken of. -/
theorem Inv.leavesInv_exec_of_no_dest {i : Instr} (hB : destB i = none) (hT : destT i = none) (hS : destS i = none)
    (hM : destM i = none) : LeavesInv (exec i s) := by
  intro t he
  rcases exec_cases he with ⟨f, -, rfl⟩ | ⟨rd, v, -, -, -, -, -, -, rfl⟩ | ⟨_, _, -, hB', -⟩ | ⟨_, _, -, -, hT', -⟩ |
      ⟨_, _, -, -, -, hS', -⟩ | ⟨_, _, -, -, -, -, hM', -⟩ | ⟨_, _, _, _, -, hB', -⟩ | ⟨_, _, _, _, -, hB', -⟩ |
      ⟨ws, -, -, -, -, -, -, rfl⟩ | ⟨-, rfl⟩ | ⟨-, rfl⟩
  · exact h.inv_takeFault f
  · exact (h.inv_setX rd v).inv_retire i
  · simp [hB] at hB'
  · simp [hT] at hT'
  · simp [hS] at hS'
  · simp [hM] at hM'
  · simp [hB] at hB'
  · simp [hB] at hB'
  · exact (h.inv_respond ws).inv_retire i
  · exact h
  · exact h.inv_clearFault

/-- Every well-formed command keeps the invariant. A text load has to be well-formed, since its header is what is held
against `CAP_CP`. -/
theorem Inv.leavesInv_exec {i : Instr} (hwf : i.wf = true) : LeavesInv (exec i s) := by
  cases i
  case bload rd n data =>
    simp only [exec, execBload]
    exact leavesInv_ite (fun _ => h.leavesInv_raise _) fun hn =>
      leavesInv_next (h.inv_setB rd ((ofWords_length_le ..).trans (not_lt.1 hn)))
  case tload rd n data =>
    simp only [Instr.wf, beq_iff_eq] at hwf
    exact leavesInv_ite (fun _ => h.leavesInv_raise _) fun hn => leavesInv_ite
      (fun _ => leavesInv_next (h.inv_setT rd (by rw [List.length_map, hwf]; exact not_lt.1 hn)))
      fun _ => h.leavesInv_raise _
  case bslice => exact h.leavesInv_sliceInto _ _ _ _
  case bsliceE => exact h.leavesInv_sliceInto _ _ _ _
  case bcat rd ra rb =>
    simp only [exec, execBcat]
    exact leavesInv_ite (fun _ => h.leavesInv_raise _) fun hn =>
      leavesInv_next (h.inv_setB rd (by rw [List.length_append]; exact not_lt.1 hn))
  case btrunc rd ra rb =>
    exact leavesInv_ite (fun _ => h.leavesInv_raise _) fun _ =>
      leavesInv_next (h.inv_setB rd ((List.length_take_le' ..).trans (h.bitsFit ra)))
  case u8enc rd ra => exact h.leavesInv_fitB rd (utf8Enc (getT s ra))
  case b64enc => exact h.leavesInv_fitT _ _
  case u8dec rd ra =>
    simp only [exec, execU8dec]
    split
    · exact h.leavesInv_raise _
    · exact h.leavesInv_fitT _ _
  case b64dec rd ra url =>
    simp only [exec, execB64dec]
    split
    · exact h.leavesInv_raise _
    · exact h.leavesInv_fitB _ _
  case sharst rd => exact leavesInv_next (h.inv_setS rd absorbed_nil).inv_setKrdy
  case shaupd => exact h.leavesInv_shaUpdateInto _ _
  case shaupdT => exact h.leavesInv_shaUpdateInto _ _
  case shafin rd ra =>
    exact leavesInv_next ((h.inv_setB_digest rd (shaFinal_fst_length _)).inv_setS ra absorbed_nil).inv_setKrdy
  case shaclone rd ra =>
    obtain ⟨msg, hmsg⟩ := h.hashes ra
    exact leavesInv_next (h.inv_setS rd hmsg).inv_setKrdy
  case hmkey rd ra => exact leavesInv_next (h.inv_setM rd (keyed_fresh (key := getB s ra) rfl rfl rfl rfl)).inv_setKrdy
  case hmupd => exact h.leavesInv_hmacUpdateInto _ _
  case hmupdT => exact h.leavesInv_hmacUpdateInto _ _
  case hmdig rd ra =>
    exact leavesInv_ite (fun _ => h.leavesInv_raise _) (h.leavesInv_digest rd (hmacDigest_fst_length ..))
  case hmmac => exact h.leavesInv_hmacMacInto _ _ _
  case hmmacT => exact h.leavesInv_hmacMacInto _ _ _
  case hmrst rd =>
    refine leavesInv_ite (fun _ => h.leavesInv_raise _) fun hk => ?_
    obtain ⟨key, msg, hkm⟩ := h.keyed (Bool.not_eq_false _ ▸ hk)
    exact leavesInv_next (h.inv_setM rd hkm.refresh).inv_setKrdy
  case pbkdf2 => exact h.leavesInv_pbkdf2Into _ _ _ _ _
  case pbkdf2Dc => exact h.leavesInv_pbkdf2Into _ _ _ _ _
  case derive => exact h.leavesInv_execDerive _ _ _ _ _
  all_goals exact h.leavesInv_exec_of_no_dest rfl rfl rfl rfl

end

/-- Settles O23: a step does nothing, or takes a fault, or performs a well-formed command, and then moves on. -/
theorem stepKeepsInvariant : Obligations.StepKeepsInvariant := by
  intro s t h hstep
  rcases step_cases hstep with ⟨-, rfl⟩ | ⟨n, -, rfl⟩ | ⟨f, n, -, rfl⟩ | ⟨i, n, u, hf, hu, rfl⟩
  · exact h
  · exact h.inv_advance n
  · exact (h.inv_takeFault f).inv_advance n
  · obtain ⟨hwf, -⟩ := fetch_run hf
    exact (h.leavesInv_exec hwf u hu).inv_advance n

end Sys2Proof.Machine
end

section
/-! The host's moves keep the invariant (spec/20_memory R66). -/

namespace Sys2Proof.Machine

/-- The invariant says nothing of the two queues (R47). -/
theorem Inv.inv_withQueues {s : State} (h : Inv s) (cin rout : List Word) : Inv { s with cin := cin, rout := rout } :=
  ⟨h.bitsFit, h.textFits, h.hashes, h.macs, h.faultCodes⟩

theorem Inv.inv_hostMove {s : State} (h : Inv s) (mv : HostMove) : Inv (hostMove mv s) := by
  cases mv with
  | append w => exact h.inv_withQueues (s.cin ++ [w]) s.rout
  | takeResponse => exact h.inv_withQueues s.cin (s.rout.drop 1)
  | assertReset => exact resetMeetsInvariant

/-- Settles O24: a move changes one queue, which the invariant does not speak of, or resets. -/
theorem hostMovesAreAsListed : Obligations.HostMovesAreAsListed :=
  ⟨fun _ _ => rfl, fun s => by rw [hostMove, List.drop_one], fun _ => rfl, fun mv _ h => h.inv_hostMove mv,
    fun _ => rfl⟩

end Sys2Proof.Machine
end

section
/-! Words behind the command at the head of CIN (spec/20_memory R69, R72, spec/30_encoding R84). -/

namespace Sys2Proof

/-- The words that a command length depends on are at the head (R83). -/
theorem cmdlen_append {ws : List Word} {n : Nat} (extra : List Word) (h : cmdlen ws = some n) :
    cmdlen (ws ++ extra) = some n := by
  match ws with
  | [] => cases h
  | w :: rest =>
    simp only [cmdlen, List.cons_append] at h ⊢
    split at h
    · exact h
    · match rest with
      | [] | [_] => cases h
      | hi :: lo :: _ => exact h
    · match rest with
      | [] | [_] => cases h
      | hi :: lo :: _ => exact h
    · exact h

/-- A whole command is taken off the stream alike, whatever stands behind it (R84). -/
theorem takeCommand_append {ws p rest : List Word} {w : Word} (extra : List Word)
    (h : takeCommand ws = some (w, p, rest)) : takeCommand (ws ++ extra) = some (w, p, rest ++ extra) := by
  obtain ⟨hlen, rfl⟩ := takeCommand_eq_some h
  have hlen' := cmdlen_append extra hlen
  rw [List.cons_append, List.append_assoc] at hlen' ⊢
  exact takeCommand_of_cmdlen hlen'

end Sys2Proof

namespace Sys2Proof.Machine

/-- The state with more words at the tail of CIN. -/
def appendCin (extra : List Word) (s : State) : State := { s with cin := s.cin ++ extra }

theorem advance_appendCin {n : Nat} {s : State} (extra : List Word) (h : n ≤ s.cin.length) :
    advance n (appendCin extra s) = appendCin extra (advance n s) := by
  simp [advance, appendCin, List.drop_append_of_le_length h]

/-- A step that does not hold fetches the same with more words in CIN. -/
theorem fetch_appendCin {s : State} (extra : List Word) (h : fetch s ≠ .hold) :
    fetch (appendCin extra s) = fetch s := by
  rcases fetch_cases s with ⟨-, hf⟩ | ⟨w, p, rest, hc, -⟩
  · exact absurd hf h
  · have hc' : takeCommand (appendCin extra s).cin = some (w, p, rest ++ extra) := takeCommand_append extra hc
    unfold fetch
    rw [hc, hc']
    rfl

/-- Both results are next states, the second what `f` makes of the first. -/
def NextVia (f : State → State) (r r' : Result) : Prop := ∃ t, r = .next t ∧ r' = .next (f t)

theorem nextVia_next (f : State → State) (t : State) : NextVia f (.next t) (.next (f t)) := ⟨t, rfl, rfl⟩

theorem nextVia_ite {f : State → State} {p : Prop} [Decidable p] {r r' q q' : Result} (hr : NextVia f r r')
    (hq : NextVia f q q') : NextVia f (if p then r else q) (if p then r' else q') := by
  split
  · exact hr
  · exact hq

@[simp] theorem getX_appendCin (extra : List Word) (s : State) (j : XReg) : getX (appendCin extra s) j = getX s j := rfl
@[simp] theorem getB_appendCin (extra : List Word) (s : State) (j : BReg) : getB (appendCin extra s) j = getB s j := rfl
@[simp] theorem getT_appendCin (extra : List Word) (s : State) (j : TReg) : getT (appendCin extra s) j = getT s j := rfl

/-- Every command answers a next state, and no test it makes and no value it writes is of CIN. -/
theorem exec_appendCin (extra : List Word) (s : State) (i : Instr) :
    NextVia (appendCin extra) (exec i s) (exec i (appendCin extra s)) := by
  cases i
  case rdsr rd sr => cases sr <;> exact nextVia_next ..
  case bslice | bsliceE | bext | btrunc | bgvc | shaupd | shaupdT | hmdig | hmrst =>
    exact nextVia_ite (nextVia_next ..) (nextVia_next ..)
  case bload | bcat | u8enc | b64enc =>
    simp only [exec, execBload, execBcat, execU8enc, execB64enc, fitB, fitT, getB_appendCin, getT_appendCin]
    exact nextVia_ite (nextVia_next ..) (nextVia_next ..)
  case tload | hmupd | hmupdT =>
    exact nextVia_ite (nextVia_next ..) (nextVia_ite (nextVia_next ..) (nextVia_next ..))
  case hmmac | hmmacT | pbkdf2 | pbkdf2Dc | derive =>
    exact nextVia_ite (nextVia_next ..)
      (nextVia_ite (nextVia_next ..) (nextVia_ite (nextVia_next ..) (nextVia_next ..)))
  case bmkp rd ra rb shifted =>
    simp only [exec, execBmkp, getX_appendCin]
    refine nextVia_ite (nextVia_next ..) ?_
    cases packPayload (getX s ra).toNat (getX s rb).toNat shifted <;> exact nextVia_next ..
  case u8dec rd ra =>
    simp only [exec, execU8dec, getB_appendCin]
    cases utf8Dec (getB s ra)
    · exact nextVia_next ..
    · exact nextVia_ite (nextVia_next ..) (nextVia_next ..)
  case b64dec rd ra url =>
    simp only [exec, execB64dec, getT_appendCin]
    cases b64Dec (getT s ra) url
    · exact nextVia_next ..
    · exact nextVia_ite (nextVia_next ..) (nextVia_next ..)
  all_goals exact nextVia_next ..

/-- Settles O13: more words in CIN change neither the fetch nor the command, and stay behind the words removed. -/
theorem laterWordsDoNotMatter : Obligations.LaterWordsDoNotMatter := by
  intro s extra hd
  change NextVia (appendCin extra) (step s) (step (appendCin extra s))
  have hhold : fetch s ≠ .hold := mt (fetch_hold_iff s).1 hd
  have hall : ∀ n, (fetch s).length = some n → n ≤ s.cin.length := fun n hn => (cmdlen_of_fetch_length hn).2.2
  unfold step
  rw [fetch_appendCin extra hhold]
  cases hf : fetch s with
  | hold => exact absurd hf hhold
  | skip n =>
    have hn := hall n (by rw [hf]; rfl)
    exact ⟨advance n s, rfl, congrArg _ (advance_appendCin extra hn)⟩
  | reject f n =>
    have hn : n ≤ (takeFault f s).cin.length := hall n (by rw [hf]; rfl)
    exact ⟨advance n (takeFault f s), rfl, congrArg _ (advance_appendCin extra hn)⟩
  | run i n =>
    obtain ⟨u, hu, hu'⟩ := exec_appendCin extra s i
    obtain ⟨-, -, -, -, -, -, -, -, hcin, -⟩ := onlyListedStateIsWritten i s u hu
    have hn : n ≤ u.cin.length := hcin ▸ hall n (by rw [hf]; rfl)
    exact ⟨advance n u, by simp [hu], by simp [hu', advance_appendCin extra hn]⟩

end Sys2Proof.Machine
end

section
/-! What a store returns of what a load took (spec/20_memory R74, spec/40_system_transfer R115 to R118). -/

namespace Sys2Proof.Machine

open Config

/-! ## Bits of words -/

theorem flatMap_wordBits_length (ws : List Word) : (ws.flatMap wordBits).length = 32 * ws.length := by
  simp [List.length_flatMap, Nat.mul_comm]

/-- The position mapping of R26 for the bits of some words. -/
theorem flatMap_wordBits_getD (ws : List Word) (i : Nat) :
    (ws.flatMap wordBits).getD i false = (ws.getD (i / 32) 0).getLsbD (31 - i % 32) := by
  induction ws generalizing i with
  | nil => simp
  | cons w ws ih =>
    rw [List.flatMap_cons]
    rcases Nat.lt_or_ge i 32 with hi | hi
    · rw [List.getD_append _ _ _ _ (by simpa using hi), wordBits, be_getD _ hi, Nat.div_eq_of_lt hi,
        Nat.mod_eq_of_lt hi]
      rfl
    · obtain ⟨j, rfl⟩ := Nat.exists_eq_add_of_le hi
      rw [List.getD_append_right _ _ _ _ (by simp), wordBits_length, Nat.add_sub_cancel_left, ih,
        Nat.add_div_left _ (by norm_num), Nat.add_mod_left, List.getD_cons_succ]

/-- Enough words give as many bits as are asked for. -/
theorem ofWords_length {n : Nat} {ws : List Word} (h : ceilDiv n 32 ≤ ws.length) : (ofWords n ws).length = n := by
  rw [ofWords, List.length_take, flatMap_wordBits_length]
  unfold ceilDiv at h
  omega

/-- A load takes bit `i` from bit `31 - i mod 32` of word `i div 32`, and none from position `n` on (R115, R26). -/
theorem ofWords_getD (n : Nat) (ws : List Word) (i : Nat) :
    (ofWords n ws).getD i false = (decide (i < n) && (ws.getD (i / 32) 0).getLsbD (31 - i % 32)) := by
  rw [← flatMap_wordBits_getD, ofWords, List.getD_eq_getElem?_getD, List.getElem?_take, List.getD_eq_getElem?_getD]
  split <;> simp [*]

/-- Words are equal when they are as many and have the same bit at every position. -/
theorem words_ext {vs ws : List Word} (hlen : vs.length = ws.length)
    (h : ∀ i, (vs.getD (i / 32) 0).getLsbD (31 - i % 32) = (ws.getD (i / 32) 0).getLsbD (31 - i % 32)) : vs = ws := by
  refine List.ext_getElem hlen fun j hj hj' => BitVec.eq_of_getLsbD_eq fun k hk => ?_
  have hpos := h (32 * j + (31 - k))
  rwa [show (32 * j + (31 - k)) / 32 = j by omega, show 31 - (32 * j + (31 - k)) % 32 = k by omega,
    List.getD_eq_getElem _ _ hj, List.getD_eq_getElem _ _ hj'] at hpos

/-! ## Truncation of words (R135, R139) -/

/-- The mask of R135 keeps the first `lv` bits of a word. -/
theorem maskedWord_getLsbD (w : Word) (lv : Nat) {r : Nat} (hr : r < 32) :
    (w &&& ~~~(BitVec.allOnes 32 >>> lv)).getLsbD (31 - r) = (decide (r < lv) && w.getLsbD (31 - r)) := by
  have hkeep : (31 - r < 32 ∧ ¬lv + (31 - r) < 32) ↔ r < lv := by omega
  rw [BitVec.getLsbD_and, BitVec.getLsbD_not, BitVec.getLsbD_ushiftRight, BitVec.getLsbD_allOnes, Bool.and_comm,
    ← decide_not, ← Bool.decide_and, decide_eq_decide.2 hkeep]

theorem ceilDiv_eq_succ {n k : Nat} : ceilDiv n 32 = k + 1 ↔ 32 * k < n ∧ n ≤ 32 * (k + 1) := by
  unfold ceilDiv
  omega

/-- Truncation keeps `k` whole words and masks the next one, where `k` is the index of the last word. -/
theorem wordTrunc_words {n k : Nat} {ws : List Word} (hk : ceilDiv n 32 = k + 1) (h : k < ws.length) :
    (wordTrunc n ws).words = ws.take k ++ [ws.getD k 0 &&& ~~~(BitVec.allOnes 32 >>> (n - 32 * k))] := by
  have htake : ws.take (k + 1) = ws.take k ++ [ws.getD k 0] := by
    rw [List.getD_eq_getElem _ _ h, List.take_append_getElem]
  simp only [wordTrunc, hk, Nat.add_sub_cancel, htake, List.dropLast_concat]
  rw [List.drop_left' (by rw [List.length_take]; omega), List.map_singleton]

theorem wordTrunc_length {n : Nat} {ws : List Word} (h : ceilDiv n 32 ≤ ws.length) :
    (wordTrunc n ws).words.length = ceilDiv n 32 := by
  simp only [wordTrunc, List.length_append, List.length_dropLast, List.length_map, List.length_drop, List.length_take]
  omega

/-- Bits before position `n` are the words' own, those from `n` on are cleared. -/
theorem wordTrunc_getLsbD {n : Nat} {ws : List Word} (h : ceilDiv n 32 ≤ ws.length) (i : Nat) :
    ((wordTrunc n ws).words.getD (i / 32) 0).getLsbD (31 - i % 32) =
      (decide (i < n) && (ws.getD (i / 32) 0).getLsbD (31 - i % 32)) := by
  rcases Nat.lt_or_ge (i / 32) (ceilDiv n 32) with hi | hi
  · obtain ⟨k, hk⟩ := Nat.exists_eq_succ_of_ne_zero (Nat.ne_zero_of_lt hi)
    obtain ⟨hlo, hhi⟩ := ceilDiv_eq_succ.1 hk
    have hlen : (ws.take k).length = k := by rw [List.length_take]; omega
    rw [wordTrunc_words hk (by omega)]
    rcases Nat.lt_or_ge (i / 32) k with hik | hik
    · rw [List.getD_append _ _ _ _ (by omega), decide_eq_true (by omega), Bool.true_and, List.getD_eq_getElem?_getD,
        List.getElem?_take_of_lt hik, List.getD_eq_getElem?_getD]
    · obtain rfl : i / 32 = k := by omega
      rw [List.getD_append_right _ _ _ _ hlen.le, hlen, Nat.sub_self, List.getD_cons_zero,
        maskedWord_getLsbD _ _ (Nat.mod_lt _ (by norm_num)),
        decide_eq_decide.2 (show i % 32 < n - 32 * (i / 32) ↔ i < n by omega)]
  · have hbeyond : ¬i < n := by unfold ceilDiv at hi; omega
    rw [List.getD_eq_default _ _ (by rwa [wordTrunc_length h]), decide_eq_false hbeyond, Bool.false_and]
    exact BitVec.getLsbD_zero

/-- Truncated words are the word form of the bits they hold. -/
theorem wordTrunc_eq_wordForm {n : Nat} {ws : List Word} (h : ceilDiv n 32 ≤ ws.length) :
    wordTrunc n ws = wordForm (ofWords n ws) := by
  have hlen := ofWords_length h
  have hwords : (wordTrunc n ws).words = toWords (ofWords n ws) := by
    refine words_ext (by rw [wordTrunc_length h, toWords_length, hlen]) fun i => ?_
    rw [wordTrunc_getLsbD h, toWords_getLsbD, ofWords_getD]
  rw [wordForm, hlen, ← hwords]
  rfl

/-! ## Code points -/

/-- A scalar value survives the trip through a text register (R117, R118). -/
theorem charWord_ofNat {w : Word} (h : isScalar w = true) : charWord (Char.ofNat w.toNat) = w := by
  have hv : w.toNat.isValidChar := by
    simp only [isScalar, Bool.and_eq_true, Bool.not_eq_true', decide_eq_true_eq,
      Bool.and_eq_false_imp, decide_eq_false_iff_not] at h
    unfold Nat.isValidChar
    omega
  rw [charWord, Char.toNat_ofNat, if_pos hv, BitVec.ofNat_toNat, BitVec.setWidth_eq]

theorem map_charWord_ofNat {data : List Word} (h : data.all isScalar = true) :
    (data.map fun w => Char.ofNat w.toNat).map charWord = data := by
  rw [List.map_map]
  exact (List.map_congr_left fun w hw => charWord_ofNat (List.all_eq_true.1 h w hw)).trans (List.map_id data)

/-! ## Store after load (R74) -/

/-- The length words of a response are the header of the load (R93). -/
theorem lengthWords_toNat (n : DWord) : lengthWords n.toNat = [hiWord n, loWord n] := by
  rw [lengthWords, dword, BitVec.ofNat_toNat, BitVec.setWidth_eq]

theorem exec_bload {n : DWord} (h : n.toNat ≤ capBits) (rd : BReg) (data : List Word) (s : State) :
    exec (.bload rd n data) s = .next (setB rd (ofWords n.toNat data) s) := by
  simp [exec, execBload, h]

theorem exec_tload {n : DWord} {data : List Word} (h : n.toNat ≤ capCp) (hs : data.all isScalar = true) (rd : TReg)
    (s : State) : exec (.tload rd n data) s = .next (setT rd (data.map fun w => Char.ofNat w.toNat) s) :=
  (if_neg (not_lt.2 h)).trans (if_pos hs)

/-- The words of a loaded BitBuffer are its data words truncated (R115, R116). -/
theorem bstore_of_bload {rd : BReg} {n : DWord} {data : List Word} (s : State)
    (hwf : (Instr.bload rd n data).wf = true) :
    exec (.bstore rd) (setB rd (ofWords n.toNat data) s) =
      .next (respond (hiWord n :: loWord n :: (wordTrunc n.toNat data).words) (setB rd (ofWords n.toNat data) s)) := by
  have hdata : data.length = ceilDiv n.toNat 32 := by simpa [Instr.wf, ceilDiv] using hwf
  simp [exec, execBstore, ofWords_length hdata.ge, lengthWords_toNat, wordTrunc_eq_wordForm hdata.ge, wordForm]

/-- The words of a loaded text are its data words (R117, R118). -/
theorem tstore_of_tload {rd : TReg} {n : DWord} {data : List Word} (s : State)
    (hwf : (Instr.tload rd n data).wf = true) (hs : data.all isScalar = true) :
    exec (.tstore rd) (setT rd (data.map fun w => Char.ofNat w.toNat) s) =
      .next (respond (hiWord n :: loWord n :: data) (setT rd (data.map fun w => Char.ofNat w.toNat) s)) := by
  have hdata : data.length = n.toNat := by simpa [Instr.wf] using hwf
  simp only [exec, execTstore, getT_setT_same, List.length_map, hdata, lengthWords_toNat, map_charWord_ofNat hs]
  rfl

/-- Settles O31: a store reads the register the load wrote, and its response words are those the load was given. -/
theorem storeReturnsLoad : Obligations.StoreReturnsLoad :=
  ⟨fun rd _ data s hwf hn => ⟨_, _, exec_bload hn rd data s, bstore_of_bload s hwf, rfl⟩,
    fun rd _ _ s hwf hn hs => ⟨_, _, exec_tload hn hs rd s, tstore_of_tload s hwf hs, rfl⟩⟩

end Sys2Proof.Machine
end

section
/-! The decoder and the encoder invert each other (spec/30_encoding R81, R83, R86, R89, R92). -/

namespace Sys2Proof

open Machine

/-! ## Register, status-register and flag fields -/

theorem reg4_eq_ok {f : BitVec 4} {r : Fin 4} : reg4 f = .ok r ↔ regField r = f :=
  ⟨regField_of_reg4, by rintro rfl; exact reg4_regField r⟩

theorem reg2_eq_ok {f : BitVec 4} {r : Fin 2} : reg2 f = .ok r ↔ regField r = f :=
  ⟨regField_of_reg2, by rintro rfl; exact reg2_regField r⟩

theorem dataReg_eq_ok {text : Bool} {f : BitVec 4} {r : DataReg} :
    dataReg text f = .ok r ↔ dataRegField r = f ∧ isText r = text :=
  ⟨dataRegField_of_dataReg, by rintro ⟨rfl, rfl⟩; exact dataReg_dataRegField r⟩

/-- A status register has one number only (R40). -/
theorem sregOf_eq_ok {n : BitVec 8} {r : SReg} : sregOf n = .ok r ↔ sregNumber r = n := by
  refine ⟨fun h => ?_, by rintro rfl; exact sregOf_sregNumber r⟩
  unfold sregOf at h
  split at h <;> cases h <;> rfl

/-- The two halves of `IMM8` are the fields `RA` and `RB` (R81). -/
@[simp] theorem imm8_extractLsb'_ra (f : Fields) : (imm8 f).extractLsb' 4 4 = f.ra := by
  apply BitVec.eq_of_getLsbD_eq
  intro i hi
  interval_cases i <;> simp [imm8, BitVec.getLsbD_of_ge]

@[simp] theorem imm8_extractLsb'_rb (f : Fields) : (imm8 f).extractLsb' 0 4 = f.rb := by
  apply BitVec.eq_of_getLsbD_eq
  intro i hi
  interval_cases i <;> simp [imm8]

@[simp] theorem flagBits_getElem (f3 f2 f1 f0 : Bool) :
    (flagBits f3 f2 f1 f0)[0] = f0 ∧ (flagBits f3 f2 f1 f0)[1] = f1 ∧
    (flagBits f3 f2 f1 f0)[2] = f2 ∧ (flagBits f3 f2 f1 f0)[3] = f3 := by
  revert f3 f2 f1 f0; decide

/-- A flag field is its four bits. -/
theorem flagBits_eq_iff {f3 f2 f1 f0 : Bool} {f : BitVec 4} :
    flagBits f3 f2 f1 f0 = f ↔ f[3] = f3 ∧ f[2] = f2 ∧ f[1] = f1 ∧ f[0] = f0 := by
  revert f3 f2 f1 f0 f; decide

/-- Of a command with one flag, the fields that must be zero leave bit 0 free. -/
theorem extractLsb'_one_three_eq_zero {f : BitVec 4} :
    f.extractLsb' 1 3 = 0#3 ↔ f[3] = false ∧ f[2] = false ∧ f[1] = false := by revert f; decide

/-- Of a command with two flags, the fields that must be zero leave bits 1 and 0 free. -/
theorem extractLsb'_two_two_eq_zero {f : BitVec 4} : f.extractLsb' 2 2 = 0#2 ↔ f[3] = false ∧ f[2] = false := by
  revert f; decide

/-! ## From fields to an instruction and back -/

@[simp] theorem whenZero_true (k : Except FaultCode Instr) : whenZero true k = k := rfl

@[simp] theorem withReg_ok {α : Type} (a : α) (k : α → Except FaultCode Instr) : withReg (.ok a) k = k a := rfl

/-- The decoder reads back the fields the encoder wrote. -/
theorem decodeFields_encodeFields (i : Instr) : decodeFields (encodeFields i) (encodePayload i) = .ok i := by
  cases i <;>
    simp [decodeFields, encodeFields, encodePayload, payloadHead, extractLsb'_one_three_eq_zero,
      extractLsb'_two_two_eq_zero, whenZero_eq_ok]

/-- The encoder writes back the fields the decoder read: every field is zero by check 2 of R86, or names an operand. -/
theorem encodeFields_of_decodeFields {f : Fields} {p : List Word} {i : Instr} (h : decodeFields f p = .ok i) :
    encodeFields i = f := by
  obtain ⟨opc, rd, ra, rb, rc, re, fl⟩ := f
  unfold decodeFields at h
  split at h <;> (try split at h)
  case h_33 => cases h
  -- In every row, what the checks of `h` say of each field is what the encoder writes there.
  all_goals
    simp [whenZero_eq_ok, withReg_eq_ok, reg4_eq_ok, reg2_eq_ok, dataReg_eq_ok, sregOf_eq_ok,
      extractLsb'_one_three_eq_zero, extractLsb'_two_two_eq_zero, -Fin.exists_fin_two] at h
    casesm* _ ∧ _, ∃ _, _
    subst_vars
    simp_all [encodeFields, flagBits_eq_iff]

/-! ## Payloads and the stream -/

/-- The command length the fetch computes from the head of the stream is the length of the encoding (R83). -/
theorem cmdlen_encode {i : Instr} (hi : i.wf = true) (rest : List Word) :
    cmdlen (encode i ++ rest) = some (encode i).length := by
  have h : Laws.CmdLen.Statement i := by
    cases i
    case xload rd v => exact Laws.CmdLen.xload rd v
    case bload rd n data => exact Laws.CmdLen.bload rd n data
    case tload rd n data => exact Laws.CmdLen.tload rd n data
    all_goals exact Laws.CmdLen.one_word rfl (by simp [encodeFields])
  exact h hi rest

/-- A payload of at least two words is its header and what is behind the header (R92). -/
theorem eq_payloadHead_append {p : List Word} (h : 2 ≤ p.length) :
    hiWord (payloadHead p) :: loWord (payloadHead p) :: p.drop 2 = p := by
  match p with
  | [] | [_] => simp at h
  | a :: b :: p => simp [payloadHead]

/-- A scalar load is read from its opcode alone; its value is the payload's header (R89, R92). -/
theorem decodeCommand_eq_xload {w : Word} {p : List Word} {rd : XReg} {v : DWord}
    (h : decodeCommand w p = .ok (.xload rd v)) : (fieldsOf w).opc = 0x08#8 ∧ v = payloadHead p := by
  unfold decodeCommand decodeFields at h
  split at h <;> (try split at h) <;> simp [whenZero_eq_ok, withReg_eq_ok] at h
  obtain ⟨-, -, hv⟩ := h
  exact ⟨‹_›, hv.symm⟩

/-- A load owns its header words (R83). -/
theorem three_le_of_cmdlen {w : Word} {ws : List Word} {n : Nat}
    (ho : (fieldsOf w).opc = 0x08#8 ∨ (fieldsOf w).opc = 0x0A#8 ∨ (fieldsOf w).opc = 0x0C#8)
    (h : cmdlen (w :: ws) = some n) : 3 ≤ n := by
  rcases ho with ho | ho | ho
  · simp only [cmdlen, ho, Option.some.injEq] at h
    omega
  · obtain ⟨_, _, _, -, rfl⟩ := cmdlen_bload ho h
    omega
  · obtain ⟨_, _, _, -, rfl⟩ := cmdlen_tload ho h
    omega

/-- The encoder writes back the words of a decoded command: a load its whole payload, of which `cmdlen` counted the
words; every other command has none. -/
theorem encode_of_decodeCommand {w : Word} {p rest : List Word} {i : Instr}
    (hl : cmdlen (w :: (p ++ rest)) = some (p.length + 1)) (h : decodeCommand w p = .ok i) : encode i = w :: p := by
  have hw : packFields (encodeFields i) = w := by rw [encodeFields_of_decodeFields h, packFields_fieldsOf]
  have hone : encodePayload i = [] → p = [] := fun hp => by
    have hlen := cmdlen_encode (wf_of_decodeCommand hl h) (p ++ rest)
    simpa [encode, hw, hp, hl] using hlen
  have hload (ho : (fieldsOf w).opc = 0x08#8 ∨ (fieldsOf w).opc = 0x0A#8 ∨ (fieldsOf w).opc = 0x0C#8) :
      hiWord (payloadHead p) :: loWord (payloadHead p) :: p.drop 2 = p :=
    eq_payloadHead_append (by have := three_le_of_cmdlen ho hl; omega)
  rw [encode, hw]
  congr 1
  cases i
  case xload rd v =>
    obtain ⟨ho, rfl⟩ := decodeCommand_eq_xload h
    have hp : p.drop 2 = [] := by
      simp only [cmdlen, ho, Option.some.injEq] at hl
      simp only [List.drop_eq_nil_iff]
      omega
    simpa [encodePayload, hp] using hload (.inl ho)
  case bload rd n data =>
    obtain ⟨ho, rfl, rfl⟩ := decodeCommand_eq_bload h
    exact hload (.inr (.inl ho))
  case tload rd n data =>
    obtain ⟨ho, rfl, rfl⟩ := decodeCommand_eq_tload h
    exact hload (.inr (.inr ho))
  all_goals exact (hone rfl).symm

/-- An instruction is read off the stream exactly when a whole command is taken that decodes to it (R84, R86). -/
theorem decode_eq_instr {ws rest : List Word} {i : Instr} :
    decode ws = .instr i rest ↔ ∃ w p, takeCommand ws = some (w, p, rest) ∧ decodeCommand w p = .ok i := by
  unfold decode
  split
  · simp [*]
  · rename_i w p rest' hc
    cases hd : decodeCommand w p <;> simp [*, and_comm]

/-- Settles O1: `cmdlen` counts exactly the words of the encoding, and its fields and payload decode to the
instruction. -/
theorem decodeOfEncode : Obligations.DecodeOfEncode := by
  intro i rest hi
  have hd : decodeCommand (packFields (encodeFields i)) (encodePayload i) = .ok i := by
    rw [decodeCommand, fieldsOf_packFields, decodeFields_encodeFields]
  exact decode_eq_instr.2 ⟨_, _, takeCommand_of_cmdlen (cmdlen_encode hi rest), hd⟩

/-- Settles O2: the command taken off the stream is the encoding of what it decodes to. -/
theorem encodeOfDecode : Obligations.EncodeOfDecode := by
  intro ws i rest h
  obtain ⟨w, p, hc, hd⟩ := decode_eq_instr.1 h
  obtain ⟨hl, rfl⟩ := takeCommand_eq_some hc
  exact ⟨wf_of_decodeCommand hl hd, by rw [encode_of_decodeCommand hl hd, List.cons_append]⟩

end Sys2Proof
end

section
/-! The decoder against the opcode table: the first failing check, the matching row, the reserved encodings
(spec/30_encoding R86, R87, R89, R90). -/

namespace Sys2Proof

open Machine

/-! ## Rows, field by field -/

/-- Masking a word masks each of its fields (R81). -/
theorem fieldsOf_and (v w : Word) : fieldsOf (v &&& w) =
    ⟨(fieldsOf v).opc &&& (fieldsOf w).opc, (fieldsOf v).rd &&& (fieldsOf w).rd, (fieldsOf v).ra &&& (fieldsOf w).ra,
     (fieldsOf v).rb &&& (fieldsOf w).rb, (fieldsOf v).rc &&& (fieldsOf w).rc, (fieldsOf v).re &&& (fieldsOf w).re,
     (fieldsOf v).fl &&& (fieldsOf w).fl⟩ := by
  simp [fieldsOf, BitVec.extractLsb'_and]

theorem fieldsOf_injective {v w : Word} (h : fieldsOf v = fieldsOf w) : v = w := by
  rw [← packFields_fieldsOf v, h, packFields_fieldsOf]

/-- A word matches a row when each field agrees with the row's value under the row's mask. -/
def fieldsMatch (f : Fields) (r : TableRow) : Bool :=
  f.opc &&& (fieldsOf r.mask).opc == (fieldsOf r.value).opc && f.rd &&& (fieldsOf r.mask).rd == (fieldsOf r.value).rd &&
  f.ra &&& (fieldsOf r.mask).ra == (fieldsOf r.value).ra && f.rb &&& (fieldsOf r.mask).rb == (fieldsOf r.value).rb &&
  f.rc &&& (fieldsOf r.mask).rc == (fieldsOf r.value).rc && f.re &&& (fieldsOf r.mask).re == (fieldsOf r.value).re &&
  f.fl &&& (fieldsOf r.mask).fl == (fieldsOf r.value).fl

theorem rowMatches_eq (w : Word) (r : TableRow) : rowMatches w r = fieldsMatch (fieldsOf w) r := by
  have h : w &&& r.mask = r.value ↔ fieldsOf (w &&& r.mask) = fieldsOf r.value := ⟨congrArg _, fieldsOf_injective⟩
  rw [rowMatches, Bool.eq_iff_iff, beq_iff_eq, h, fieldsOf_and]
  cases hv : fieldsOf r.value
  simp [fieldsMatch, hv, and_assoc]

/-- The rows of an opcode. -/
def rowsOf (o : BitVec 8) : List TableRow := opcodeTable.filter fun r => (fieldsOf r.value).opc == o

theorem rowsOf_eq_nil {o : BitVec 8} : rowsOf o = [] ↔ ∀ r ∈ opcodeTable, (fieldsOf r.value).opc ≠ o := by
  simp [rowsOf]

theorem rowsOf_eq_nil_iff_not_mem {o : BitVec 8} :
    rowsOf o = [] ↔ o ∉ opcodeTable.map fun r => (fieldsOf r.value).opc := by
  simp [rowsOf_eq_nil]

/-- The opcodes of the 37 rows (R89). -/
theorem opcodeTable_opcodes : opcodeTable.map (fun r => (fieldsOf r.value).opc) =
    [0x00, 0x01, 0x02, 0x08, 0x09, 0x0A, 0x0B, 0x0C, 0x0D] ++ [0x10, 0x11, 0x11, 0x12, 0x13, 0x14, 0x15, 0x16, 0x17] ++
    [0x20, 0x21, 0x22, 0x23, 0x30, 0x31, 0x31, 0x32, 0x33] ++
    [0x40, 0x41, 0x41, 0x42, 0x43, 0x43, 0x44, 0x50, 0x50, 0x51] := by decide +kernel

/-- Every row fixes the whole opcode (R86). -/
theorem opcodeTable_mask_opc : ∀ r ∈ opcodeTable, (fieldsOf r.mask).opc = BitVec.allOnes 8 := by decide +kernel

/-- A matching row is a row of the word's opcode. -/
theorem opc_of_fieldsMatch {f : Fields} {r : TableRow} (hr : r ∈ opcodeTable) (h : fieldsMatch f r = true) :
    (fieldsOf r.value).opc = f.opc := by
  simp only [fieldsMatch, opcodeTable_mask_opc r hr, BitVec.and_allOnes, Bool.and_eq_true, beq_iff_eq] at h
  simp [h]

theorem find?_rowsOf (f : Fields) : (rowsOf f.opc).find? (fieldsMatch f) = opcodeTable.find? (fieldsMatch f) := by
  rw [rowsOf, List.find?_filter]
  refine List.find?_congr fun r hr => ?_
  cases h : fieldsMatch f r
  · simp
  · simp [opc_of_fieldsMatch hr h]

/-! ## The three checks of R86, opcode by opcode -/

/-- Check 3 of R86 for the fields of a word and its row. -/
def rangeFault (f : Fields) (r : TableRow) : Option FaultCode :=
  if !rowInFiles f r then some .regIndex
  else if rowHasImm r && (sregOf (imm8 f)).isOk == false then some .reservedSr
  else none

/-- Checks 2 and 3 of R86 over some rows: the first one that matches decides. -/
def rowsFault (f : Fields) : List TableRow → Option FaultCode
  | [] => some .reservedField
  | r :: rs => if fieldsMatch f r then rangeFault f r else rowsFault f rs

theorem rowsFault_eq (f : Fields) (rs : List TableRow) :
    rowsFault f rs = (rs.find? (fieldsMatch f)).elim (some .reservedField) (rangeFault f) := by
  induction rs with
  | nil => rfl
  | cons r rs ih => cases h : fieldsMatch f r <;> simp [rowsFault, List.find?, h, ih]

/-- The three checks over the rows of the word's own opcode. -/
theorem tableFault_eq (w : Word) : tableFault w =
    if rowsOf (fieldsOf w).opc = [] then some .illegalOpcode
    else rowsFault (fieldsOf w) (rowsOf (fieldsOf w).opc) := by
  have hm : rowMatches w = fieldsMatch (fieldsOf w) := funext (rowMatches_eq w)
  have hall : opcodeTable.all (fun r => (fieldsOf r.value).opc != (fieldsOf w).opc) = true ↔
    rowsOf (fieldsOf w).opc = [] := by simp [rowsOf_eq_nil]
  simp only [tableFault, hm, hall, rowsFault_eq, find?_rowsOf]
  cases opcodeTable.find? (fieldsMatch (fieldsOf w)) <;> rfl

/-- The fault of a decoding, if it ends in one. -/
def errorOf {α : Type} : Except FaultCode α → Option FaultCode
  | .ok _ => none
  | .error e => some e

theorem errorOf_eq_some {α : Type} {r : Except FaultCode α} {e : FaultCode} : errorOf r = some e ↔ r = .error e := by
  cases r <;> simp [errorOf]

@[simp] theorem errorOf_ok {α : Type} (a : α) : errorOf (.ok a : Except FaultCode α) = none := rfl

@[simp] theorem errorOf_whenZero (zero : Bool) (k : Except FaultCode Instr) :
    errorOf (whenZero zero k) = if zero = true then errorOf k else some .reservedField := by
  cases zero <;> rfl

/-- The first register out of range decides, whatever the registers after it are. -/
theorem errorOf_withReg {α : Type} {r : Except FaultCode α} {k : α → Except FaultCode Instr} {c : Option FaultCode}
    (h : ∀ a, errorOf (k a) = c) : errorOf (withReg r k) = (errorOf r).or c := by
  cases r with
  | ok a => exact h a
  | error e => rfl

@[simp] theorem errorOf_withReg_one {α : Type} (r : Except FaultCode α) (i : α → Instr) :
    errorOf (withReg r fun a => .ok (i a)) = errorOf r :=
  (errorOf_withReg fun _ => errorOf_ok _).trans Option.or_none

@[simp] theorem errorOf_withReg_two {α β : Type} (r : Except FaultCode α) (q : Except FaultCode β) (i : α → β → Instr) :
    errorOf (withReg r fun a => withReg q fun b => .ok (i a b)) = (errorOf r).or (errorOf q) :=
  errorOf_withReg fun _ => errorOf_withReg_one ..

@[simp] theorem errorOf_withReg_three {α β γ : Type} (r : Except FaultCode α) (q : Except FaultCode β)
    (o : Except FaultCode γ) (i : α → β → γ → Instr) :
    errorOf (withReg r fun a => withReg q fun b => withReg o fun c => .ok (i a b c)) =
      (errorOf r).or ((errorOf q).or (errorOf o)) :=
  errorOf_withReg fun _ => errorOf_withReg_two ..

@[simp] theorem errorOf_reg4 (f : BitVec 4) : errorOf (reg4 f) = if 4 ≤ f.toNat then some .regIndex else none := by
  unfold reg4; split <;> simp_all [errorOf]

@[simp] theorem errorOf_reg2 (f : BitVec 4) : errorOf (reg2 f) = if 1 < f.toNat then some .regIndex else none := by
  unfold reg2; split <;> simp [errorOf] <;> omega

@[simp] theorem errorOf_dataReg (text : Bool) (f : BitVec 4) :
    errorOf (dataReg text f) = if text = true ∧ 4 ≤ f.toNat then some .regIndex else none := by
  unfold dataReg reg4; split <;> (try split) <;> simp_all [Except.map, errorOf]

@[simp] theorem errorOf_sregOf (n : BitVec 8) :
    errorOf (sregOf n) = if (sregOf n).isOk = false then some .reservedSr else none := by
  unfold sregOf; split <;> simp [Except.isOk, Except.toBool, errorOf]

theorem ite_or_ite (a b : Prop) [Decidable a] [Decidable b] (e : FaultCode) :
    (if a then some e else none).or (if b then some e else none) = if a ∨ b then some e else none := by
  split <;> simp [*]

/-! A flag field under the masks of the table. -/

theorem and_fifteen (f : BitVec 4) : f &&& 15#4 = f := by revert f; decide

theorem and_fourteen {f : BitVec 4} : f &&& 14#4 = 0#4 ↔ f[3] = false ∧ f[2] = false ∧ f[1] = false := by
  revert f; decide

theorem and_twelve {f : BitVec 4} :
    (f &&& 12#4 = 0#4 ↔ f[3] = false ∧ f[2] = false) ∧ (f &&& 12#4 = 4#4 ↔ f[3] = false ∧ f[2] = true) := by
  revert f; decide

/-- The decoder's checks are those of the rows of its opcode, in the same order (R86): `whenZero` tests the bits the row's
mask fixes, and each `withReg` a register file the row names. -/
theorem errorOf_decodeFields (f : Fields) (p : List Word) : errorOf (decodeFields f p) =
    if rowsOf f.opc = [] then some .illegalOpcode else rowsFault f (rowsOf f.opc) := by
  obtain ⟨opc, rd, ra, rb, rc, re, fl⟩ := f
  generalize hr : decodeFields _ p = r
  unfold decodeFields at hr
  -- One case for each row of the table, and the last one for the opcodes of no row.
  split at hr <;> (try split at hr) <;> subst hr
  case h_33 =>
    have hnil : rowsOf opc = [] := by simp_all [rowsOf_eq_nil_iff_not_mem, opcodeTable_opcodes]
    simp [hnil, errorOf]
  all_goals
    simp_all [rowsOf, opcodeTable, fieldsOf, rowsFault, fieldsMatch, rangeFault, rowInFiles, fieldInFile, rowHasImm,
      and_fifteen, and_fourteen, and_twelve, ite_or_ite, or_assoc, extractLsb'_one_three_eq_zero,
      extractLsb'_two_two_eq_zero]

/-- Settles O3: opcode by opcode, the decoder's checks are those of the opcode's rows, in the same order. -/
theorem decodeFaultsFollowTable : Obligations.DecodeFaultsFollowTable := by
  intro w p f
  rw [← errorOf_eq_some, decodeCommand, errorOf_decodeFields, tableFault_eq]

/-! ## One row per word (R86) -/

/-- The values of any two rows differ in a bit that both rows fix. -/
theorem opcodeTable_pairwise : opcodeTable.Pairwise fun r r' => r.value &&& r'.mask ≠ r'.value &&& r.mask := by
  decide +kernel

/-- Rows that one word matches agree in the bits that both fix. -/
theorem value_and_mask_of_rowMatches {w : Word} {r r' : TableRow} (h : rowMatches w r = true)
    (h' : rowMatches w r' = true) : r.value &&& r'.mask = r'.value &&& r.mask := by
  simp only [rowMatches, beq_iff_eq] at h h'
  rw [← h, ← h', BitVec.and_assoc, BitVec.and_comm r.mask, BitVec.and_assoc]

/-- An instruction's encoding matches the row with its mnemonic (R89). -/
theorem rowsOf_any_encodeFields (i : Instr) : (rowsOf (encodeFields i).opc).any
    (fun r => fieldsMatch (encodeFields i) r && r.mnemonic == mnemonicOf i) = true := by
  cases i <;>
    simp [rowsOf, opcodeTable, mnemonicOf, fieldsMatch, fieldsOf, encodeFields, and_fourteen, and_twelve]

/-- Settles O4: two rows that one word matches would agree where any two rows differ; and the fields of a decoded word
are those of its instruction's encoding. -/
theorem decodedRowIsUnique : Obligations.DecodedRowIsUnique := by
  refine ⟨fun w r hr r' hr' h h' => ?_, fun w p i h => ?_⟩
  · by_contra hne
    have hsymm : Std.Symm fun r r' : TableRow => r.value &&& r'.mask ≠ r'.value &&& r.mask := ⟨fun _ _ => Ne.symm⟩
    exact opcodeTable_pairwise.forall hr hr' hne (value_and_mask_of_rowMatches h h')
  · obtain ⟨r, hr, hrow⟩ := List.any_eq_true.1 (rowsOf_any_encodeFields i)
    rw [encodeFields_of_decodeFields h, ← rowMatches_eq, Bool.and_eq_true, beq_iff_eq] at hrow
    exact ⟨r, List.mem_of_mem_filter hr, hrow⟩

/-! ## Reserved encodings (R90) -/

theorem opc_toNat (w : Word) : (fieldsOf w).opc.toNat = w.toNat / 2 ^ 24 := by
  have := w.isLt
  simp only [fieldsOf, BitVec.extractLsb'_toNat, Nat.shiftRight_eq_div_pow]
  omega

/-- Check 3 answers no fault of the other two checks. -/
theorem rangeFault_ne (f : Fields) (r : TableRow) :
    rangeFault f r ≠ some .illegalOpcode ∧ rangeFault f r ≠ some .reservedField := by
  unfold rangeFault
  split <;> (try split) <;> simp

theorem rowsFault_ne_illegalOpcode (f : Fields) (rs : List TableRow) : rowsFault f rs ≠ some .illegalOpcode := by
  induction rs with
  | nil => simp [rowsFault]
  | cons r rs ih =>
    rw [rowsFault]
    split
    · exact (rangeFault_ne f r).1
    · exact ih

theorem rowsFault_eq_reservedField {f : Fields} {rs : List TableRow} :
    rowsFault f rs = some .reservedField ↔ ∀ r ∈ rs, fieldsMatch f r = false := by
  induction rs with
  | nil => simp [rowsFault]
  | cons r rs ih =>
    cases h : fieldsMatch f r
    · simp [rowsFault, h, ih]
    · simp [rowsFault, h, (rangeFault_ne f r).2]

/-- The opcodes of no row are the ranges R90 lists. -/
theorem rowsOf_eq_nil_iff_unassigned (o : BitVec 8) : rowsOf o = [] ↔
    (0x03 ≤ o.toNat ∧ o.toNat ≤ 0x07) ∨ o.toNat = 0x0E ∨ o.toNat = 0x0F ∨ (0x18 ≤ o.toNat ∧ o.toNat ≤ 0x1F) ∨
    (0x24 ≤ o.toNat ∧ o.toNat ≤ 0x2F) ∨ (0x34 ≤ o.toNat ∧ o.toNat ≤ 0x3F) ∨ (0x45 ≤ o.toNat ∧ o.toNat ≤ 0x4F) ∨
    0x52 ≤ o.toNat := by
  simp [rowsOf_eq_nil_iff_not_mem, opcodeTable_opcodes, ← BitVec.toNat_inj]
  omega

theorem decodeCommand_eq_illegalOpcode {w : Word} {p : List Word} :
    decodeCommand w p = .error .illegalOpcode ↔ rowsOf (fieldsOf w).opc = [] := by
  rw [← errorOf_eq_some, decodeCommand, errorOf_decodeFields]
  split <;> simp [*, rowsFault_ne_illegalOpcode]

theorem decodeCommand_eq_reservedField {w : Word} {p : List Word} :
    decodeCommand w p = .error .reservedField ↔
      rowsOf (fieldsOf w).opc ≠ [] ∧ ∀ r ∈ opcodeTable, rowMatches w r = false := by
  have hrows : (∀ r ∈ rowsOf (fieldsOf w).opc, fieldsMatch (fieldsOf w) r = false) ↔
      ∀ r ∈ opcodeTable, rowMatches w r = false := by
    simp only [rowMatches_eq, rowsOf, List.mem_filter, beq_iff_eq]
    refine ⟨fun h r hr => ?_, fun h r hr => h r hr.1⟩
    by_contra hm
    exact hm (h r ⟨hr, opc_of_fieldsMatch hr (by simpa using hm)⟩)
  rw [← errorOf_eq_some, decodeCommand, errorOf_decodeFields, ← hrows]
  split <;> simp [*, rowsFault_eq_reservedField]

/-- `NOP` has no operand, so one word encodes it (R90). -/
theorem decodeCommand_eq_nop {w : Word} {p : List Word} : decodeCommand w p = .ok .nop ↔ w = 0 := by
  constructor
  · intro h
    rw [← packFields_fieldsOf w, ← encodeFields_of_decodeFields h]
    decide
  · rintro rfl
    rfl

/-- Only the loads own more than their own word (R83). -/
theorem cmdlen_eq_one {w : Word} (h8 : (fieldsOf w).opc ≠ 0x08#8) (hA : (fieldsOf w).opc ≠ 0x0A#8)
    (hC : (fieldsOf w).opc ≠ 0x0C#8) (rest : List Word) : cmdlen (w :: rest) = some 1 := by
  simp only [cmdlen]

/-- Settles O5: the unassigned opcodes are those of no row, and only the first check of R86 answers ILLEGAL_OPCODE, only
the second RESERVED_FIELD. -/
theorem reservedEncodings : Obligations.ReservedEncodings := by
  intro w p
  simp only [← opc_toNat]
  rw [← rowsOf_eq_nil_iff_unassigned]
  refine ⟨decodeCommand_eq_illegalOpcode, fun hnil rest => ?_, decodeCommand_eq_reservedField, decodeCommand_eq_nop⟩
  refine cmdlen_eq_one ?_ ?_ ?_ rest <;> intro ho <;>
    simp [ho, rowsOf_eq_nil_iff_not_mem, opcodeTable_opcodes] at hnil

theorem opc_eq_iff {w : Word} {k : Nat} (hk : k < 256) :
    (fieldsOf w).opc = BitVec.ofNat 8 k ↔ w.toNat / 2 ^ 24 = k := by
  rw [← opc_toNat, ← BitVec.toNat_inj, BitVec.toNat_ofNat, Nat.mod_eq_of_lt hk]

theorem headerValue_eq (hi lo : Word) : headerValue hi lo = hi.toNat * 2 ^ 32 + lo.toNat := joinWords_toNat hi lo

/-- Settles O6: `cmdlen` in each of the four opcode cases. -/
theorem commandLength : Obligations.CommandLength := by
  intro w hi lo rest
  simp only [← headerValue_eq, ← opc_eq_iff (w := w) (k := 0x08) (by decide),
    ← opc_eq_iff (w := w) (k := 0x0A) (by decide), ← opc_eq_iff (w := w) (k := 0x0C) (by decide), ne_eq]
  refine ⟨fun ho => ?_, fun ho => ?_, fun ho => ?_, fun h8 hA hC => cmdlen_eq_one h8 hA hC rest⟩
  all_goals simp [cmdlen, ho, ceilDiv]

end Sys2Proof
end

section
/-! A step against the decoder: holding, skipping, running, responding (spec/30_encoding R84, R85, R93). -/

namespace Sys2Proof

open Machine

/-- The stream is incomplete exactly when no whole command can be taken off it (R84). -/
theorem decode_eq_incomplete {ws : List Word} : decode ws = .incomplete ↔ takeCommand ws = none := by
  unfold decode
  split
  · simp [*]
  · cases decodeCommand _ _ <;> simp [*]

/-- No command is taken exactly while fewer words are there than the command owns (R83, R84). -/
theorem takeCommand_eq_none {ws : List Word} : takeCommand ws = none ↔ ∀ n, cmdlen ws = some n → ws.length < n := by
  cases ws with
  | nil => simp [takeCommand, cmdlen]
  | cons w rest => cases h : cmdlen (w :: rest) <;> simp [takeCommand, h]

end Sys2Proof

namespace Sys2Proof.Machine

/-- Settles O7, by running the decoder on the seven words. -/
theorem sampleWordsDecode : Obligations.SampleWordsDecode := by
  unfold Obligations.SampleWordsDecode
  decide

/-- What an unfaulted fetch finds when the head of CIN decodes (R84). -/
theorem fetch_of_decode {s : State} {i : Instr} {rest : List Word} (hs : s.flt = false)
    (h : decode s.cin = .instr i rest) :
    fetch s = .run i (s.cin.length - rest.length) ∧ s.cin.drop (s.cin.length - rest.length) = rest := by
  obtain ⟨w, p, hc, hd⟩ := decode_eq_instr.1 h
  obtain ⟨-, hcin⟩ := takeCommand_eq_some hc
  have hn : s.cin.length - rest.length = p.length + 1 := by simp [hcin]; omega
  rw [hn]
  exact ⟨by simp [fetch, hc, hs, hd], by simp [hcin]⟩

/-- Settles O8: the step runs what it fetched, and `exec` leaves CIN and `CP` to the move past the command. -/
theorem stepRunsDecoded : Obligations.StepRunsDecoded := by
  intro s i rest hs h
  obtain ⟨hf, hdrop⟩ := fetch_of_decode hs h
  have hstep : step s = advanceResult (s.cin.length - rest.length) (exec i s) := by simp [step, hf]
  refine ⟨hstep, fun t ht => ?_⟩
  obtain ⟨-, -, -, -, -, -, -, hcp, hcin, -⟩ := onlyListedStateIsWritten i s t ht
  rw [hstep, ht, advanceResult_next, advance, hcp, hcin, hdrop]

/-- Settles O9: the fetch skips the command, or runs `CLRERR`. -/
theorem faultedStepSkips : Obligations.FaultedStepSkips := by
  intro s w p rest hs hc
  obtain ⟨-, hcin⟩ := takeCommand_eq_some hc
  have hdrop : s.cin.drop (p.length + 1) = rest := by simp [hcin]
  by_cases hw : w = clrerrWord
  · have hf : fetch s = .run .clrerr (p.length + 1) := by simp [fetch, hc, hs, hw]
    simp [step, hf, exec, execClrerr, advance, clearFault, hdrop, hw, clrerrWord]
  · have hf : fetch s = .skip (p.length + 1) := by simp [fetch, hc, hs, hw]
    rw [clrerrWord] at hw
    simp [step, hf, advance, hdrop, hs, hw]

/-- Settles O10: nothing is taken off the stream, and the fetch holds. -/
theorem incompleteHolds : Obligations.IncompleteHolds := by
  refine ⟨fun ws => decode_eq_incomplete.trans takeCommand_eq_none, fun s h => ?_⟩
  rw [step, (fetch_hold_iff s).2 h]

/-- What a command appends to ROUT: nothing unless it is a store, and a store takes no fault (R93, R275). -/
theorem exec_rout {i : Instr} {s t : State} (h : exec i s = .next t) :
    ∃ ws, t.rout = s.rout ++ ws ∧ (ws ≠ [] → isStore i = true ∧ t.flt = s.flt) := by
  cases hi : isStore i with
  | false =>
    obtain ⟨-, -, -, -, -, hrout, -⟩ := onlyListedStateIsWritten i s t h
    exact ⟨[], by simp [hrout hi], by simp⟩
  | true =>
    cases i
    case xstore | bstore | tstore => cases h; exact ⟨_, rfl, fun _ => ⟨rfl, rfl⟩⟩
    all_goals cases hi

/-- Settles O20: of the ways a step can end, only an unfaulted run of a store appends to ROUT. -/
theorem responsesOnlyGrow : Obligations.ResponsesOnlyGrow := by
  intro s t h
  rcases step_cases h with ⟨-, rfl⟩ | ⟨n, -, rfl⟩ | ⟨f, n, -, rfl⟩ | ⟨i, n, u, hf, hu, rfl⟩
  · exact ⟨[], by simp⟩
  · exact ⟨[], by simp⟩
  · exact ⟨[], by simp⟩
  · obtain ⟨ws, hrout, hws⟩ := exec_rout hu
    refine ⟨ws, hrout, fun hne => ?_⟩
    obtain ⟨hstore, hflt⟩ := hws hne
    obtain ⟨-, ⟨hs, rest, hd⟩ | ⟨-, rfl⟩⟩ := fetch_run hf
    · exact ⟨hs, hflt.trans hs, i, rest, hd, hstore⟩
    · cases hstore

end Sys2Proof.Machine
end

section
/-! The pseudo-instructions of the hash families (spec/30_encoding R95, spec/43_sha256 R191, spec/44_hmac R214). -/

namespace Sys2Proof.Machine

/-- The MAC of a fresh context is standard HMAC: each base is the update with its padded key block, and updates in turn
are one update (R211, R214). -/
theorem hmacMac_hmacKey (key d : BitString) :
    (hmacMac (hmacKey key).1 (hmacKey key).2 (hmacKey key).1 d).1 = hmacStandard key d := by
  simp only [hmacMac, hmacDigest, hmacUpdate, shaClone, hmacKey, shaUpdate_append, hmacStandard, sha256]

/-- A command that takes no fault hands its state to the commands after it. -/
theorem execSeq_cons {i : Instr} {is : List Instr} {s t : State} (h : exec i s = .next t) (hflt : t.flt = false) :
    execSeq (i :: is) s = execSeq is t := by
  simp [execSeq, h, hflt]

theorem execSeq_singleton {i : Instr} {s t : State} (h : exec i s = .next t) : execSeq [i] s = .next t := by
  simp [execSeq, h]

/-- Reset, one update and the digest: whatever command gives the data, if the reset leaves the data as it is. -/
theorem execSeq_digest {s : State} (hs : s.flt = false) (rd : BReg) (ri : SCtx) {i : Instr} {d : BitString}
    (hd : d.length < 2 ^ 64)
    (hi : ∀ c, exec i (setKrdy (setS ri c s)) = shaUpdateInto ri d (setKrdy (setS ri c s))) :
    execSeq [.sharst ri, i, .shafin rd ri] s =
      .next (setS ri HashCtx.initial (setB rd (sha256 d) (setKrdy s))) := by
  have hupd : exec i (setKrdy (setS ri shaReset s)) =
      .next (setKrdy (setS ri (shaUpdate shaReset d) (setKrdy s))) := by
    have hfit : lenOverflows shaReset d = false := lenOverflows_eq_false.2 (by simpa using hd)
    rw [hi, shaUpdateInto, getS_setKrdy, getS_setS_same, hfit]
    simp [setS, setKrdy]
  rw [execSeq_cons (t := setKrdy (setS ri shaReset s)) rfl hs, execSeq_cons hupd hs,
    execSeq_singleton (t := setS ri HashCtx.initial (setB rd (sha256 d) (setKrdy s)))]
  simp [exec, execShafin, sha256, setS, setB, setKrdy, getS]

/-- The context `HMKEY` leaves: keyed and fresh (R217). -/
def freshMac (key : BitString) : HmacCtx := ⟨true, false, (hmacKey key).1, (hmacKey key).2, (hmacKey key).1⟩

theorem keyed_freshMac (key : BitString) : Keyed key [] (freshMac key) := keyed_fresh rfl rfl rfl rfl

/-- Keying and the one-shot MAC, which leaves the context fresh. -/
theorem execSeq_mac {s : State} (hs : s.flt = false) (rd : BReg) (ri : MCtx) (rk rm : BReg)
    (hlen : 512 + (getB s rm).length < 2 ^ 64) :
    execSeq [.hmkey ri rk, .hmmac rd ri rm] s =
      .next (setM ri (freshMac (getB s rk)) (setB rd (hmacStandard (getB s rk) (getB s rm)) (setKrdy s))) := by
  have hkey : exec (.hmkey ri rk) s = .next (setKrdy (setM ri (freshMac (getB s rk)) s)) := rfl
  have hfit : lenOverflows (hmacKey (getB s rk)).1 (getB s rm) = false :=
    lenOverflows_eq_false.2 (by simpa [hmacKey_fst_len] using hlen)
  rw [execSeq_cons hkey hs]
  apply execSeq_singleton
  simp [exec, execHmmac, hmacMacInto, freshMac, hfit, hmacMac_hmacKey]
  simp [setM, setB, setKrdy]

/-- Settles O60: the expansions run as one digest or one MAC, whose state differs from `setKrdy s` in the two registers
written. -/
theorem pseudoInstructions : Obligations.PseudoInstructions := by
  intro s hs
  refine ⟨fun rd ra hlen => ?_, fun rd ra hlen => ?_, fun rd ri rk rm hlen => ?_⟩
  · exact ⟨_, execSeq_digest hs rd 0 hlen fun _ => rfl, writesBS_setS_setB ..⟩
  · exact ⟨_, execSeq_digest hs rd 0 hlen fun _ => rfl, writesBS_setS_setB ..⟩
  · exact ⟨_, _, execSeq_mac hs rd ri rk rm hlen, writesBM_setM_setB .., keyed_freshMac _, rfl⟩

end Sys2Proof.Machine
end

section
/-! The system commands and the transfers of the three register files (spec/40_system_transfer R110 to R118). -/

namespace Sys2Proof.Machine

open Config

/-! ## Values of the words written and sent -/

/-- A status word of two flags is the number those two bits spell (R42, R46). -/
theorem dword_twoFlags_toNat (hi lo : Bool) : (dword (2 * hi.toNat + lo.toNat)).toNat = 2 * hi.toNat + lo.toNat := by
  have hhi := hi.toNat_lt
  have hlo := lo.toNat_lt
  exact dword_toNat (by omega)

/-- The two length words of a response spell the length (R93, R63). -/
theorem lengthWords_value {n : Nat} (h : n < 2 ^ 64) :
    (hiWord (dword n)).toNat * 2 ^ 32 + (loWord (dword n)).toNat = n := by
  rw [← joinWords_toNat, joinWords_hiWord_loWord, dword_toNat h]

theorem isScalar_iff {w : Word} :
    isScalar w = true ↔ w.toNat ≤ 0x10FFFF ∧ ¬(0xD800 ≤ w.toNat ∧ w.toNat ≤ 0xDFFF) := by
  simp [isScalar, imp_iff_not_or]

/-- A code point fits the word that carries it (R118). -/
theorem charWord_toNat (c : Char) : (charWord c).toNat = c.toNat :=
  Nat.mod_eq_of_lt c.val.toNat_lt

theorem map_charWord_toNat (x : Text) : (x.map charWord).map BitVec.toNat = x.map Char.toNat := by
  rw [List.map_map]
  exact List.map_congr_left fun c _ => charWord_toNat c

/-! ## Loads that fault -/

theorem exec_bload_capacity {n : DWord} (h : capBits < n.toNat) (rd : BReg) (data : List Word) (s : State) :
    exec (.bload rd n data) s = .next (takeFault .capacity s) := by
  simp [exec, execBload, h]

theorem exec_tload_capacity {n : DWord} (h : capCp < n.toNat) (rd : TReg) (data : List Word) (s : State) :
    exec (.tload rd n data) s = .next (takeFault .capacity s) := by
  simp [exec, execTload, h]

theorem exec_tload_codepoint {n : DWord} {data : List Word} {w : Word} (h : n.toNat ≤ capCp) (hw : w ∈ data)
    (hbad : ¬isScalar w = true) (rd : TReg) (s : State) :
    exec (.tload rd n data) s = .next (takeFault .codepoint s) :=
  (if_neg (not_lt.2 h)).trans (if_neg fun hall => hbad (List.all_eq_true.1 hall w hw))

/-! ## The commands -/

/-- Settles O28: a load of `n` bits within the capacity has the words for them, and takes each bit from its position. -/
theorem bitBufferLoad : Obligations.BitBufferLoad := by
  intro rd n data s hwf
  have hdata : data.length = ceilDiv n.toNat 32 := by simpa [Instr.wf, ceilDiv] using hwf
  refine ⟨fun hn => exec_bload_capacity hn rd data s, fun hn => ?_⟩
  refine ⟨_, _, exec_bload hn rd data s, writesB_setB .., ofWords_length hdata.ge, fun i hi => ?_⟩
  rw [ofWords_getD, decide_eq_true hi, Bool.true_and]

/-- Settles O30: a scalar value is its own code point, so the loaded text and the stored words spell the same numbers. -/
theorem textTransfers : Obligations.TextTransfers := by
  refine ⟨fun rd n data s _ => ⟨fun hn => exec_tload_capacity hn rd data s, ?_, ?_⟩, fun ra s => ?_⟩
  · rintro hn ⟨w, hw, hbad⟩
    refine exec_tload_codepoint hn hw (fun hs => ?_) rd s
    obtain ⟨hmax, hsurrogate⟩ := isScalar_iff.1 hs
    exact hbad.elim hmax.not_gt hsurrogate
  · intro hn hgood
    have hall : data.all isScalar = true := List.all_eq_true.2 fun w hw => isScalar_iff.2 (hgood w hw)
    refine ⟨_, _, exec_tload hn hall rd s, writesT_setT .., ?_⟩
    rw [← map_charWord_toNat, map_charWord_ofNat hall]
  · exact ⟨_, _, _, rfl, map_charWord_toNat _, lengthWords_value⟩

/-- Settles O26: each status register is narrower than 64 bits or, for a length, below `2^64`. -/
theorem systemCommands : Obligations.SystemCommands := by
  refine ⟨fun s => ⟨rfl, rfl⟩, fun rd sr s => ⟨_, srValue s sr, rfl, writesX_setX .., ?_⟩⟩
  cases sr with
  | status => exact dword_twoFlags_toNat _ _
  | mstat i => exact dword_twoFlags_toNat _ _
  | errkind => exact BitVec.toNat_setWidth_of_le (by norm_num)
  | errdet => exact BitVec.toNat_setWidth_of_le (by norm_num)
  | errcp | cp | idr | slen i => rfl
  | capbits => exact dword_toNat (capBits_lt.trans (by norm_num))
  | capcp => exact dword_toNat (capCp_le.trans_lt (by norm_num))
  | splen i => exact dword_toNat

/-- Settles O27: the halves of `X[ra]` are its quotient and remainder by `2^32`. -/
theorem scalarTransfers : Obligations.ScalarTransfers :=
  ⟨fun rd v s => ⟨_, rfl, writesX_setX rd v s⟩, fun _ _ => ⟨_, _, rfl, hiWord_toNat _, loWord_toNat _⟩⟩

/-- Settles O29: the words after the length are the word form's own. -/
theorem bitBufferStore : Obligations.BitBufferStore := fun _ _ => ⟨_, _, rfl, lengthWords_value⟩

end Sys2Proof.Machine
end

section
/-! The word-level procedures against the bit-level ones (spec/41_bitbuffer R139, spec/10_state R24). -/

namespace Sys2Proof.Machine

/-! ## The bits of one word under the operations of the shifter -/

theorem wordBits_getElem {w : Word} {i : Nat} (h : i < (wordBits w).length) : (wordBits w)[i] = w.getLsbD (31 - i) := by
  rw [← List.getD_eq_getElem _ false h, wordBits, be_getD _ (by simpa using h)]
  rfl

theorem wordBits_ushiftRight (w : Word) {c : Nat} (hc : c ≤ 32) :
    wordBits (w >>> c) = zeros c ++ (wordBits w).take (32 - c) := by
  refine List.ext_getElem (by simp; omega) fun i hi _ => ?_
  rw [wordBits_length] at hi
  rw [wordBits_getElem, BitVec.getLsbD_ushiftRight, List.getElem_append]
  split <;> rename_i hic <;> rw [zeros_length] at hic
  · simpa [zeros] using BitVec.getLsbD_of_ge w _ (by omega)
  · rw [List.getElem_take, wordBits_getElem, zeros_length, show c + (31 - i) = 31 - (i - c) by omega]

theorem wordBits_shiftLeft (w : Word) {r : Nat} (hr : r ≤ 32) :
    wordBits (w <<< r) = (wordBits w).drop r ++ zeros r := by
  refine List.ext_getElem (by simp; omega) fun i hi _ => ?_
  rw [wordBits_length] at hi
  rw [wordBits_getElem, BitVec.getLsbD_shiftLeft, List.getElem_append]
  split <;> rename_i hir <;> rw [List.length_drop, wordBits_length] at hir
  · rw [List.getElem_drop, wordBits_getElem, show 31 - i - r = 31 - (r + i) by omega]
    simp; omega
  · simp [zeros]; omega

/-- Words that use disjoint ends are joined by OR. -/
theorem wordBits_or {u v : Word} {p q : BitString} {n : Nat} (hu : wordBits u = p ++ zeros n)
    (hv : wordBits v = zeros p.length ++ q) : wordBits (u ||| v) = p ++ q := by
  have hlen : p.length + n = 32 := by simpa using (congrArg List.length hu).symm
  have hlen' : p.length + q.length = 32 := by simpa using (congrArg List.length hv).symm
  refine List.ext_getElem (by simp [hlen']) fun i hi _ => ?_
  have hbit : (wordBits (u ||| v))[i] =
      ((wordBits u)[i]'(by simpa using hi) || (wordBits v)[i]'(by simpa using hi)) := by
    simp only [wordBits_getElem, BitVec.getLsbD_or]
  simp only [hbit, hu, hv, List.getElem_append, zeros_length]
  split <;> simp [zeros]

/-! ## The word form by the bits of its words (R24, R26) -/

/-- The words of the word form spell the bit string, then the spare zeros of the last word. -/
theorem flatMap_toWords (a : BitString) :
    (toWords a).flatMap wordBits = a ++ zeros (32 * ceilDiv a.length 32 - a.length) := by
  refine List.ext_getElem ?_ fun i hi hi' => ?_
  · rw [flatMap_wordBits_length, toWords_length, List.length_append, zeros_length, ceilDiv]
    omega
  · rw [← List.getD_eq_getElem _ false hi, ← List.getD_eq_getElem _ false hi', flatMap_wordBits_getD, toWords_getLsbD,
      getD_append_zeros]

theorem toWords_eq_nil {a : BitString} : toWords a = [] ↔ a = [] := by
  rw [← List.length_eq_zero_iff, ← List.length_eq_zero_iff, toWords_length, ceilDiv]
  omega

/-- The word form of a bit string that is not empty is the one with a last count from 1 to 32 whose words spell it. -/
theorem eq_wordForm_iff {a : BitString} (ha : a ≠ []) {f : WordForm} : f = wordForm a ↔
    1 ≤ f.lv ∧ f.lv ≤ 32 ∧ f.words.flatMap wordBits = a ++ zeros (32 - f.lv) := by
  have hpos := List.length_pos_iff.2 ha
  constructor
  · rintro rfl
    simp only [wordForm, flatMap_toWords]
    refine ⟨?_, ?_, ?_⟩
    · unfold ceilDiv; omega
    · unfold ceilDiv; omega
    · congr 2; unfold ceilDiv; omega
  · rintro ⟨hlo, hhi, hbits⟩
    have hlen : 32 * f.words.length = a.length + (32 - f.lv) := by
      rw [← flatMap_wordBits_length, hbits, List.length_append, zeros_length]
    have hcount : f.words.length = ceilDiv a.length 32 := by unfold ceilDiv; omega
    have hwords : f.words = toWords a := by
      refine words_ext (by rw [hcount, toWords_length]) fun i => ?_
      rw [← flatMap_wordBits_getD, hbits, getD_append_zeros, toWords_getLsbD]
    have hlv : f.lv = a.length - 32 * (ceilDiv a.length 32 - 1) := by rw [← hcount]; omega
    rw [wordForm, ← hwords, ← hlv]

/-- The last of some words holds the last `lv` bits they spell, the words before it all the others. -/
theorem exists_lastWord_bits {a : BitString} {ws : List Word} {lv : Nat} (ha : a ≠ []) (hlo : 1 ≤ lv) (hhi : lv ≤ 32)
    (h : ws.flatMap wordBits = a ++ zeros (32 - lv)) :
    ∃ p, p.length = lv ∧ a = ws.dropLast.flatMap wordBits ++ p ∧ wordBits (ws.getLastD 0) = p ++ zeros (32 - lv) := by
  have hne : ws ≠ [] := by
    rintro rfl
    exact ha (List.append_eq_nil_iff.1 h.symm).1
  rw [← List.dropLast_append_getLast hne, List.flatMap_append, List.flatMap_singleton] at h
  rw [List.getLastD_eq_getLast?, List.getLast?_eq_some_getLast hne, Option.getD_some]
  obtain ⟨p, hinit, hlast⟩ | ⟨q, _, hq⟩ := List.append_eq_append_iff.1 h
  · have hlen := congrArg List.length hlast
    rw [wordBits_length, List.length_append, zeros_length] at hlen
    exact ⟨p, by omega, hinit, hlast⟩
  · have hlen := congrArg List.length hq
    rw [zeros_length, List.length_append, wordBits_length] at hlen
    omega

/-! ## Concatenation (R139) -/

/-- The carry loop puts the bits of the words behind those of the open word, and leaves the last word open. -/
theorem wordCatLoop_bits {c : Nat} (hc : c ≤ 32) (ws : List Word) {carry : Word} {p : BitString} (hlen : p.length = c)
    (hp : wordBits carry = p ++ zeros (32 - c)) :
    (wordCatLoop c carry ws).1.flatMap wordBits ++ wordBits (wordCatLoop c carry ws).2 =
      p ++ ws.flatMap wordBits ++ zeros (32 - c) := by
  induction ws generalizing carry p with
  | nil => simpa [wordCatLoop] using hp
  | cons w ws ih =>
    have hfilled : wordBits (carry ||| (w >>> c)) = p ++ (wordBits w).take (32 - c) :=
      wordBits_or hp (by rw [hlen, wordBits_ushiftRight w hc])
    have hopen := ih (by simp; omega) (wordBits_shiftLeft w (Nat.sub_le 32 c))
    simp only [wordCatLoop, List.flatMap_cons]
    rw [hfilled, List.append_assoc, hopen]
    simp only [← List.append_assoc, List.append_cancel_right_eq]
    rw [List.append_assoc p, List.take_append_drop]

/-- Behind all words of `a` but the open last one, the carry loop spells both strings, then the spare zeros of both. -/
theorem wordCatLoop_spells {a b : BitString} {wa wb : List Word} {c n : Nat} (ha : a ≠ []) (hlo : 1 ≤ c) (hhi : c ≤ 32)
    (hbitsA : wa.flatMap wordBits = a ++ zeros (32 - c)) (hbitsB : wb.flatMap wordBits = b ++ zeros n) :
    (wa.dropLast ++ (wordCatLoop c (wa.getLastD 0) wb).1).flatMap wordBits ++
      wordBits (wordCatLoop c (wa.getLastD 0) wb).2 = a ++ b ++ zeros (n + (32 - c)) := by
  obtain ⟨p, hlen, hinit, hlast⟩ := exists_lastWord_bits ha hlo hhi hbitsA
  calc (wa.dropLast ++ (wordCatLoop c (wa.getLastD 0) wb).1).flatMap wordBits ++
        wordBits (wordCatLoop c (wa.getLastD 0) wb).2
      = wa.dropLast.flatMap wordBits ++ (p ++ (b ++ zeros n) ++ zeros (32 - c)) := by
        rw [List.flatMap_append, List.append_assoc, wordCatLoop_bits hhi wb hlen hlast, hbitsB]
    _ = (wa.dropLast.flatMap wordBits ++ p) ++ b ++ (zeros n ++ zeros (32 - c)) := by simp only [List.append_assoc]
    _ = a ++ b ++ zeros (n + (32 - c)) := by rw [← hinit, zeros, zeros, zeros, List.replicate_append_replicate]

/-- A last word that holds no bit is all zeros: without it the words spell the same bits. -/
theorem drop_zero_word {x y : BitString} {w : Word} {k : Nat} (h : x ++ wordBits w = y ++ zeros (k + 32)) :
    x = y ++ zeros k := by
  rw [zeros, ← List.replicate_append_replicate, ← List.append_assoc] at h
  exact (List.append_inj' h (by simp)).1

/-- Settles O33: the words before the open one are kept, and the carry loop spells the rest. -/
theorem wordConcatIsConcat : Obligations.WordConcatIsConcat := by
  intro a b
  rcases eq_or_ne a [] with rfl | ha
  · exact if_pos rfl
  rcases eq_or_ne b [] with rfl | hb
  · rw [List.append_nil]
    exact (if_neg (mt toWords_eq_nil.1 ha)).trans (if_pos rfl)
  obtain ⟨hc, hc', hbitsA⟩ := (eq_wordForm_iff ha).1 rfl
  obtain ⟨hd, hd', hbitsB⟩ := (eq_wordForm_iff hb).1 rfl
  have hneA : (wordForm a).words ≠ [] := mt toWords_eq_nil.1 ha
  have hneB : (wordForm b).words ≠ [] := mt toWords_eq_nil.1 hb
  have hspells := wordCatLoop_spells ha hc hc' hbitsA hbitsB
  refine (eq_wordForm_iff (List.append_ne_nil_of_left_ne_nil ha b)).2 ?_
  simp only [wordCat, if_neg hneA, if_neg hneB]
  split_ifs with hfull hmore
  · -- The last word of `a` is full: no spare zeros lie between the two.
    refine ⟨hd, hd', ?_⟩
    rw [List.flatMap_append, hbitsA, hbitsB, hfull, Nat.sub_self, zeros, List.replicate_zero, List.append_nil,
      List.append_assoc]
  · -- The carry holds bits of `b`: it is the last word.
    refine ⟨by dsimp only; omega, by dsimp only; omega, ?_⟩
    rw [List.flatMap_append, List.flatMap_singleton, hspells]
    dsimp only
    congr 2; omega
  · -- The carry is all zeros, and is dropped.
    refine ⟨by dsimp only; omega, by dsimp only; omega, drop_zero_word (hspells.trans ?_)⟩
    dsimp only
    congr 2; omega

/-! ## Slice (R139) -/

theorem flatMap_drop_wordBits (k : Nat) (ws : List Word) :
    (ws.drop k).flatMap wordBits = (ws.flatMap wordBits).drop (32 * k) := by
  induction k generalizing ws with
  | zero => rfl
  | succ k ih =>
    cases ws with
    | nil => simp
    | cons w ws => simp [ih, Nat.mul_succ, Nat.add_comm, ← List.drop_drop, List.drop_left']

theorem wordShiftLeft_length (r : Nat) (ws : List Word) : (wordShiftLeft r ws).length = ws.length := by
  induction ws with
  | nil => rfl
  | cons w ws ih => simp [wordShiftLeft, ih]

/-- What enters a word from the right is the first bits of the words behind it, or zeros when there are none. -/
theorem wordBits_headD_take {r : Nat} (hr : r ≤ 32) (ws : List Word) :
    (wordBits (ws.headD 0)).take r = (ws.flatMap wordBits ++ zeros r).take r := by
  cases ws with
  | nil =>
    have hzero : wordBits 0 = zeros 32 := by decide
    rw [List.headD_nil, hzero, List.flatMap_nil, List.nil_append, zeros, zeros, List.take_replicate,
      List.take_replicate, Nat.min_self, Nat.min_eq_left hr]
  | cons w ws => simp [hr]

/-- The shifter drops the first `r` bits, and zeros enter at the end. -/
theorem wordShiftLeft_bits {r : Nat} (hr : r ≤ 32) (ws : List Word) :
    (wordShiftLeft r ws).flatMap wordBits = (ws.flatMap wordBits ++ zeros r).drop r := by
  induction ws with
  | nil => simp [wordShiftLeft, zeros]
  | cons w ws ih =>
    have hdrop : ((wordBits w).drop r).length = 32 - r := by simp
    have hword : wordBits ((w <<< r) ||| (ws.headD 0 >>> (32 - r))) =
        (wordBits w).drop r ++ (ws.flatMap wordBits ++ zeros r).take r := by
      rw [← wordBits_headD_take hr]
      refine wordBits_or (wordBits_shiftLeft w hr) ?_
      rw [hdrop, wordBits_ushiftRight _ (Nat.sub_le ..), Nat.sub_sub_self hr]
    rw [wordShiftLeft, List.flatMap_cons, hword, ih, List.append_assoc, List.take_append_drop, List.flatMap_cons,
      List.append_assoc, List.drop_append_of_le_length (by simpa using hr)]

/-- Settles O34: the shifted words begin with the bits from position `s` on, and truncation keeps those up to `e`. -/
theorem wordSliceIsSlice : Obligations.WordSliceIsSlice := by
  intro a s e hse he
  have hcount : ceilDiv (e - s) 32 ≤ (wordShiftLeft (s % 32) ((toWords a).drop (s / 32))).length := by
    rw [wordShiftLeft_length, List.length_drop, toWords_length]
    unfold ceilDiv
    omega
  have hbits : ofWords (e - s) (wordShiftLeft (s % 32) ((toWords a).drop (s / 32))) = slice a s e := by
    rw [ofWords, wordShiftLeft_bits (Nat.mod_lt s (by norm_num)).le, flatMap_drop_wordBits, flatMap_toWords,
      List.drop_append_of_le_length (by simp; omega), List.drop_drop, Nat.div_add_mod,
      List.drop_append_of_le_length (hse.trans he), List.append_assoc,
      List.take_append_of_le_length (by rw [List.length_drop]; omega), slice]
  rw [wordSlice, ← hbits]
  exact wordTrunc_eq_wordForm hcount

end Sys2Proof.Machine
end

section
/-! The commands of the BitBuffer unit (spec/41_bitbuffer R131 to R138). -/

namespace Sys2Proof.Machine

open Config

/-! ## Positions of bit strings -/

theorem bits_eq_iff {a b : BitString} :
    a = b ↔ a.length = b.length ∧ ∀ i, a.getD i false = b.getD i false := by
  refine ⟨fun h => h ▸ ⟨rfl, fun _ => rfl⟩, fun ⟨hlen, hbits⟩ => List.ext_getElem hlen fun i hi hi' => ?_⟩
  rw [← List.getD_eq_getElem a false hi, ← List.getD_eq_getElem b false hi', hbits]

/-- Bit `i` of a slice is bit `s + i` of the source (R132). -/
theorem slice_getD {a : BitString} {s e i : Nat} (h : i < e - s) :
    (slice a s e).getD i false = a.getD (s + i) false := by
  rw [slice, List.getD_eq_getElem?_getD, List.getElem?_take_of_lt h, List.getElem?_drop, List.getD_eq_getElem?_getD]

/-- Bit `i` of a value is the bit `i` places before the last one, and there is none from the length on. -/
theorem val_testBit (a : BitString) (i : Nat) :
    (val a).testBit i = (decide (i < a.length) && a.getD (a.length - 1 - i) false) := by
  rcases Nat.lt_or_ge i a.length with hi | hi
  · have hbit := be_getD (val a) (show a.length - 1 - i < a.length by omega)
    rw [be_val, Nat.sub_sub_self (by omega)] at hbit
    rw [hbit, decide_eq_true hi, Bool.true_and]
  · rw [Nat.testBit_lt_two_pow ((val_lt a).trans_le (Nat.pow_le_pow_right (by norm_num) hi)),
      decide_eq_false hi.not_gt, Bool.false_and]

/-! ## Slices (R132) -/

theorem sliceInto_range {ra : BReg} {st en : Int} {s : State}
    (h : ¬(0 ≤ st ∧ st ≤ en ∧ en ≤ (getB s ra).length)) (rd : BReg) :
    sliceInto rd ra st en s = .next (takeFault .range s) := if_neg h

/-- Within the buffer the destination gets the bits from `st` up to `en`. -/
theorem sliceInto_writes {ra : BReg} {st en : Int} {s : State} (h : 0 ≤ st ∧ st ≤ en ∧ en ≤ (getB s ra).length)
    (rd : BReg) : ∃ t b, sliceInto rd ra st en s = .next t ∧ WritesB rd b s t ∧ (b.length : Int) = en - st ∧
      ∀ i, i < b.length → b.getD i false = (getB s ra).getD (st.toNat + i) false := by
  obtain ⟨hst, hse, hen⟩ := h
  have hlen : (slice (getB s ra) st.toNat en.toNat).length = en.toNat - st.toNat := slice_length (by omega)
  refine ⟨_, _, if_pos ⟨hst, hse, hen⟩, writesB_setB .., by omega, fun i hi => slice_getD (hlen ▸ hi)⟩

/-- Settles O36: both forms are `sliceInto`, to the given end or to the end of the buffer. -/
theorem sliceCommands : Obligations.SliceCommands := by
  intro rd ra rb rc s
  refine ⟨fun h => sliceInto_range h rd, fun h => sliceInto_writes h rd, fun h => ?_, fun h => ?_⟩
  · exact sliceInto_range (fun ⟨hst, hse, _⟩ => h ⟨hst, hse⟩) rd
  · exact sliceInto_writes ⟨h.1, h.2, le_rfl⟩ rd

/-! ## Length and equality (R131, R138) -/

/-- Settles O35: two bit strings are equal exactly when they have the same length and the same bit at every position. -/
theorem lengthAndEquality : Obligations.LengthAndEquality := by
  refine ⟨fun rd ra s => ⟨_, _, rfl, writesX_setX .., dword_toNat⟩, fun rd ra rb s => ⟨_, _, rfl, writesX_setX .., ?_⟩⟩
  rw [← bits_eq_iff]
  split_ifs with h
  · exact ⟨iff_of_true rfl h, .inr rfl⟩
  · exact ⟨iff_of_false (by decide) h, .inl rfl⟩

/-! ## Extraction (R133) -/

/-- The value of a span of at most 32 bits, right-justified: its bit `i` is the bit `i` places before the span's end. -/
theorem dword_val_slice_getLsbD {a : BitString} {st n : Nat} (hn : n ≤ 32) (h : st + n ≤ a.length) (i : Nat) :
    (dword (val (slice a st (st + n)))).getLsbD i = (decide (i < n) && a.getD (st + (n - 1 - i)) false) := by
  have hlen : (slice a st (st + n)).length = n := by rw [slice_length h, Nat.add_sub_cancel_left]
  rw [dword, BitVec.getLsbD_ofNat, val_testBit, hlen]
  by_cases hi : i < n
  · rw [slice_getD (by omega), decide_eq_true (by omega), Bool.true_and]
  · rw [decide_eq_false hi, Bool.false_and, Bool.false_and, Bool.and_false]

/-- Settles O37, by the bits of the span's value. -/
theorem extractCommand : Obligations.ExtractCommand := by
  intro rd ra rb rc s
  refine ⟨fun h => if_neg h, fun h => ⟨_, _, if_pos h, writesX_setX .., ?_⟩⟩
  obtain ⟨hn, hn', hst, hend⟩ := h
  have hbit := dword_val_slice_getLsbD (a := getB s ra) (st := (getX s rb).toInt.toNat) (n := (getX s rc).toInt.toNat)
    (by omega) (by omega)
  refine ⟨fun i hi => (hbit i).trans ?_, fun i hi => (hbit i).trans ?_⟩
  · rw [decide_eq_true hi, Bool.true_and]
  · rw [decide_eq_false hi.not_gt, Bool.false_and]

/-! ## Concatenation and truncation (R134, R135) -/

theorem exec_bcat_capacity {ra rb : BReg} {s : State} (h : capBits < (getB s ra).length + (getB s rb).length)
    (rd : BReg) : exec (.bcat rd ra rb) s = .next (takeFault .capacity s) := by
  simp [exec, execBcat, h]

theorem exec_bcat {ra rb : BReg} {s : State} (h : (getB s ra).length + (getB s rb).length ≤ capBits) (rd : BReg) :
    exec (.bcat rd ra rb) s = .next (setB rd (getB s ra ++ getB s rb) s) := by
  simp [exec, execBcat, h.not_gt]

theorem exec_btrunc {rb : XReg} {s : State} (h : 0 ≤ position s rb) (rd ra : BReg) :
    exec (.btrunc rd ra rb) s = .next (setB rd ((getB s ra).take (position s rb).toNat) s) := if_neg h.not_gt

/-- Settles O38: taking at least the whole buffer keeps it. -/
theorem concatAndTruncate : Obligations.ConcatAndTruncate := by
  refine ⟨fun rd ra rb s => ⟨fun h => exec_bcat_capacity h rd, fun h => ⟨_, exec_bcat h rd, writesB_setB ..⟩⟩,
    fun rd ra rb s => ⟨fun h => if_pos h, fun h => ?_⟩⟩
  refine ⟨_, _, exec_btrunc h rd ra, writesB_setB .., fun hlen => ?_, fun _ => rfl⟩
  exact List.take_of_length_le (by unfold position sint64; omega)

/-! ## Partial words (R136, R137) -/

/-- The value of a partial word has no bit outside its field of `c` bits: the top bits of 32 when it is shifted into
place already, the low bits when it is not (R136). -/
def InField (c v : Nat) (shifted : Bool) : Prop :=
  if shifted then v < 2 ^ 32 ∧ ∀ i, i < 32 - c → v.testBit i = false else v < 2 ^ c

/-- A count of 1 to 32 and a value within its field: what `BMKP` packs (R136). -/
def Packable (c v : Nat) (shifted : Bool) : Prop := 1 ≤ c ∧ c ≤ 32 ∧ InField c v shifted

/-- The left-justified payload of a partial word (R27). -/
def partialPayload (c v : Nat) (shifted : Bool) : Nat := if shifted then v else v * 2 ^ (32 - c)

theorem mod_two_pow_eq_zero_iff {v k : Nat} : v % 2 ^ k = 0 ↔ ∀ i, i < k → v.testBit i = false := by
  refine ⟨fun h i hi => ?_, fun h => Nat.eq_of_testBit_eq fun i => ?_⟩
  · have := Nat.testBit_mod_two_pow v k i
    rwa [h, Nat.zero_testBit, decide_eq_true hi, Bool.true_and, eq_comm] at this
  · rw [Nat.testBit_mod_two_pow, Nat.zero_testBit]
    by_cases hi : i < k
    · rw [h i hi, Bool.and_false]
    · rw [decide_eq_false hi, Bool.false_and]

theorem packPayload_of_inField {c v : Nat} {shifted : Bool} (h : InField c v shifted) :
    packPayload c v shifted = some (partialPayload c v shifted) := by
  cases shifted with
  | false => exact if_neg (not_le.2 h)
  | true => exact if_neg (not_or.2 ⟨not_le.2 h.1, not_not.2 (mod_two_pow_eq_zero_iff.2 h.2)⟩)

theorem packPayload_of_not_inField {c v : Nat} {shifted : Bool} (h : ¬InField c v shifted) :
    packPayload c v shifted = none := by
  cases shifted with
  | false => exact if_pos (not_lt.1 h)
  | true => exact if_pos (or_iff_not_imp_left.2 fun hv hmod => h ⟨not_le.1 hv, mod_two_pow_eq_zero_iff.1 hmod⟩)

theorem partialPayload_lt {c v : Nat} {shifted : Bool} (hc : c ≤ 32) (h : InField c v shifted) :
    partialPayload c v shifted < 2 ^ 32 := by
  cases shifted with
  | false =>
    calc v * 2 ^ (32 - c) < 2 ^ c * 2 ^ (32 - c) := Nat.mul_lt_mul_of_pos_right h (by positivity)
      _ = 2 ^ 32 := by rw [← pow_add, Nat.add_sub_cancel' hc]
  | true => exact h.1

/-- The packed partial word: the payload in the low half, the count above it with 32 written as 0 (R27). -/
def partialWord (c v : Nat) (shifted : Bool) : DWord := dword (c % 32 * 2 ^ 32 + partialPayload c v shifted)

theorem partialWord_toNat {c v : Nat} {shifted : Bool} (hc : c ≤ 32) (h : InField c v shifted) :
    (partialWord c v shifted).toNat = c % 32 * 2 ^ 32 + partialPayload c v shifted := by
  have := partialPayload_lt hc h
  exact dword_toNat (by omega)

theorem exec_bmkp {ra rb : XReg} {shifted : Bool} {s : State}
    (h : Packable (getX s ra).toNat (getX s rb).toNat shifted) (rd : XReg) : exec (.bmkp rd ra rb shifted) s =
      .next (setX rd (partialWord (getX s ra).toNat (getX s rb).toNat shifted) s) := by
  obtain ⟨hlo, hhi, hfield⟩ := h
  simp [exec, execBmkp, packPayload_of_inField hfield, partialWord, hlo.not_gt, hhi.not_gt]

theorem exec_bmkp_range {ra rb : XReg} {shifted : Bool} {s : State}
    (h : ¬Packable (getX s ra).toNat (getX s rb).toNat shifted) (rd : XReg) :
    exec (.bmkp rd ra rb shifted) s = .next (takeFault .range s) := by
  simp only [exec, execBmkp]
  split_ifs with hcount
  · rfl
  · rw [packPayload_of_not_inField fun hfield => h ⟨by omega, by omega, hfield⟩]
    rfl

/-! The fields of a partial word (R27). -/

theorem partialCount_toNat (w : DWord) : (w.extractLsb' 32 5).toNat = w.toNat / 2 ^ 32 % 32 := by
  rw [BitVec.extractLsb'_toNat, Nat.shiftRight_eq_div_pow]

theorem partialTop_eq_zero {w : DWord} : w.extractLsb' 37 27 = 0 ↔ w.toNat < 2 ^ 37 := by
  have hw := w.isLt
  rw [← BitVec.toNat_inj, BitVec.extractLsb'_toNat, Nat.shiftRight_eq_div_pow]
  change _ = 0 ↔ _
  omega

/-- Settles O39: the payload is below `2^32`, so count and payload are the quotient and the remainder of the word. -/
theorem makePartial : Obligations.MakePartial := by
  intro rd ra rb shifted s
  refine ⟨fun h => exec_bmkp_range h rd, fun h => ⟨_, _, exec_bmkp h rd, writesX_setX .., ?_⟩⟩
  obtain ⟨-, hhi, hfield⟩ := h
  have hword := partialWord_toNat hhi hfield
  have hpayload := partialPayload_lt hhi hfield
  refine ⟨?_, ?_, ?_⟩
  · refine (loWord_toNat _).trans ?_
    rw [hword, Nat.mul_add_mod_of_lt hpayload]
    rfl
  · rw [partialCount_toNat, hword]
    omega
  · rw [partialTop_eq_zero, hword]
    omega

theorem exec_bgvc_range {ra : XReg} {s : State} (h : 2 ^ 37 ≤ (getX s ra).toNat) (rd : XReg) :
    exec (.bgvc rd ra) s = .next (takeFault .range s) := if_pos (mt partialTop_eq_zero.1 h.not_gt)

theorem exec_bgvc {ra : XReg} {s : State} (h : (getX s ra).toNat < 2 ^ 37) (rd : XReg) :
    exec (.bgvc rd ra) s = .next (setX rd (dword
      (if (getX s ra).toNat / 2 ^ 32 = 0 then 32 else (getX s ra).toNat / 2 ^ 32)) s) := by
  have hcount : ((getX s ra).extractLsb' 32 5).toNat = (getX s ra).toNat / 2 ^ 32 := by
    rw [partialCount_toNat]
    omega
  refine (if_neg (not_not.2 (partialTop_eq_zero.2 h))).trans ?_
  rw [hcount]

/-- The count read from a packed partial word is the one it was packed with. -/
theorem exec_bgvc_partialWord {c v : Nat} {shifted : Bool} (h : Packable c v shifted) {rd : XReg} {t : State}
    (ht : getX t rd = partialWord c v shifted) (re : XReg) :
    exec (.bgvc re rd) t = .next (setX re (dword c) t) := by
  obtain ⟨hlo, hhi, hfield⟩ := h
  have hpayload := partialPayload_lt hhi hfield
  have hword : (getX t rd).toNat = c % 32 * 2 ^ 32 + partialPayload c v shifted := by
    rw [ht, partialWord_toNat hhi hfield]
  have hcount : (getX t rd).toNat / 2 ^ 32 = c % 32 := by omega
  have hread : (if c % 32 = 0 then 32 else c % 32) = c := by split_ifs <;> omega
  rw [exec_bgvc (by omega), hcount, hread]

/-- Settles O40: a `BMKP` that leaves `FLT` clear packed a partial word, whose count `BGVC` reads. -/
theorem validCount : Obligations.ValidCount := by
  refine ⟨fun rd ra s => ⟨fun h => exec_bgvc_range h rd, fun h => ⟨_, _, exec_bgvc h rd, writesX_setX .., ?_⟩⟩, ?_⟩
  · exact dword_toNat (by split_ifs <;> omega)
  · intro rd ra rb re shifted s t _ hexec hflt
    by_cases h : Packable (getX s ra).toNat (getX s rb).toNat shifted
    · rw [exec_bmkp h rd] at hexec
      cases hexec
      refine ⟨_, exec_bgvc_partialWord h (getX_setX_same ..) re, ?_⟩
      rw [getX_setX_same, dword, BitVec.ofNat_toNat, BitVec.setWidth_eq]
    · rw [exec_bmkp_range h rd] at hexec
      cases hexec
      cases hflt

end Sys2Proof.Machine
end

section
/-! What both codecs rest on: numbers written in fields and groups of bits (spec/00_scope R10), and the numbers that are
code points (spec/10_state R29). -/

namespace Sys2Proof.Machine

/-! ## Fields and groups of bits -/

theorem be_mod (n v : Nat) : be n (v % 2 ^ n) = be n v := by
  have h := be_val (be n v)
  rwa [be_length, val_be] at h

/-- A field of `q` bits behind a field of `p` bits. -/
theorem be_fields (p q k v : Nat) : be (p + q) (k * 2 ^ q + v % 2 ^ q) = be p k ++ be q v := by
  have hv : v % 2 ^ q < 2 ^ q := Nat.mod_lt _ (by positivity)
  induction p with
  | zero => rw [Nat.zero_add, ← be_mod, Nat.mul_add_mod_self_right, Nat.mod_mod, be_mod]; rfl
  | succ p ih =>
    rw [Nat.add_right_comm, be, ih, be, mul_comm, Nat.testBit_two_pow_mul_add _ hv, if_neg (by omega),
      Nat.add_sub_cancel, List.cons_append]

/-- The bytes of the groups of `n` bits are the groups themselves. -/
theorem flatMap_be_chunks {n k : Nat} {a : BitString} (h : a.length = n * k) :
    ((chunks n k a).map val).flatMap (be n) = a := by
  induction k generalizing a with
  | zero => exact (List.length_eq_zero_iff.1 h).symm
  | succ k ih =>
    rw [Nat.mul_succ] at h
    have htake : (a.take n).length = n := by rw [List.length_take]; omega
    have hbe : be n (val (a.take n)) = a.take n := by simpa [htake] using be_val (a.take n)
    rw [chunks, List.map_cons, List.flatMap_cons, hbe, ih (by rw [List.length_drop]; omega), List.take_append_drop]

theorem flatMap_be_length (n : Nat) (vs : List Nat) : (vs.flatMap (be n)).length = n * vs.length := by
  simp [List.length_flatMap, Nat.mul_comm]

/-- Numbers below `2^n`, written in `n` bits each, are the values of the groups. -/
theorem map_val_chunks_flatMap_be {n : Nat} {vs : List Nat} (h : ∀ v ∈ vs, v < 2 ^ n) :
    (chunks n vs.length (vs.flatMap (be n))).map val = vs := by
  induction vs with
  | nil => rfl
  | cons v vs ih =>
    rw [List.forall_mem_cons] at h
    rw [List.flatMap_cons, List.length_cons, chunks, List.take_left' (be_length ..), List.drop_left' (be_length ..),
      List.map_cons, val_be, Nat.mod_eq_of_lt h.1, ih h.2]

/-! ## Code points -/

theorem char_toNat_range (c : Char) : c.toNat ≤ 0x10FFFF ∧ ¬(0xD800 ≤ c.toNat ∧ c.toNat ≤ 0xDFFF) := by
  have h : c.toNat.isValidChar := c.valid
  unfold Nat.isValidChar at h
  omega

theorem toNat_ofNat_of_range {n : Nat} (hmax : n ≤ 0x10FFFF) (hsurrogate : ¬(0xD800 ≤ n ∧ n ≤ 0xDFFF)) :
    (Char.ofNat n).toNat = n := by
  rw [Char.toNat_ofNat, if_pos (by unfold Nat.isValidChar; omega)]

end Sys2Proof.Machine
end

section
/-! The UTF-8 codec: the layout of the encoder and the exactness of the decoder (spec/42_codecs R161, R163). -/

namespace Sys2Proof.Machine

/-! ## One code point -/

/-- The four forms of a lead byte (R163). -/
theorem utf8Lead_eq_some {y k c0 lo : Nat} : utf8Lead y = some (k, c0, lo) ↔
    (y ≤ 0x7F ∧ k = 0 ∧ c0 = y ∧ lo = 0) ∨
    (0xC2 ≤ y ∧ y ≤ 0xDF ∧ k = 1 ∧ c0 = y - 0xC0 ∧ lo = 0x80) ∨
    (0xE0 ≤ y ∧ y ≤ 0xEF ∧ k = 2 ∧ c0 = y - 0xE0 ∧ lo = 0x800) ∨
    (0xF0 ≤ y ∧ y ≤ 0xF4 ∧ k = 3 ∧ c0 = y - 0xF0 ∧ lo = 0x10000) := by
  unfold utf8Lead
  split_ifs <;> simp <;> omega

theorem utf8Cont_nil (c : Nat) : utf8Cont c [] = some c := rfl

theorem utf8Cont_cons {c y d : Nat} {ys : List Nat} : utf8Cont c (y :: ys) = some d ↔
    (0x80 ≤ y ∧ y ≤ 0xBF) ∧ utf8Cont (c * 64 + (y - 0x80)) ys = some d := by
  rw [utf8Cont]
  split_ifs with h
  · exact iff_of_false nofun fun ⟨hy, _⟩ => by omega
  · exact (and_iff_right (by omega)).symm

/-- A lead byte and as many continuation bytes as it asks for, of a value that this form may encode (R163). -/
def Utf8Sequence (c y : Nat) (ys : List Nat) : Prop :=
  ∃ c0 lo, utf8Lead y = some (ys.length, c0, lo) ∧ utf8Cont c0 ys = some c ∧ lo ≤ c

theorem utf8Bytes_of_sequence {c y : Nat} {ys : List Nat} (hc : c ≤ 0x10FFFF) (h : Utf8Sequence c y ys) :
    utf8Bytes c = y :: ys := by
  obtain ⟨c0, lo, hlead, hcont, hlo⟩ := h
  unfold utf8Bytes
  rcases utf8Lead_eq_some.1 hlead with ⟨hy, hk, hc0, -⟩ | ⟨hy, hy', hk, hc0, hlo'⟩ | ⟨hy, hy', hk, hc0, hlo'⟩ |
    ⟨hy, hy', hk, hc0, hlo'⟩
  · obtain rfl := List.length_eq_zero_iff.1 hk
    obtain rfl : c0 = c := Option.some.inj hcont
    rw [hc0, if_pos hy]
  · obtain ⟨y1, rfl⟩ := List.length_eq_one_iff.1 hk
    simp only [utf8Cont_cons, utf8Cont_nil, Option.some.injEq] at hcont
    rw [if_neg (by omega), if_pos (by omega)]
    simp only [List.cons.injEq, and_true]
    omega
  · obtain ⟨y1, y2, rfl⟩ := List.length_eq_two.1 hk
    simp only [utf8Cont_cons, utf8Cont_nil, Option.some.injEq] at hcont
    rw [if_neg (by omega), if_neg (by omega), if_pos (by omega)]
    simp only [List.cons.injEq, and_true]
    omega
  · obtain ⟨y1, y2, y3, rfl⟩ := List.length_eq_three.1 hk
    simp only [utf8Cont_cons, utf8Cont_nil, Option.some.injEq] at hcont
    rw [if_neg (by omega), if_neg (by omega), if_neg (by omega)]
    simp only [List.cons.injEq, and_true]
    omega

theorem exists_sequence_utf8Bytes {c : Nat} (hc : c ≤ 0x10FFFF) :
    ∃ y ys, utf8Bytes c = y :: ys ∧ Utf8Sequence c y ys := by
  unfold utf8Bytes
  split_ifs
  · exact ⟨_, _, rfl, _, _, utf8Lead_eq_some.2 (.inl ⟨by omega, rfl, rfl, rfl⟩), rfl, by omega⟩
  · refine ⟨_, _, rfl, _, _, utf8Lead_eq_some.2 (.inr (.inl ⟨by omega, by omega, rfl, rfl, rfl⟩)), ?_, by omega⟩
    simp only [utf8Cont_cons, utf8Cont_nil, Option.some.injEq]
    omega
  · refine ⟨_, _, rfl, _, _, utf8Lead_eq_some.2 (.inr (.inr (.inl ⟨by omega, by omega, rfl, rfl, rfl⟩))), ?_, by omega⟩
    simp only [utf8Cont_cons, utf8Cont_nil, Option.some.injEq]
    omega
  · refine ⟨_, _, rfl, _, _, utf8Lead_eq_some.2 (.inr (.inr (.inr ⟨by omega, by omega, rfl, rfl, rfl⟩))), ?_, by omega⟩
    simp only [utf8Cont_cons, utf8Cont_nil, Option.some.injEq]
    omega

/-! ## A whole text -/

/-- The bytes of a text, one code point after the other (R161). -/
def utf8TextBytes (x : Text) : List Nat := x.flatMap fun c => utf8Bytes c.toNat

theorem utf8TextBytes_cons (c : Char) (x : Text) : utf8TextBytes (c :: x) = utf8Bytes c.toNat ++ utf8TextBytes x := rfl

theorem exists_sequence_of_utf8DecLoop {n y : Nat} {ys : List Nat} {t : Text}
    (h : utf8DecLoop (n + 1) (y :: ys) = .ok t) :
    ∃ c x k, t = c :: x ∧ Utf8Sequence c.toNat y (ys.take k) ∧ utf8DecLoop n (ys.drop k) = .ok x := by
  rw [utf8DecLoop] at h
  split at h
  · cases h
  · rename_i k c0 lo hlead
    split_ifs at h with hlen
    split at h
    · cases h
    · rename_i c hcont
      split_ifs at h with hrange
      cases hrest : utf8DecLoop n (ys.drop k) with
      | error f => rw [hrest] at h; cases h
      | ok x =>
        rw [hrest] at h
        cases h
        refine ⟨_, x, k, rfl, ?_, hrest⟩
        rw [toNat_ofNat_of_range (by omega) (by omega)]
        exact ⟨c0, lo, by rw [hlead, List.length_take_of_le (by omega)], hcont, by omega⟩

theorem utf8DecLoop_of_sequence {n y : Nat} {ys rest : List Nat} {c : Char} {x : Text} (h : Utf8Sequence c.toNat y ys)
    (hrest : utf8DecLoop n rest = .ok x) : utf8DecLoop (n + 1) (y :: (ys ++ rest)) = .ok (c :: x) := by
  obtain ⟨c0, lo, hlead, hcont, hlo⟩ := h
  obtain ⟨hmax, hsurrogate⟩ := char_toNat_range c
  rw [utf8DecLoop, hlead]
  simp only [List.length_append, List.take_left, List.drop_left, hcont, hrest]
  rw [if_neg (by omega), if_neg (by omega), Char.ofNat_toNat]
  rfl

/-- A pass of the loop reads the bytes of one code point and goes on behind them (R163). -/
theorem utf8DecLoop_cons_eq_ok {n y : Nat} {ys : List Nat} {t : Text} : utf8DecLoop (n + 1) (y :: ys) = .ok t ↔
    ∃ c x rest, t = c :: x ∧ utf8Bytes c.toNat ++ rest = y :: ys ∧ utf8DecLoop n rest = .ok x := by
  constructor
  · intro h
    obtain ⟨c, x, k, rfl, hseq, hrest⟩ := exists_sequence_of_utf8DecLoop h
    refine ⟨c, x, _, rfl, ?_, hrest⟩
    rw [utf8Bytes_of_sequence (char_toNat_range c).1 hseq, List.cons_append, List.take_append_drop]
  · rintro ⟨c, x, rest, rfl, hbytes, hrest⟩
    obtain ⟨y', ys', heq, hseq⟩ := exists_sequence_utf8Bytes (char_toNat_range c).1
    rw [heq, List.cons_append] at hbytes
    cases hbytes
    exact utf8DecLoop_of_sequence hseq hrest

theorem utf8Bytes_ne_nil (c : Char) : utf8Bytes c.toNat ≠ [] := by
  obtain ⟨y, ys, h, -⟩ := exists_sequence_utf8Bytes (char_toNat_range c).1
  exact h ▸ List.cons_ne_nil y ys

theorem length_le_of_utf8Bytes_append {c : Char} {y : Nat} {rest ys : List Nat}
    (h : utf8Bytes c.toNat ++ rest = y :: ys) : rest.length ≤ ys.length := by
  have hpos := List.length_pos_iff.2 (utf8Bytes_ne_nil c)
  have hlen := congrArg List.length h
  rw [List.length_append, List.length_cons] at hlen
  omega

/-- With fuel for every byte the loop answers a text exactly on the bytes of that text. -/
theorem utf8DecLoop_eq_ok {n : Nat} {ys : List Nat} {t : Text} (h : ys.length ≤ n) :
    utf8DecLoop n ys = .ok t ↔ utf8TextBytes t = ys := by
  induction n generalizing ys t with
  | zero =>
    obtain rfl := List.length_eq_zero_iff.1 (Nat.le_zero.1 h)
    cases t <;> simp [utf8DecLoop, utf8TextBytes, utf8Bytes_ne_nil]
  | succ n ih =>
    cases ys with
    | nil => cases t <;> simp [utf8DecLoop, utf8TextBytes, utf8Bytes_ne_nil]
    | cons y ys =>
      rw [utf8DecLoop_cons_eq_ok]
      have hle := Nat.le_of_succ_le_succ h
      constructor
      · rintro ⟨c, x, rest, rfl, hbytes, hrest⟩
        rw [ih ((length_le_of_utf8Bytes_append hbytes).trans hle)] at hrest
        rw [← hbytes, ← hrest, utf8TextBytes_cons]
      · intro hbytes
        cases t with
        | nil => cases hbytes
        | cons c x => exact ⟨c, x, _, rfl, hbytes, (ih ((length_le_of_utf8Bytes_append hbytes).trans hle)).2 rfl⟩

/-! ## Bytes and bits -/

theorem utf8Enc_eq (x : Text) : utf8Enc x = bytesBits (utf8TextBytes x) := by
  simp [utf8Enc, utf8TextBytes, bytesBits, List.flatMap_assoc]

theorem bytesBits_bitsBytes {b : BitString} (h : b.length % 8 = 0) : bytesBits (bitsBytes b) = b :=
  flatMap_be_chunks (by omega)

theorem bitsBytes_bytesBits {ys : List Nat} (h : ∀ y ∈ ys, y < 2 ^ 8) : bitsBytes (bytesBits ys) = ys := by
  rw [bitsBytes, bytesBits, flatMap_be_length, Nat.mul_div_cancel_left _ (by norm_num), map_val_chunks_flatMap_be h]

theorem utf8TextBytes_lt {x : Text} : ∀ y ∈ utf8TextBytes x, y < 2 ^ 8 := by
  intro y hy
  obtain ⟨c, -, hy⟩ := List.mem_flatMap.1 hy
  unfold utf8Bytes at hy
  split_ifs at hy <;> simp at hy <;> omega

theorem utf8Dec_eq_ok {b : BitString} {t : Text} : utf8Dec b = .ok t ↔ utf8Enc t = b := by
  rw [utf8Dec, utf8Enc_eq]
  split_ifs with h
  · refine iff_of_false nofun fun heq => h ?_
    rw [← heq, bytesBits, flatMap_be_length, Nat.mul_mod_right]
  · rw [utf8DecLoop_eq_ok (by simp [bitsBytes])]
    constructor
    · intro heq
      rw [heq, bytesBits_bitsBytes (by omega)]
    · rintro rfl
      rw [bitsBytes_bytesBits utf8TextBytes_lt]

theorem utf8Dec_eq_notWholeBytes {b : BitString} : utf8Dec b = .error .notWholeBytes ↔ b.length % 8 ≠ 0 := by
  rw [utf8Dec]
  split_ifs with h
  · exact iff_of_true rfl h
  · exact iff_of_false (fun herr => nomatch utf8DecLoop_error herr) h

theorem utf8Dec_eq_utf8Malformed {b : BitString} :
    utf8Dec b = .error .utf8Malformed ↔ b.length % 8 = 0 ∧ ∀ t, utf8Enc t ≠ b := by
  constructor
  · intro h
    refine ⟨Decidable.not_not.1 fun hb => ?_, fun t ht => ?_⟩
    · exact nomatch h.symm.trans (utf8Dec_eq_notWholeBytes.2 hb)
    · exact nomatch h.symm.trans (utf8Dec_eq_ok.2 ht)
  · rintro ⟨hlen, hno⟩
    cases h : utf8Dec b with
    | ok t => exact absurd (utf8Dec_eq_ok.1 h) (hno t)
    | error f =>
      rcases utf8Dec_error h with rfl | rfl
      · exact absurd hlen (utf8Dec_eq_notWholeBytes.1 h)
      · rfl

/-! ## The byte layout (R161) -/

theorem be_ascii {v : Nat} (h : v ≤ 0x7F) : be 8 v = false :: be 7 v := by
  have h := be_fields 1 7 0 v
  rwa [Nat.zero_mul, Nat.zero_add, Nat.mod_eq_of_lt (by omega)] at h

theorem be_continuation (v : Nat) : be 8 (0x80 + v % 64) = true :: false :: be 6 v := be_fields 2 6 2 v

theorem be_leadOfTwo (v : Nat) : be 8 (0xC0 + v % 32) = true :: true :: false :: be 5 v := be_fields 3 5 6 v

theorem be_leadOfThree (v : Nat) : be 8 (0xE0 + v % 16) = true :: true :: true :: false :: be 4 v := be_fields 4 4 14 v

theorem be_leadOfFour (v : Nat) : be 8 (0xF0 + v % 8) = true :: true :: true :: true :: false :: be 3 v :=
  be_fields 5 3 30 v

/-- Settles O41: each byte is a fixed head and a field of the code point, and the decoder answers a text exactly when
its bytes are the bytes of the bit string. -/
theorem utf8DecoderIsExact : Obligations.Utf8DecoderIsExact := by
  refine ⟨⟨rfl, fun c x => ?_⟩, fun b => ⟨utf8Dec_eq_notWholeBytes, utf8Dec_eq_utf8Malformed, fun t => utf8Dec_eq_ok⟩⟩
  rw [utf8Enc, List.flatMap_cons, ← utf8Enc]
  congr 1
  unfold utf8Bytes
  dsimp only
  split_ifs with hascii
  · simp [bytesBits, be_ascii hascii]
  · simp [bytesBits, be_leadOfTwo, be_continuation]
  · simp [bytesBits, be_leadOfThree, be_continuation]
  · simp [bytesBits, be_leadOfFour, be_continuation]

end Sys2Proof.Machine
end

section
/-! The Base64 codec (spec/42_codecs R165 to R170). -/

namespace Sys2Proof.Machine

/-! ## The alphabets (R165) -/

theorem b64Char_toNat (u : Bool) (v : Nat) : (b64Char u v).toNat =
    if v < 26 then 0x41 + v else if v < 52 then 0x61 + (v - 26) else if v < 62 then 0x30 + (v - 52)
    else if v = 62 then (if u then 0x2D else 0x2B) else (if u then 0x5F else 0x2F) := by
  unfold b64Char
  split_ifs <;> exact toNat_ofNat_of_range (by omega) (by omega)

theorem b64Value_eq_some {u : Bool} {c : Char} {v : Nat} : b64Value u c = some v ↔ v < 64 ∧ b64Char u v = c := by
  rw [← Char.toNat_inj, b64Char_toNat, b64Value]
  cases u <;> split_ifs <;> simp <;> omega

/-- Settles O42: the value of a character is found by its code point, in the same ranges. -/
theorem base64Alphabet : Obligations.Base64Alphabet :=
  ⟨b64Char_toNat, rfl, fun _ _ _ => b64Value_eq_some⟩

/-! ## Decoding (R168) -/

theorem mapM_eq_some_iff {α β : Type} {f : α → Option β} {l : List α} {vs : List β} :
    l.mapM f = some vs ↔ l.map f = vs.map some := by
  induction l generalizing vs with
  | nil => cases vs <;> simp
  | cons a l ih =>
    cases vs with
    | nil => simp [Option.bind_eq_some_iff]
    | cons v vs => simp [Option.bind_eq_some_iff, ih]

/-- The characters of a text that are not stripped (R168). -/
def b64Kept (t : Text) : Text := t.filter fun c => !b64Stripped c

theorem b64Dec_of_values {t : Text} {u : Bool} {vs : List Nat} (h : (b64Kept t).map (b64Value u) = vs.map some) :
    b64Dec t u = if vs.length % 4 = 1 then .error .b64Dangling
      else .ok ((vs.flatMap (be 6)).take (8 * (6 * vs.length / 8))) := by
  rw [b64Dec, ← b64Kept, mapM_eq_some_iff.2 h]

theorem b64Dec_of_bad_char {t : Text} {u : Bool} {c : Char} (hc : c ∈ b64Kept t) (h : b64Value u c = none) :
    b64Dec t u = .error .b64Char := by
  have hnone : (b64Kept t).mapM (b64Value u) = none := by
    refine Option.eq_none_iff_forall_ne_some.2 fun vs hvs => ?_
    have hmem := List.mem_map_of_mem (f := b64Value u) hc
    rw [mapM_eq_some_iff.1 hvs, h] at hmem
    obtain ⟨v, -, hv⟩ := List.mem_map.1 hmem
    cases hv
  rw [b64Dec, ← b64Kept, hnone]

theorem exists_b64Values {t : Text} {u : Bool} (h : ∀ c ∈ b64Kept t, b64Value u c ≠ none) :
    ∃ vs : List Nat, (b64Kept t).map (b64Value u) = vs.map some ∧ vs.length = (b64Kept t).length := by
  refine ⟨(b64Kept t).map fun c => (b64Value u c).getD 0, ?_, List.length_map ..⟩
  rw [List.map_map]
  refine List.map_congr_left fun c hc => ?_
  obtain ⟨v, hv⟩ := Option.ne_none_iff_exists'.1 (h c hc)
  rw [Function.comp_apply, hv, Option.getD_some]

theorem b64Dec_dangling {t : Text} {u : Bool} (h : ∀ c ∈ b64Kept t, b64Value u c ≠ none)
    (hlen : (b64Kept t).length % 4 = 1) : b64Dec t u = .error .b64Dangling := by
  obtain ⟨vs, hvs, hlen'⟩ := exists_b64Values h
  rw [b64Dec_of_values hvs, hlen', if_pos hlen]

theorem exists_b64Dec_eq_ok {t : Text} {u : Bool} (h : ∀ c ∈ b64Kept t, b64Value u c ≠ none)
    (hlen : (b64Kept t).length % 4 ≠ 1) :
    ∃ b, b64Dec t u = .ok b ∧ b.length = 8 * (6 * (b64Kept t).length / 8) := by
  obtain ⟨vs, hvs, hlen'⟩ := exists_b64Values h
  refine ⟨_, (b64Dec_of_values hvs).trans (if_neg (hlen' ▸ hlen)), ?_⟩
  rw [List.length_take_of_le (by rw [flatMap_be_length]; omega), hlen']

/-! ## Round trip -/

theorem b64Stripped_b64Char (u : Bool) (v : Nat) : b64Stripped (b64Char u v) = false := by
  rw [b64Stripped, b64Char_toNat]
  cases u <;> split_ifs <;> simp <;> omega

theorem b64Kept_b64Groups (a : BitString) (u : Bool) : b64Kept (b64Groups a u) = b64Groups a u := by
  refine List.filter_eq_self.2 fun c hc => ?_
  obtain ⟨g, -, rfl⟩ := List.mem_map.1 hc
  rw [b64Stripped_b64Char, Bool.not_false]

/-- The pad characters are stripped again. -/
theorem b64Kept_b64Enc (a : BitString) (u n : Bool) : b64Kept (b64Enc a u n) = b64Groups a u := by
  rw [b64Enc]
  cases n with
  | true => exact b64Kept_b64Groups a u
  | false =>
    have hpad : ∀ m, b64Kept (List.replicate m b64Pad) = [] := fun m =>
      List.filter_eq_nil_iff.2 fun c hc => by rw [List.eq_of_mem_replicate hc]; decide
    rw [if_neg Bool.false_ne_true, b64Kept, List.filter_append, ← b64Kept, ← b64Kept, b64Kept_b64Groups, hpad,
      List.append_nil]

theorem chunks_length_le {n k : Nat} {a g : BitString} (h : g ∈ chunks n k a) : g.length ≤ n := by
  induction k generalizing a with
  | zero => cases h
  | succ k ih =>
    rcases List.mem_cons.1 h with rfl | h
    · exact List.length_take_le ..
    · exact ih h

/-- Decoding spells the bits that were encoded and the zeros that filled the last group, cut to whole bytes. -/
theorem b64Dec_b64Enc {a : BitString} {k : Nat} (hk : ceilDiv a.length 6 = k) (u n : Bool) :
    b64Dec (b64Enc a u n) u = if k % 4 = 1 then .error .b64Dangling
      else .ok ((a ++ zeros (6 * k - a.length)).take (8 * (6 * k / 8))) := by
  have hlen : (a ++ zeros (6 * k - a.length)).length = 6 * k := by
    rw [List.length_append, zeros_length, ← hk]; unfold ceilDiv; omega
  have hvs : (b64Kept (b64Enc a u n)).map (b64Value u) =
      ((chunks 6 k (a ++ zeros (6 * k - a.length))).map val).map some := by
    rw [b64Kept_b64Enc, b64Groups, hk, List.map_map, List.map_map]
    refine List.map_congr_left fun g hg => b64Value_eq_some.2 ⟨?_, rfl⟩
    exact (val_lt g).trans_le (Nat.pow_le_pow_right (by norm_num) (chunks_length_le hg))
  rw [b64Dec_of_values hvs, flatMap_be_chunks hlen, List.length_map, chunks_length]

/-- Settles O43: the length modulo 24 says how many characters there are modulo 4, and whether their bits cut to whole
bytes end before or behind the last bit of `b`. -/
theorem base64RoundTrip : Obligations.Base64RoundTrip := by
  intro b u n
  rw [b64Dec_b64Enc (k := (b.length + 5) / 6) rfl]
  refine ⟨fun hr => ?_, fun hr => if_pos (by omega), fun hr => ?_, fun hr => ?_⟩
  · rw [if_neg (by omega), List.take_left' (by omega)]
  · rw [if_neg (by omega), List.take_append_of_le_length (by omega)]
    congr 2
    omega
  · rw [if_neg (by omega), List.take_append, List.take_of_length_le (by omega), zeros, zeros, List.take_replicate]
    congr 3
    omega

end Sys2Proof.Machine
end

section
/-! The codec commands (spec/42_codecs R162, R164, R167, R169). -/

namespace Sys2Proof.Machine

open Config

/-! ## Results that must fit a register -/

theorem fitB_capacity {r : BitString} (h : capBits < r.length) (rd : BReg) (s : State) :
    fitB rd r s = .next (takeFault .capacity s) := if_pos h

theorem fitB_writes {r : BitString} (h : r.length ≤ capBits) (rd : BReg) (s : State) :
    ∃ t, fitB rd r s = .next t ∧ WritesB rd r s t := ⟨_, if_neg h.not_gt, writesB_setB ..⟩

theorem fitT_capacity {r : Text} (h : capCp < r.length) (rd : TReg) (s : State) :
    fitT rd r s = .next (takeFault .capacity s) := if_pos h

theorem fitT_writes {r : Text} (h : r.length ≤ capCp) (rd : TReg) (s : State) :
    ∃ t, fitT rd r s = .next t ∧ WritesT rd r s t := ⟨_, if_neg h.not_gt, writesT_setT ..⟩

/-- The number of characters the encoder makes (R166). -/
theorem b64Enc_length (a : BitString) (u n : Bool) :
    (b64Enc a u n).length = if n then ceilDiv a.length 6 else 4 * ceilDiv (ceilDiv a.length 6) 4 := by
  cases n with
  | true => exact b64Groups_length a u
  | false => exact b64Enc_padded_length a u

/-! ## Commands whose codec may fault -/

theorem exec_u8dec_error {ra : BReg} {f : FaultCode} {s : State} (h : utf8Dec (getB s ra) = .error f) (rd : TReg) :
    exec (.u8dec rd ra) s = .next (takeFault f s) := by
  rw [exec, execU8dec, h]
  rfl

theorem exec_u8dec_ok {ra : BReg} {x : Text} {s : State} (h : utf8Dec (getB s ra) = .ok x) (rd : TReg) :
    exec (.u8dec rd ra) s = fitT rd x s := by
  rw [exec, execU8dec, h]

theorem exec_b64dec_error {ra : TReg} {u : Bool} {f : FaultCode} {s : State} (h : b64Dec (getT s ra) u = .error f)
    (rd : BReg) : exec (.b64dec rd ra u) s = .next (takeFault f s) := by
  rw [exec, execB64dec, h]
  rfl

theorem exec_b64dec_ok {ra : TReg} {u : Bool} {b : BitString} {s : State} (h : b64Dec (getT s ra) u = .ok b)
    (rd : BReg) : exec (.b64dec rd ra u) s = fitB rd b s := by
  rw [exec, execB64dec, h]

/-! ## The commands -/

/-- Settles O44: a command takes the fault of its codec, or else fits the result into its destination. -/
theorem codecCommands : Obligations.CodecCommands := by
  refine ⟨fun rd ra s => ⟨fun h => fitB_capacity h rd s, fun h => fitB_writes h rd s⟩, fun rd ra s => ⟨?_, ?_, ?_⟩,
    fun rd ra u n s => ?_, fun rd ra u s => ⟨?_, ?_, ?_, ?_⟩⟩
  · exact fun f hf => exec_u8dec_error hf rd
  · exact fun x hx h => (exec_u8dec_ok hx rd).trans (fitT_capacity h rd s)
  · exact fun x hx h => exec_u8dec_ok hx rd ▸ fitT_writes h rd s
  · intro k l
    have hlen : (b64Enc (getB s ra) u n).length = l := b64Enc_length (getB s ra) u n
    rw [← hlen]
    refine ⟨fun h => fitT_capacity h rd s, fun h => ?_⟩
    obtain ⟨t, ht, hw⟩ := fitT_writes h rd s
    exact ⟨t, ht, hw, congrArg List.length hw.1⟩
  · exact fun ⟨c, hc, hnone⟩ => exec_b64dec_error (b64Dec_of_bad_char hc hnone) rd
  · exact fun hq hlen => exec_b64dec_error (b64Dec_dangling hq hlen) rd
  · intro hq hlen hcap
    obtain ⟨b, hb, hblen⟩ := exists_b64Dec_eq_ok hq hlen
    exact (exec_b64dec_ok hb rd).trans (fitB_capacity (hblen ▸ hcap) rd s)
  · intro hq hlen hcap
    obtain ⟨b, hb, hblen⟩ := exists_b64Dec_eq_ok hq hlen
    obtain ⟨t, ht, hw⟩ := fitB_writes (hblen ▸ hcap) rd s
    exact ⟨t, b, (exec_b64dec_ok hb rd).trans ht, hw, hb, hblen⟩

end Sys2Proof.Machine
end

section
/-! The message schedule (spec/43_sha256 R182). -/

namespace Sys2Proof.Machine

theorem bitsWord_toNat {a : BitString} (h : a.length = 32) : (bitsWord a).toNat = val a :=
  Nat.mod_eq_of_lt (h ▸ val_lt a)

/-- One word more than `n` is the next word after those `n`. -/
theorem extendSchedule_succ (n : Nat) (back : List Word) :
    extendSchedule (n + 1) back = nextScheduleWord (extendSchedule n back) :: extendSchedule n back := by
  induction n generalizing back with
  | zero => rfl
  | succ n ih => rw [extendSchedule, ih, ← extendSchedule]

theorem extendSchedule_length (n : Nat) (back : List Word) : (extendSchedule n back).length = back.length + n := by
  induction n with
  | zero => rfl
  | succ n ih => rw [extendSchedule_succ, List.length_cons, ih, Nat.add_assoc]

/-- Words added later do not change the words before them. -/
theorem drop_extendSchedule (m k : Nat) (back : List Word) :
    (extendSchedule (m + k) back).drop k = extendSchedule m back := by
  induction k with
  | zero => rfl
  | succ k ih => rw [← Nat.add_assoc, extendSchedule_succ, List.drop_succ_cons, ih]

section

variable {block : List Word} (hblock : block.length = 16)
include hblock

theorem schedule_length : (schedule block).length = 64 := by
  rw [schedule, List.length_reverse, extendSchedule_length, List.length_reverse, hblock]

/-- A word of the schedule, in the schedule as it stands after `m` of its 48 extensions, latest first. -/
theorem schedule_getD {m j t : Nat} (hm : m ≤ 48) (ht : t + j = 15 + m) :
    (schedule block).getD t 0 = (extendSchedule m block.reverse).getD j 0 := by
  obtain ⟨k, hk⟩ := Nat.exists_eq_add_of_le hm
  have hlen : (extendSchedule 48 block.reverse).length = 64 := by
    rw [extendSchedule_length, List.length_reverse, hblock]
  rw [← drop_extendSchedule m k, ← hk, schedule, List.getD_reverse _ (by omega), List.getD_eq_getElem?_getD,
    List.getD_eq_getElem?_getD, List.getElem?_drop, hlen, show 64 - 1 - t = k + j by omega]

/-- The schedule starts with the words of the block. -/
theorem schedule_getD_block {t : Nat} (ht : t < 16) : (schedule block).getD t 0 = block.getD t 0 := by
  rw [schedule_getD hblock (m := 0) (j := 15 - t) (by omega) (by omega), extendSchedule,
    List.getD_reverse _ (by omega), hblock, show 16 - 1 - (15 - t) = t by omega]

/-- Each later word follows from the words 2, 7, 15 and 16 back. -/
theorem schedule_getD_later {t : Nat} (hlo : 16 ≤ t) (hhi : t < 64) :
    (schedule block).getD t 0 = ssig1 ((schedule block).getD (t - 2) 0) + (schedule block).getD (t - 7) 0 +
      ssig0 ((schedule block).getD (t - 15) 0) + (schedule block).getD (t - 16) 0 := by
  obtain ⟨m, rfl⟩ := Nat.exists_eq_add_of_le hlo
  have hback : ∀ {j}, j < 16 →
      (schedule block).getD (16 + m - (j + 1)) 0 = (extendSchedule m block.reverse).getD j 0 := fun hj =>
    schedule_getD hblock (by omega) (by omega)
  rw [schedule_getD hblock (m := m + 1) (j := 0) (by omega) (by omega), extendSchedule_succ, List.getD_cons_zero,
    nextScheduleWord, hback (by norm_num), hback (by norm_num), hback (by norm_num), hback (by norm_num)]

end

/-- Settles O46: the first words are the block's own, and the recurrence is `nextScheduleWord` read off the schedule as
it stood when the word was added. -/
theorem messageSchedule : Obligations.MessageSchedule := by
  intro blk hblk
  have hwords : ((chunks 32 16 blk).map bitsWord).length = 16 := by simp
  refine ⟨schedule_length hwords, fun t ht => ?_, fun t => schedule_getD_later hwords⟩
  have hbits : (slice blk (32 * t) (32 * t + 32)).length = 32 := by
    rw [slice_length (by omega), Nat.add_sub_cancel_left]
  have hword : ((chunks 32 16 blk).map bitsWord).getD t 0 = bitsWord (slice blk (32 * t) (32 * t + 32)) := by
    simp [List.getD_eq_getElem?_getD, getElem?_chunks ht, slice]
  rw [schedule_getD_block hwords ht, hword, bitsWord_toNat hbits]

end Sys2Proof.Machine
end

section
/-! Finalizing a hash context (spec/43_sha256 R189). -/

namespace Sys2Proof.Machine

/-! ## The padded pending buffer -/

theorem padZeros_reaches (l : Nat) : (l + padZeros l) % 512 = 448 := by unfold padZeros; omega

theorem padZeros_least {l z : Nat} (h : z < padZeros l) : (l + z) % 512 ≠ 448 := by unfold padZeros at h; omega

theorem shaPadded_eq (c : HashCtx) : shaPadded c = c.pend ++ [true] ++ zeros (padZeros (c.pend.length + 1)) ++
    be 32 (c.len.toNat / 2 ^ 32) ++ be 32 (c.len.toNat % 2 ^ 32) := by
  rw [← hiWord_toNat, ← loWord_toNat, shaPadded, List.length_append, be_length]
  rfl

/-- One block while the 1 bit and the length fit behind the pending bits, else two. -/
theorem shaPadded_length {c : HashCtx} (h : c.pend.length < 512) :
    (shaPadded c).length = if c.pend.length ≤ 447 then 512 else 1024 := by
  have hlen : (shaPadded c).length = c.pend.length + 1 + padZeros (c.pend.length + 1) + 64 := by
    simp [shaPadded, Nat.add_assoc]
  rw [hlen, padZeros]
  split <;> omega

/-! ## One block, two blocks -/

theorem compressBlocks_one (hw : HWords) {a : BitString} (h : a.length = 512) :
    compressBlocks 1 hw a = compress hw a := by
  simp [compressBlocks, chunks, List.take_of_length_le h.le]

theorem compressBlocks_two (hw : HWords) {a : BitString} (h : a.length = 1024) :
    compressBlocks 2 hw a = compress (compress hw (a.take 512)) (a.drop 512) := by
  have hsecond : (a.drop 512).length = 512 := by rw [List.length_drop, h]
  simp [compressBlocks, chunks, List.take_of_length_le hsecond.le]

/-- The words the digest is made of: the one block or the two compressed in order. -/
theorem compressBlocks_shaPadded {c : HashCtx} (h : c.pend.length < 512) :
    compressBlocks ((shaPadded c).length / 512) c.h (shaPadded c) =
      if c.pend.length ≤ 447 then compress c.h (shaPadded c)
      else compress (compress c.h ((shaPadded c).take 512)) ((shaPadded c).drop 512) := by
  have hlen := shaPadded_length h
  split at hlen
  · rw [if_pos ‹_›, hlen, compressBlocks_one _ hlen]
  · rw [if_neg ‹_›, hlen, compressBlocks_two _ hlen]

theorem digestBits_eq_flatMap (hw : HWords) : digestBits hw =
    [hw.a, hw.b, hw.c, hw.d, hw.e, hw.f, hw.g, hw.h].flatMap fun w => be 32 w.toNat := by
  simp [digestBits, wordBits]

/-- Settles O47: the padding is `shaPadded`, one block or two by its length. -/
theorem finalRule : Obligations.FinalRule := by
  intro c hc
  refine ⟨padZeros (c.pend.length + 1), ?_⟩
  rw [← shaPadded_eq]
  refine ⟨padZeros_reaches _, fun z => padZeros_least, shaPadded_length hc, ?_, shaFinal_fst_length c, rfl⟩
  rw [← digestBits_eq_flatMap, ← compressBlocks_shaPadded hc]
  rfl

end Sys2Proof.Machine
end

section
/-! Updates cut anywhere, and the SHA-256 commands (spec/43_sha256 R192 to R197). -/

namespace Sys2Proof.Machine

/-- Settles O48: three updates in turn are one update with the concatenation. -/
theorem updateSplits : Obligations.UpdateSplits := by
  refine ⟨shaUpdate_append, fun x y z => ?_⟩
  rw [shaUpdate_append, shaUpdate_append, sha256, List.append_assoc]

/-- The counter after an update that does not overflow it (R193). -/
theorem shaUpdate_len_toNat {c : HashCtx} {d : BitString} (h : c.len.toNat + d.length < 2 ^ 64) :
    (shaUpdate c d).len.toNat = c.len.toNat + d.length := by
  rw [shaUpdate_len, BitVec.toNat_add, dword_toNat (by omega), Nat.mod_eq_of_lt h]

/-- The digest of a context is the one-shot digest of the message it absorbed (R191). -/
theorem Absorbed.shaFinal_fst {msg : BitString} {c : HashCtx} (h : Absorbed msg c) : (shaFinal c).1 = sha256 msg := by
  rw [h.2, sha256]

theorem shaUpdateInto_lenOverflow {rd : SCtx} {d : BitString} {s : State}
    (h : 2 ^ 64 ≤ (getS s rd).len.toNat + d.length) : shaUpdateInto rd d s = .next (takeFault .lenOverflow s) :=
  if_pos (decide_eq_true h)

theorem shaUpdateInto_writes {rd : SCtx} {d : BitString} {s : State}
    (h : (getS s rd).len.toNat + d.length < 2 ^ 64) :
    ∃ t, shaUpdateInto rd d s = .next t ∧ WritesS rd (shaUpdate (getS s rd) d) (setKrdy s) t := by
  have hfit := lenOverflows_eq_false.2 h
  exact ⟨setS rd (shaUpdate (getS s rd) d) (setKrdy s), by rw [shaUpdateInto, hfit]; rfl, writesS_setS ..⟩

/-- Settles O49: each command writes its destinations over `setKrdy s`, and both updates are `shaUpdateInto`. -/
theorem shaCommands : Obligations.ShaCommands := by
  refine ⟨fun rd s => ?_, fun rd i d s hi => ?_, fun rd ra s => ?_, fun rd ra s => ?_⟩
  · exact ⟨_, rfl, writesS_setS rd _ (setKrdy s)⟩
  · have hexec : exec i s = shaUpdateInto rd d s := by
      obtain ⟨ra, rfl, rfl⟩ | ⟨ra, rfl, rfl⟩ := hi <;> rfl
    rw [hexec]
    refine ⟨shaUpdateInto_lenOverflow, fun h => ?_⟩
    obtain ⟨t, ht, hw⟩ := shaUpdateInto_writes h
    have hget : getS t rd = shaUpdate (getS s rd) d := hw.1
    refine ⟨t, ht, hw, ?_, fun msg hmsg => ?_⟩
    · rw [hget, shaUpdate_len_toNat h]
    · exact hget ▸ hmsg.update (lenOverflows_eq_false.2 h)
  · refine ⟨_, rfl, writesBS_setS_setB rd _ ra _ (setKrdy s), fun msg hmsg => ?_⟩
    exact (getB_setB_same ..).trans hmsg.shaFinal_fst
  · exact ⟨_, rfl, writesS_setS rd _ (setKrdy s)⟩

end Sys2Proof.Machine
end

section
/-! HMAC and the commands of an HMAC context (spec/44_hmac R211 to R224). -/

namespace Sys2Proof.Machine

/-- Settles O50. -/
theorem macIsStandard : Obligations.MacIsStandard := hmacMac_hmacKey

/-- Settles O51: the context left is `freshMac`, whose bases are each one block given to the initial context. -/
theorem hmacKeyCommand : Obligations.HmacKeyCommand := by
  intro rd ra s
  exact ⟨_, freshMac (getB s ra), rfl, writesM_setM rd _ (setKrdy s), rfl, keyed_freshMac _, rfl,
    hmacKey_fst_pend _, hmacKey_fst_len _, hmacKey_snd_pend _, hmacKey_snd_len _⟩

/-! ## What the commands leave: data given to a context, a MAC taken from it -/

/-- The state after `M[rd]` was given `d` (R218). -/
def giveMac (rd : MCtx) (d : BitString) (s : State) : State :=
  setM rd { getM s rd with w := shaUpdate (getM s rd).w d, upd := true } (setKrdy s)

/-- The state after the MAC of what `M[ra]` was given went to `B[rd]`, with `M[ra]` fresh again (R213, R220). -/
def digestMac (rd : BReg) (ra : MCtx) (s : State) : State :=
  setM ra { getM s ra with w := (getM s ra).ib, upd := false }
    (setB rd (hmacDigest (getM s ra).ib (getM s ra).ob (getM s ra).w).1 (setKrdy s))

@[simp] theorem getM_giveMac (rd : MCtx) (d : BitString) (s : State) :
    getM (giveMac rd d s) rd = { getM s rd with w := shaUpdate (getM s rd).w d, upd := true } := getM_setM_same ..

@[simp] theorem getB_giveMac (rd : MCtx) (d : BitString) (s : State) (j : BReg) :
    getB (giveMac rd d s) j = getB s j := rfl

@[simp] theorem giveMac_flt (rd : MCtx) (d : BitString) (s : State) : (giveMac rd d s).flt = s.flt := rfl

@[simp] theorem getM_digestMac (rd : BReg) (ra : MCtx) (s : State) :
    getM (digestMac rd ra s) ra = { getM s ra with w := (getM s ra).ib, upd := false } := getM_setM_same ..

/-- Data given in two pieces is the concatenation given at once (R216). -/
theorem giveMac_giveMac (rd : MCtx) (x y : BitString) (s : State) :
    giveMac rd y (giveMac rd x s) = giveMac rd (x ++ y) s := by
  rw [giveMac, getM_giveMac, shaUpdate_append]
  simp [giveMac, setM, setKrdy]

/-- Giving data and taking the MAC writes `B[rd]` and starts `M[ra]` afresh; only the MAC is left of the data (R214). -/
theorem digestMac_giveMac (rd : BReg) (ra : MCtx) (d : BitString) (s : State) :
    digestMac rd ra (giveMac ra d s) = setM ra { getM s ra with w := (getM s ra).ib, upd := false }
      (setB rd (hmacMac (getM s ra).ib (getM s ra).ob (getM s ra).w d).1 (setKrdy s)) := by
  rw [digestMac, getM_giveMac]
  simp [giveMac, hmacMac, hmacUpdate, setM, setB, setKrdy]

/-- The digest of a keyed context is the standard MAC of what it was given (R213). -/
theorem Keyed.hmacDigest_fst {key msg : BitString} {c : HmacCtx} (h : Keyed key msg c) :
    (hmacDigest c.ib c.ob c.w).1 = hmacStandard key msg := by
  obtain ⟨-, hib, hob, -, hw, -⟩ := h
  rw [hw, hib, hob]
  exact hmacMac_hmacKey key msg

/-- The one-shot MAC of a keyed context that has not been updated is the standard MAC of its data (R214). -/
theorem Keyed.hmacMac_fst {key msg : BitString} {c : HmacCtx} (h : Keyed key msg c) (hupd : c.upd = false)
    (d : BitString) : (hmacMac c.ib c.ob c.w d).1 = hmacStandard key d := by
  obtain ⟨-, hib, hob, -, hw, hfresh⟩ := h
  rw [hw, hfresh hupd, hib, hob, shaUpdate_hmacKey_nil]
  exact hmacMac_hmacKey key d

/-! ## Updates (R218, R219) -/

section

variable {rd : MCtx} {d : BitString} {s : State}

theorem hmacUpdateInto_notKeyed (hk : (getM s rd).keyed = false) :
    hmacUpdateInto rd d s = .next (takeFault .notKeyed s) := if_pos hk

theorem hmacUpdateInto_lenOverflow (hk : (getM s rd).keyed = true)
    (hd : 2 ^ 64 ≤ (getM s rd).w.len.toNat + d.length) : hmacUpdateInto rd d s = .next (takeFault .lenOverflow s) :=
  (if_neg (by simp [hk])).trans (if_pos (decide_eq_true hd))

theorem hmacUpdateInto_gives (hk : (getM s rd).keyed = true) (hd : (getM s rd).w.len.toNat + d.length < 2 ^ 64) :
    hmacUpdateInto rd d s = .next (giveMac rd d s) :=
  (if_neg (by simp [hk])).trans (if_neg (by simp [lenOverflows_eq_false.2 hd]))

end

/-- Settles O52: both commands are `hmacUpdateInto`. -/
theorem hmacUpdateCommands : Obligations.HmacUpdateCommands := by
  intro rd i d s hi
  have hexec : exec i s = hmacUpdateInto rd d s := by
    obtain ⟨ra, rfl, rfl⟩ | ⟨ra, rfl, rfl⟩ := hi <;> rfl
  rw [hexec]
  refine ⟨hmacUpdateInto_notKeyed, hmacUpdateInto_lenOverflow, fun hk hd => ?_⟩
  refine ⟨_, hmacUpdateInto_gives hk hd, writesM_setM rd _ (setKrdy s), fun key msg hkm => ?_⟩
  rw [getM_giveMac]
  exact hkm.update (lenOverflows_eq_false.2 hd)

/-! ## Digest and reset (R220, R223) -/

theorem exec_hmdig_notKeyed {rd : BReg} {ra : MCtx} {s : State} (hk : (getM s ra).keyed = false) :
    exec (.hmdig rd ra) s = .next (takeFault .notKeyed s) := if_pos hk

theorem exec_hmdig_keyed {rd : BReg} {ra : MCtx} {s : State} (hk : (getM s ra).keyed = true) :
    exec (.hmdig rd ra) s = .next (digestMac rd ra s) := if_neg (by simp [hk])

theorem exec_hmrst_notKeyed {rd : MCtx} {s : State} (hk : (getM s rd).keyed = false) :
    exec (.hmrst rd) s = .next (takeFault .notKeyed s) := if_pos hk

theorem exec_hmrst_keyed {rd : MCtx} {s : State} (hk : (getM s rd).keyed = true) :
    exec (.hmrst rd) s = .next (setM rd { getM s rd with w := (getM s rd).ib, upd := false } (setKrdy s)) :=
  if_neg (by simp [hk])

/-- Settles O53: both commands set the working context back to the inner base. -/
theorem hmacDigestAndReset : Obligations.HmacDigestAndReset := by
  refine ⟨fun rd ra s => ⟨exec_hmdig_notKeyed, fun hk => ?_⟩,
    fun rd s => ⟨exec_hmrst_notKeyed, fun hk => ?_⟩⟩
  · refine ⟨_, _, exec_hmdig_keyed hk, writesBM_setM_setB rd _ ra _ (setKrdy s), hmacDigest_fst_length ..,
      fun key msg hkm => ⟨hkm.hmacDigest_fst, ?_⟩⟩
    rw [getM_digestMac]
    exact hkm.refresh
  · refine ⟨_, exec_hmrst_keyed hk, writesM_setM rd _ (setKrdy s), fun key msg hkm => ?_⟩
    rw [getM_setM_same]
    exact hkm.refresh

/-! ## The one-shot MAC (R221, R222, R224) -/

section

variable {rd : BReg} {ra : MCtx} {d : BitString} {s : State}

theorem hmacMacInto_notKeyed (hk : (getM s ra).keyed = false) :
    hmacMacInto rd ra d s = .next (takeFault .notKeyed s) := if_pos hk

theorem hmacMacInto_alreadyUpdated (hk : (getM s ra).keyed = true) (hu : (getM s ra).upd = true) :
    hmacMacInto rd ra d s = .next (takeFault .alreadyUpdated s) :=
  (if_neg (by simp [hk])).trans (if_pos hu)

theorem hmacMacInto_lenOverflow (hk : (getM s ra).keyed = true) (hu : (getM s ra).upd = false)
    (hd : 2 ^ 64 ≤ (getM s ra).w.len.toNat + d.length) :
    hmacMacInto rd ra d s = .next (takeFault .lenOverflow s) :=
  (if_neg (by simp [hk])).trans ((if_neg (by simp [hu])).trans (if_pos (decide_eq_true hd)))

/-- The one-shot MAC is giving the data and taking the digest. -/
theorem hmacMacInto_digests (hk : (getM s ra).keyed = true) (hu : (getM s ra).upd = false)
    (hd : (getM s ra).w.len.toNat + d.length < 2 ^ 64) :
    hmacMacInto rd ra d s = .next (digestMac rd ra (giveMac ra d s)) := by
  rw [digestMac_giveMac]
  exact (if_neg (by simp [hk])).trans ((if_neg (by simp [hu])).trans (if_neg (by simp [lenOverflows_eq_false.2 hd])))

end

/-- Settles O54: both commands are `hmacMacInto`, and a context that was not updated was given nothing before. -/
theorem hmacOneShotCommands : Obligations.HmacOneShotCommands := by
  intro rd ra i d s hi
  have hexec : exec i s = hmacMacInto rd ra d s := by
    obtain ⟨rb, rfl, rfl⟩ | ⟨rb, rfl, rfl⟩ := hi <;> rfl
  rw [hexec]
  refine ⟨hmacMacInto_notKeyed, hmacMacInto_alreadyUpdated, hmacMacInto_lenOverflow, fun hk hu hd => ?_⟩
  rw [hmacMacInto_digests hk hu hd, digestMac_giveMac]
  refine ⟨_, _, rfl, writesBM_setM_setB rd _ ra _ (setKrdy s), hmacMac_fst_length ..,
    fun key msg hkm => ⟨hkm.hmacMac_fst hu d, ?_⟩⟩
  rw [getM_setM_same]
  exact hkm.refresh

/-- Settles O55: both ways give the context the concatenation and take the digest. -/
theorem updatesThenDigestIsOneShot : Obligations.UpdatesThenDigestIsOneShot := by
  intro s i rd ra rb rc hflt hk hu _ hcat hlen
  have hsum : (getM s i).w.len.toNat + (getB s ra).length + (getB s rb).length < 2 ^ 64 := by
    rwa [hcat, List.length_append, ← Nat.add_assoc] at hlen
  have hfirst : (getM s i).w.len.toNat + (getB s ra).length < 2 ^ 64 := by omega
  have hx : exec (.hmupd i ra) s = .next (giveMac i (getB s ra) s) := hmacUpdateInto_gives hk hfirst
  have hy : exec (.hmupd i rb) (giveMac i (getB s ra) s) = .next (giveMac i (getB s rc) s) := by
    rw [hcat, ← giveMac_giveMac]
    exact hmacUpdateInto_gives (by simp [hk]) (by simpa [shaUpdate_len_toNat hfirst] using hsum)
  refine ⟨digestMac rd i (giveMac i (getB s rc) s), ?_, hmacMacInto_digests hk hu hlen⟩
  rw [execSeq_cons hx hflt, execSeq_cons hy hflt, execSeq_singleton (exec_hmdig_keyed (by simp [hk]))]

end Sys2Proof.Machine
end

section
/-! PBKDF2: the derivation and the commands (spec/45_pbkdf2 R231 to R237). -/

namespace Sys2Proof.Machine

open Config

/-! ## The derivation is standard (R232, R233) -/

/-- The pseudorandom function under the bases of a key is standard HMAC (R214, R232). -/
theorem pbkdf2Mac_hmacKey (key d : BitString) :
    pbkdf2Mac (hmacKey key).1 (hmacKey key).2 d = hmacStandard key d := hmacMac_hmacKey key d

/-- The passes from `U_(i + 1)` on XOR the next `n` values into the block. -/
theorem pbkdf2Passes_hmacKey (key salt : BitString) (k n i : Nat) (block : BitString) :
    pbkdf2Passes (hmacKey key).1 (hmacKey key).2 n (pbkdf2U key salt k i) block =
      (List.range' i n).foldl (fun acc j => xorBits acc (pbkdf2U key salt k (j + 1))) block := by
  induction n generalizing i block with
  | zero => rfl
  | succ n ih =>
    simp only [pbkdf2Passes, pbkdf2Mac_hmacKey, List.range'_succ, List.foldl_cons]
    exact ih (i + 1) _

theorem pbkdf2Block_hmacKey (key salt : BitString) (c k : Nat) :
    pbkdf2Block (hmacKey key).1 (hmacKey key).2 salt c k = pbkdf2XorBlock key salt c k := by
  rw [pbkdf2Block, pbkdf2Mac_hmacKey, pbkdf2XorBlock, List.range_eq_range']
  exact pbkdf2Passes_hmacKey key salt k (c - 1) 0 _

theorem pbkdf2Derive_eq_standard (p salt : BitString) (c l : Nat) :
    pbkdf2Derive p salt c l = pbkdf2Standard p salt c l := by
  simp only [pbkdf2Derive, pbkdf2Standard, pbkdf2Block_hmacKey, pbkdf2Blocks]

/-! ## The length, and the derivations of two lengths (R233, R237) -/

/-- There are blocks of 256 bits for all the bits asked for. -/
theorem le_pbkdf2Blocks_length (ib ob : HashCtx) (salt : BitString) (c l : Nat) :
    l ≤ ((List.range (pbkdf2Blocks l)).flatMap fun j => pbkdf2Block ib ob salt c (j + 1)).length := by
  simp only [List.length_flatMap, pbkdf2Block_length, List.map_const', List.sum_replicate_nat, List.length_range,
    pbkdf2Blocks, ceilDiv]
  omega

theorem pbkdf2Blocks_mono {l l' : Nat} (h : l ≤ l') : pbkdf2Blocks l ≤ pbkdf2Blocks l' := by
  unfold pbkdf2Blocks ceilDiv
  omega

theorem pbkdf2Derive_length (p salt : BitString) (c l : Nat) : (pbkdf2Derive p salt c l).length = l :=
  List.length_take_of_le (le_pbkdf2Blocks_length ..)

theorem pbkdf2Standard_length (p salt : BitString) (c l : Nat) : (pbkdf2Standard p salt c l).length = l :=
  pbkdf2Derive_eq_standard p salt c l ▸ pbkdf2Derive_length p salt c l

/-- Settles O56: the passes under the bases of a key are the XORs of the block over standard HMACs. -/
theorem derivationIsStandard : Obligations.DerivationIsStandard := fun p salt c l =>
  ⟨pbkdf2Derive_eq_standard p salt c l, pbkdf2Derive_length p salt c l⟩

/-- Settles O57: a block does not depend on the length, so the blocks of the shorter derivation begin the blocks of the
longer one, and they hold the bits asked for. -/
theorem derivationPrefixLaw : Obligations.DerivationPrefixLaw := by
  intro p salt c l l' h
  obtain ⟨n, hn⟩ := Nat.exists_eq_add_of_le (pbkdf2Blocks_mono h)
  simp only [pbkdf2Derive]
  rw [List.take_take, Nat.min_eq_left h, hn, List.range_add, List.flatMap_append,
    List.take_append_of_le_length (le_pbkdf2Blocks_length ..)]

/-! ## `PBKDF2` and `PBKDF2.DC` (R234, R235) -/

theorem maxKeyBits_cast : (maxKeyBits : Int) = 256 * (2 ^ 32 - 1) := by norm_num [maxKeyBits]

section

variable {rd : BReg} {p salt : BitString} {c l : Int} {s : State}

theorem pbkdf2Into_negative (h : l < 0 ∨ c < 0) :
    pbkdf2Into rd p salt c l s = .next (takeFault .negative s) := if_pos h

theorem pbkdf2Into_keylen (hl : 0 ≤ l) (hc : 0 ≤ c) (h : 256 * (2 ^ 32 - 1) < l) :
    pbkdf2Into rd p salt c l s = .next (takeFault .keylen s) :=
  (if_neg (not_or.2 ⟨hl.not_gt, hc.not_gt⟩)).trans (if_pos (maxKeyBits_cast ▸ h))

theorem pbkdf2Into_capacity (hl : 0 ≤ l) (hc : 0 ≤ c) (hmax : l ≤ 256 * (2 ^ 32 - 1)) (h : capBits < l) :
    pbkdf2Into rd p salt c l s = .next (takeFault .capacity s) :=
  (if_neg (not_or.2 ⟨hl.not_gt, hc.not_gt⟩)).trans ((if_neg (maxKeyBits_cast ▸ hmax.not_gt)).trans (if_pos h))

/-- The derived key is written over `setKrdy s`. -/
theorem pbkdf2Into_derives (hl : 0 ≤ l) (hc : 0 ≤ c) (hmax : l ≤ 256 * (2 ^ 32 - 1)) (h : l ≤ capBits) :
    pbkdf2Into rd p salt c l s = .next (setB rd (pbkdf2Standard p salt c.toNat l.toNat) (setKrdy s)) := by
  rw [← pbkdf2Derive_eq_standard]
  exact (if_neg (not_or.2 ⟨hl.not_gt, hc.not_gt⟩)).trans
    ((if_neg (maxKeyBits_cast ▸ hmax.not_gt)).trans (if_neg h.not_gt))

end

/-- Both commands are `pbkdf2Into` on their data operands. -/
theorem exec_pbkdf2_eq {rd : BReg} {ra rb : DataReg} {i : Instr} {re : XReg} {c : Int} {s : State}
    (hi : (∃ rc, i = .pbkdf2 rd ra rb rc re ∧ c = (getX s rc).toInt) ∨ (i = .pbkdf2Dc rd ra rb re ∧ c = 1000)) :
    exec i s = pbkdf2Into rd (dataOf s ra) (dataOf s rb) c (getX s re).toInt s := by
  obtain ⟨rc, rfl, rfl⟩ | ⟨rfl, rfl⟩ := hi <;> rfl

/-- Settles O58: both commands are `pbkdf2Into`. -/
theorem pbkdf2Commands : Obligations.Pbkdf2Commands := by
  intro rd ra rb i re c s hi p salt l
  have hp : p = dataOf s ra := by cases ra <;> rfl
  have hsalt : salt = dataOf s rb := by cases rb <;> rfl
  rw [exec_pbkdf2_eq hi, hp, hsalt]
  refine ⟨pbkdf2Into_negative, pbkdf2Into_keylen, pbkdf2Into_capacity, fun hl hc hmax hcap => ?_⟩
  refine ⟨_, pbkdf2Into_derives hl hc hmax hcap, writesB_setB rd _ (setKrdy s), ?_⟩
  rw [getB_setB_same, pbkdf2Standard_length, Int.toNat_of_nonneg hl]

/-! ## `DERIVE` (R234, R236) -/

section

variable {rd ra rb : TReg} {rc re : XReg} {s : State}

theorem exec_derive_negative (h : (getX s re).toInt < 0 ∨ (getX s rc).toInt < 0) :
    exec (.derive rd ra rb rc re) s = .next (takeFault .negative s) := if_pos h

theorem exec_derive_keylen (hn : 0 ≤ (getX s re).toInt) (hc : 0 ≤ (getX s rc).toInt)
    (h : 256 * (2 ^ 32 - 1) < 8 * (getX s re).toInt) :
    exec (.derive rd ra rb rc re) s = .next (takeFault .keylen s) :=
  (if_neg (not_or.2 ⟨hn.not_gt, hc.not_gt⟩)).trans (if_pos (maxKeyBits_cast ▸ h))

theorem exec_derive_capacity (hn : 0 ≤ (getX s re).toInt) (hc : 0 ≤ (getX s rc).toInt)
    (hmax : 8 * (getX s re).toInt ≤ 256 * (2 ^ 32 - 1)) (h : capCp < 4 * (((getX s re).toInt.toNat + 2) / 3)) :
    exec (.derive rd ra rb rc re) s = .next (takeFault .capacity s) :=
  (if_neg (not_or.2 ⟨hn.not_gt, hc.not_gt⟩)).trans ((if_neg (maxKeyBits_cast ▸ hmax.not_gt)).trans (if_pos h))

/-- The encoded derivation is written over `setKrdy s`. -/
theorem exec_derive_encodes (hn : 0 ≤ (getX s re).toInt) (hc : 0 ≤ (getX s rc).toInt)
    (hmax : 8 * (getX s re).toInt ≤ 256 * (2 ^ 32 - 1)) (h : 4 * (((getX s re).toInt.toNat + 2) / 3) ≤ capCp) :
    exec (.derive rd ra rb rc re) s = .next (setT rd (b64Enc (pbkdf2Standard (utf8Enc (getT s ra)) (utf8Enc (getT s rb))
      (getX s rc).toInt.toNat (8 * (getX s re).toInt.toNat)) false false) (setKrdy s)) := by
  rw [← pbkdf2Derive_eq_standard]
  exact (if_neg (not_or.2 ⟨hn.not_gt, hc.not_gt⟩)).trans
    ((if_neg (maxKeyBits_cast ▸ hmax.not_gt)).trans (if_neg h.not_gt))

end

/-- `n` whole bytes encode to four characters for every three bytes begun (R166). -/
theorem b64Enc_bytes_length {a : BitString} {n : Nat} (h : a.length = 8 * n) (url : Bool) :
    (b64Enc a url false).length = 4 * ((n + 2) / 3) := by
  rw [b64Enc_padded_length, h]
  unfold ceilDiv
  omega

/-- Settles O59: the text encodes a derivation of exactly `8 * n` bits. -/
theorem deriveCommand : Obligations.DeriveCommand := by
  intro rd ra rb rc re s c n i
  refine ⟨exec_derive_negative, exec_derive_keylen, exec_derive_capacity, fun hn hc hmax hcap => ?_⟩
  refine ⟨_, exec_derive_encodes hn hc hmax hcap, writesT_setT rd _ (setKrdy s), ?_⟩
  rw [getT_setT_same]
  exact b64Enc_bytes_length (pbkdf2Standard_length ..) false

end Sys2Proof.Machine
end

section
/-! Faults: that every command and every step has a next state, and what taking a fault writes (spec/60_exceptions R250,
R263, R266, R267). -/

namespace Sys2Proof

open Machine

/-- A refused command is taken off the stream whole: its fault is the one the decoder reports of it (R86). -/
theorem decode_eq_bad {ws rest : List Word} {f : FaultCode} :
    decode ws = .bad f rest ↔ ∃ w p, takeCommand ws = some (w, p, rest) ∧ decodeCommand w p = .error f := by
  unfold decode
  split
  · simp [*]
  · rename_i w p rest' hc
    cases hd : decodeCommand w p <;> simp [*, and_comm]

end Sys2Proof

namespace Sys2Proof.Machine

/-! ## Totality (R266, R267) -/

/-- Every command answers a next state: what `exec_appendCin` says of its run alone. -/
theorem exists_exec_eq_next (i : Instr) (s : State) : ∃ t, exec i s = .next t := by
  obtain ⟨t, ht, -⟩ := exec_appendCin [] s i
  exact ⟨t, ht⟩

/-- Settles O11, by what the step fetched: only a command it runs could fail to answer, and none does. -/
theorem nothingStops : Obligations.NothingStops := by
  refine ⟨exists_exec_eq_next, fun s => ?_⟩
  unfold step
  cases fetch s with
  | hold => exact ⟨_, rfl⟩
  | skip n => exact ⟨_, rfl⟩
  | reject f n => exact ⟨_, rfl⟩
  | run i n =>
    obtain ⟨u, hu⟩ := exists_exec_eq_next i s
    exact ⟨advance n u, congrArg (advanceResult n) hu⟩

/-! ## A command's own faults (R263) -/

/-- A command takes one of its own faults, or leaves the three error registers alone and sets no `FLT`: the frame of R53,
with `CLRERR`, which only clears `FLT`, on the side of the others. -/
theorem exec_takesFault_or_keeps {i : Instr} {s t : State} (h : exec i s = .next t) :
    (∃ f ∈ ownFaults i, t = takeFault f s) ∨
    (t.errkind = s.errkind ∧ t.errdet = s.errdet ∧ t.errcp = s.errcp ∧ (s.flt = false → t.flt = false)) := by
  obtain ⟨-, -, -, -, -, -, -, -, -, hfault | ⟨hkind, hdet, hcp, hflt⟩⟩ := onlyListedStateIsWritten i s t h
  · exact .inl hfault
  · refine .inr ⟨hkind, hdet, hcp, fun hs => ?_⟩
    by_cases hi : i = .clrerr
    · subst hi
      cases h
      exact clearFault_flt s
    · exact (hflt hi).trans hs

/-- Settles O15: a command that takes none of its own faults leaves an unfaulted state unfaulted. -/
theorem ownFaultsOnly : Obligations.OwnFaultsOnly := by
  intro i s t hs h ht
  rcases exec_takesFault_or_keeps h with hfault | ⟨-, -, -, hkeeps⟩
  · exact hfault
  · simp [hkeeps hs] at ht

/-! ## Taking a fault (R250, R266) -/

/-- What an unfaulted fetch finds when the decoder refuses the head of CIN (R84, R86). -/
theorem fetch_of_decode_bad {s : State} {f : FaultCode} {rest : List Word} (hs : s.flt = false)
    (h : decode s.cin = .bad f rest) :
    fetch s = .reject f (s.cin.length - rest.length) ∧ s.cin.drop (s.cin.length - rest.length) = rest := by
  obtain ⟨w, p, hc, hd⟩ := decode_eq_bad.1 h
  obtain ⟨-, hcin⟩ := takeCommand_eq_some hc
  have hn : s.cin.length - rest.length = p.length + 1 := by simp [hcin]; omega
  rw [hn]
  exact ⟨by simp [fetch, hc, hs, hd], by simp [hcin]⟩

/-- A command is refused only while the CORE is not faulted: a faulted CORE does not decode it (R85). -/
theorem flt_of_fetch_reject {s : State} {f : FaultCode} {n : Nat} (h : fetch s = .reject f n) : s.flt = false := by
  rcases fetch_cases s with ⟨-, hf⟩ | ⟨w, p, rest, -, ⟨hs, -, hf⟩ | ⟨hs, -, hf⟩ | ⟨hs, _, -, hf⟩ | ⟨hs, _, -, hf⟩⟩ <;>
    simp_all

/-- A step takes a fault on the words of its command, from an unfaulted state, or leaves the three error registers alone
and sets no `FLT`. -/
theorem step_takesFault_or_keeps {s t : State} (h : step s = .next t) :
    (s.flt = false ∧ ∃ f n, cmdlen s.cin = some n ∧ t = advance n (takeFault f s)) ∨
    (t.errkind = s.errkind ∧ t.errdet = s.errdet ∧ t.errcp = s.errcp ∧ (s.flt = false → t.flt = false)) := by
  rcases step_cases h with ⟨-, rfl⟩ | ⟨n, -, rfl⟩ | ⟨f, n, hf, rfl⟩ | ⟨i, n, u, hf, hu, rfl⟩
  · exact .inr ⟨rfl, rfl, rfl, id⟩
  · exact .inr ⟨rfl, rfl, rfl, id⟩
  · obtain ⟨-, hlen, -⟩ := cmdlen_of_fetch_length (s := s) (n := n) (by rw [hf]; rfl)
    exact .inl ⟨flt_of_fetch_reject hf, f, n, hlen, rfl⟩
  · rcases exec_takesFault_or_keeps hu with ⟨f, hown, rfl⟩ | hkeeps
    · obtain ⟨-, hlen, -⟩ := cmdlen_of_fetch_length (s := s) (n := n) (by rw [hf]; rfl)
      obtain ⟨-, ⟨hs, -⟩ | ⟨-, rfl⟩⟩ := fetch_run hf
      · exact .inl ⟨hs, f, n, hlen, rfl⟩
      · -- A faulted CORE runs `CLRERR` alone, which has no fault of its own.
        cases hown
    · exact .inr hkeeps

/-- Settles O14: a step takes a fault, and is then as R266 says, or writes none of the fault's registers. -/
theorem faultEntry : Obligations.FaultEntry := by
  refine ⟨fun s f rest hs h => ?_, fun s t hs h ht => ?_, fun s t h hnone => ?_⟩
  · obtain ⟨hf, hdrop⟩ := fetch_of_decode_bad hs h
    simp [step, hf, advance, hdrop]
  · rcases step_takesFault_or_keeps h with ⟨-, f, n, hlen, rfl⟩ | ⟨-, -, -, hkeeps⟩
    · exact ⟨n, hlen, takesFault_takeFault f n s⟩
    · simp [hkeeps hs] at ht
  · rcases step_takesFault_or_keeps h with ⟨hs, f, n, -, rfl⟩ | ⟨hkind, hdet, hcp, -⟩
    · simp [hs] at hnone
    · exact ⟨hkind, hdet, hcp⟩

end Sys2Proof.Machine
end
